-- ==== Sys2Proof/Word.lean ====
section
/-! DEFINITION. The words of the machine: 16-bit words, bytes of the console, register numbers (R7, R10, R20). -/

namespace Sys2Proof

/-- A 16-bit pattern: a register, an address or a memory word (R10). Its `+` is modulo 2^16. -/
abbrev Word := BitVec 16

/-- One console byte (R222). -/
abbrev Byte := BitVec 8

/-- The number of a general register, 0 to 7 (R20). -/
abbrev Reg := Fin 8

end Sys2Proof
end

