-- ==== Sys2Proof/Config.lean ====
section
/-! DEFINITION. The parameters that R8 leaves to configuration. The machine carries them in its state and no step
changes them, so every claim about all states is a claim about all parameters. LOAD_BASE is set by each load and
CONSOLE_IN is consumed: both stand in the state itself. The spec leaves no result of an instruction undefined, so the
model has no free value. -/

namespace Sys2Proof

/-- The configuration of one machine (R8). Its fields admit exactly the legal values. -/
structure Config where
  /-- The highest memory offset, MEM_WORDS - 1: MEM_WORDS is 1 to 65536 (R8, D14). -/
  lastOffset : Word
  /-- The binary logarithm of L: L is a power of two, 1 to 65536 (R8, D30). -/
  lineBits : Fin 17
  /-- CC_ON_ALL_REG_WRITES (R8, U7); false in the spec. -/
  ccOnAllRegWrites : Bool
  /-- JSRR_READS_BASE_FIRST (R8, U8); false in the spec. -/
  jsrrReadsBaseFirst : Bool
  /-- ACCESS_DELAY (R8, R241): no rule depends on it, and nothing in the model reads it. -/
  accessDelay : Nat
  deriving DecidableEq, Repr

/-- MEM_WORDS, the capacity of main memory in words (R8). -/
def Config.memWords (c : Config) : Nat := c.lastOffset.toNat + 1

/-- L, the line count of each cache (R8). -/
def Config.lines (c : Config) : Nat := 2 ^ c.lineBits.val

/-- Both behaviour flags have the value the spec fixes for them, false (R8). -/
abbrev Config.FlagsAsSpec (c : Config) : Prop :=
  c.ccOnAllRegWrites = false ∧ c.jsrrReadsBaseFirst = false

end Sys2Proof
end

