-- ==== Sys2Proof/Machine/State.lean ====
section
/-! DEFINITION. The state of the CORE as plain data: every piece of state of spec/10_state.md, the cache-event trace
(R61), the configuration (R8) and the two byte sequences of the console collaborator (R222). -/

namespace Sys2Proof.Machine

/-- The condition code, one-hot over {N, Z, P}: exactly one is set at any time (R26). -/
inductive CC where
  | n | z | p
  deriving DecidableEq, Repr

/-- The phases of a cycle (R32, R120). -/
inductive Phase where
  | fetch | decode | evalAddr | fetchOperands | execute | store | done
  deriving DecidableEq, Repr

/-- The cycle-local latches of R32. Software cannot observe them. -/
structure Latches where
  /-- Which phase runs: every phase writes it (R32). Between cycles it is FETCH (R120); a cycle that is held in EXECUTE
  keeps EXECUTE (R182). -/
  phase : Phase
  /-- `ir[15:12]`. -/
  op : BitVec 4
  /-- `ir[11:9]`. -/
  dr : Reg
  /-- `ir[8:6]`. -/
  sr1 : Reg
  /-- `ir[2:0]`. -/
  sr2 : Reg
  /-- The branch-enable flag (R29). -/
  ben : Bool
  /-- The one sign-extended offset for the opcode class. -/
  off : Word
  /-- The effective address, or the zero-extended trap vector. -/
  ea : Word
  /-- The first ALU operand. -/
  opA : Word
  /-- The second ALU operand. -/
  opB : Word
  /-- The ALU result. -/
  result : Word
  deriving DecidableEq, Repr

/-- The latches after a load: zero, false and FETCH (R45). -/
def Latches.reset : Latches :=
  { phase := .fetch, op := 0, dr := 0, sr1 := 0, sr2 := 0, ben := false, off := 0, ea := 0, opA := 0, opB := 0,
    result := 0 }

/-- One cache line (R35). -/
structure Line where
  valid : Bool
  dirty : Bool
  tag : Nat
  word : Word
  deriving DecidableEq, Repr

/-- A line after a load: invalid, clean, tag 0, word 0x0000 (R46). -/
def Line.reset : Line := { valid := false, dirty := false, tag := 0, word := 0 }

/-- Which of the two caches (R35). -/
inductive CacheId where
  | ic | dc
  deriving DecidableEq, Repr

/-- The operation of a cache access (R61). -/
inductive AccessOp where
  | read | write
  deriving DecidableEq, Repr

/-- How a cache access went (R61). -/
inductive AccessKind where
  | hit | coldMiss | conflictMiss
  deriving DecidableEq, Repr

/-- One entry of the cache-event trace (R61): `wb` is the address of a victim that was written back. -/
structure Event where
  cache : CacheId
  op : AccessOp
  addr : Word
  kind : AccessKind
  wb : Option Word
  deriving DecidableEq, Repr

/-- The sticky record of the first fault (R34). -/
inductive FaultRecord where
  /-- OutOfRange: the cycle was about to access this address, which is outside memory (R201). -/
  | outOfRange (addr : Word)
  deriving DecidableEq, Repr

/-- Main memory: pairs of an offset and a word, offsets strictly rising, no word equal to 0x0000, which is what an
unlisted offset reads as (R37, R47). Memory holds words and has no byte addresses (R62; log entry 1). -/
abbrev Memory := List (Nat × Word)

/-- The lines of one cache: pairs of an index and a line, indices strictly rising, no line equal to `Line.reset`,
which is what an unlisted index holds (R35, R46; log entry 1). -/
abbrev Lines := List (Nat × Line)

/-- The console collaborator (R222), which is outside the core (R39): the bytes the host has supplied and GETC has
not taken, and the bytes the core has sent, oldest first (log entry 9). -/
structure Console where
  input : List Byte
  output : List Byte
  deriving DecidableEq, Repr

/-- The whole machine. -/
structure State where
  /-- The parameters of R8; no step changes them. -/
  cfg : Config
  /-- `x[0]` to `x[7]` (R20). -/
  regs : Vector Word 8
  /-- The program counter (R23). -/
  pc : Word
  /-- The condition code (R26). -/
  cc : CC
  /-- The instruction register (R30). -/
  ir : Word
  /-- The memory address register (R31). -/
  mar : Word
  /-- The memory data register (R31). -/
  mdr : Word
  /-- The cycle-local latches (R32). -/
  latch : Latches
  /-- A program image has been loaded (R34). -/
  loaded : Bool
  /-- A HALT trap has ended the program (R34). -/
  halted : Bool
  /-- The sticky fault (R34). -/
  fault : Option FaultRecord
  /-- The start address of the loaded image (R34). -/
  loadBase : Word
  /-- The instruction cache (R35, R36). -/
  ic : Lines
  /-- The data cache (R35). -/
  dc : Lines
  /-- Main memory (R37). -/
  mem : Memory
  /-- The breakpoint set, in rising order (R38; log entry 14). -/
  bp : List Word
  /-- The cache-event trace, oldest first (R61). -/
  trace : List Event
  /-- The console collaborator (R222). -/
  console : Console
  deriving DecidableEq, Repr

/-- Why a step stops the model outside the outcomes of R200. -/
inductive Fault where
  /-- `step` raises it in a state whose phase latch is neither FETCH nor an EXECUTE that GETC or PUTS holds: a
  state no run reaches, to which the spec gives no meaning. Safe: the model stops (log entry 11). -/
  | strayPhase
  deriving DecidableEq, Repr

/-- Why an instruction has no meaning. -/
inductive Refusal where
  /-- Raised only by an arm of `exec` whose instruction is not modelled; no arm raises it now. Safe. -/
  | notModelled (mnemonic : String)
  deriving DecidableEq, Repr

/-- The parameters of `State.reset`: MEM_WORDS = 0x1000 and L = 8, the values spec/95_test_vectors.md assumes, both
flags false as R8 fixes them, no delay. DESIGN CHOICE, unsafe (log entry 2). -/
def resetConfig : Config :=
  { lastOffset := 0x0FFF#16, lineBits := 3, ccOnAllRegWrites := false, jsrrReadsBaseFirst := false, accessDelay := 0 }

/-- The machine right after reset. Reset is `load` (R230), here of an image of no words, so that nothing is placed in
memory, at the start address 0x3000 (DESIGN CHOICE, unsafe; log entry 3). Every other field is as R42 to R49 say. -/
def State.reset : State :=
  { cfg := resetConfig, regs := Vector.replicate 8 0, pc := 0x3000#16, cc := .z, ir := 0, mar := 0, mdr := 0,
    latch := .reset, loaded := true, halted := false, fault := none, loadBase := 0x3000#16, ic := [], dc := [],
    mem := [], bp := [], trace := [], console := { input := [], output := [] } }

end Sys2Proof.Machine
end

