-- ==== Sys2Proof/Machine/Memory.lean ====
section
/-! DEFINITION. Sparse storage in one canonical form, for main memory (R37) and for the lines of the caches (R35):
keys strictly rising, and no entry equal to what an unlisted key holds, so that equal contents are equal data. -/

namespace Sys2Proof.Machine

variable {α : Type}

/-- What key `k` holds: the listed value, or `d`. -/
def sparseGet (d : α) : List (Nat × α) → Nat → α
  | [], _ => d
  | (j, v) :: m, k => if j = k then v else sparseGet d m k

/-- The list without key `k`. -/
def sparseErase : List (Nat × α) → Nat → List (Nat × α)
  | [], _ => []
  | (j, v) :: m, k => if j = k then sparseErase m k else (j, v) :: sparseErase m k

/-- The list with the entry `(k, v)` before the first larger key. -/
def sparseInsert : List (Nat × α) → Nat → α → List (Nat × α)
  | [], k, v => [(k, v)]
  | (j, u) :: m, k, v => if k < j then (k, v) :: (j, u) :: m else (j, u) :: sparseInsert m k v

/-- Key `k` set to `v`; the value of an unlisted key is not listed. -/
def sparseSet [DecidableEq α] (d : α) (m : List (Nat × α)) (k : Nat) (v : α) : List (Nat × α) :=
  if v = d then sparseErase m k else sparseInsert (sparseErase m k) k v

/-- The canonical form for keys below `bound`. -/
abbrev SparseWf (d : α) (bound : Nat) (m : List (Nat × α)) : Prop :=
  m.Pairwise (fun e f => e.1 < f.1) ∧ ∀ e ∈ m, e.1 < bound ∧ e.2 ≠ d

/-- What memory reads as where nothing has been written since the load: 0x0000 (R47, D17). -/
def Memory.unlisted : Word := 0

/-- The word `M[o]` (R53). -/
def Memory.read (m : Memory) (o : Nat) : Word := sparseGet Memory.unlisted m o

/-- `M[o] <- v` (R53). -/
def Memory.write (m : Memory) (o : Nat) (v : Word) : Memory := sparseSet Memory.unlisted m o v

/-- The canonical form of a memory of `memWords` words. -/
abbrev Memory.wf (memWords : Nat) (m : Memory) : Prop := SparseWf Memory.unlisted memWords m

/-- The listed words of an image whose first word is at offset `o` (R47, R233). -/
def imageFrom (o : Nat) : List Word → Memory
  | [] => []
  | w :: ws => if w = Memory.unlisted then imageFrom (o + 1) ws else (o, w) :: imageFrom (o + 1) ws

/-- The line at index `i` (R35). -/
def Lines.line (c : Lines) (i : Nat) : Line := sparseGet .reset c i

/-- The cache with `l` at index `i`. -/
def Lines.setLine (c : Lines) (i : Nat) (l : Line) : Lines := sparseSet .reset c i l

/-- The canonical form of a cache of `lines` lines. -/
abbrev Lines.wf (lines : Nat) (c : Lines) : Prop := SparseWf .reset lines c

end Sys2Proof.Machine
end

