-- ==== Sys2Proof/Syntax.lean ====
section
/-! DEFINITION. The instructions, one constructor per row of spec/opcode_table.json (R92, R96). Operands have the
width of their field; a bit that R98 says is ignored has no operand. -/

namespace Sys2Proof

/-- One decoded instruction. -/
inductive Instr where
  /-- ADD, register form (R141). -/
  | addReg (dr sr1 sr2 : Reg)
  /-- ADD, immediate form (R142). -/
  | addImm (dr sr1 : Reg) (imm5 : BitVec 5)
  /-- AND, register form (R143). -/
  | andReg (dr sr1 sr2 : Reg)
  /-- AND, immediate form (R144). -/
  | andImm (dr sr1 : Reg) (imm5 : BitVec 5)
  /-- NOT (R145). -/
  | notOp (dr sr : Reg)
  /-- BR: `nzp` has n in bit 2, z in bit 1, p in bit 0 (R170). -/
  | br (nzp : BitVec 3) (pcOffset9 : BitVec 9)
  /-- JMP; RET is `jmp 7` (R171). -/
  | jmp (baseR : Reg)
  /-- JSR (R172). -/
  | jsr (pcOffset11 : BitVec 11)
  /-- JSRR (R173). -/
  | jsrr (baseR : Reg)
  /-- LD (R150). -/
  | ld (dr : Reg) (pcOffset9 : BitVec 9)
  /-- LDI (R151). -/
  | ldi (dr : Reg) (pcOffset9 : BitVec 9)
  /-- LDR (R152). -/
  | ldr (dr baseR : Reg) (offset6 : BitVec 6)
  /-- LEA (R153). -/
  | lea (dr : Reg) (pcOffset9 : BitVec 9)
  /-- ST (R154). -/
  | st (sr : Reg) (pcOffset9 : BitVec 9)
  /-- STI (R155). -/
  | sti (sr : Reg) (pcOffset9 : BitVec 9)
  /-- STR (R156). -/
  | str (sr baseR : Reg) (offset6 : BitVec 6)
  /-- TRAP with vector 0x20 (R182). -/
  | getc
  /-- TRAP with vector 0x21 (R183). -/
  | out
  /-- TRAP with vector 0x22 (R184). -/
  | puts
  /-- TRAP with vector 0x25 (R181). -/
  | halt
  /-- TRAP with a vector that selects no service (R185). -/
  | trap (trapvect8 : BitVec 8)
  /-- PUSH (R195). -/
  | push (sr : Reg)
  /-- POP (R196). -/
  | pop (dr : Reg)
  /-- A word whose opcode is 0x8 (R130). -/
  | invalid
  deriving DecidableEq, Repr

end Sys2Proof
end

