-- ==== Sys2Proof/WellFormed.lean ====
section
/-! DEFINITION. Which terms of `Instr` are instructions. The operand types keep every field in range, so one check is
left: the row TRAP of the opcode table excludes the vectors of the four services (R96, R99). -/

namespace Sys2Proof

/-- The vector selects one of the four services: GETC, OUT, PUTS or HALT (R99). -/
abbrev IsService (v : BitVec 8) : Prop := v = 0x20#8 ∨ v = 0x21#8 ∨ v = 0x22#8 ∨ v = 0x25#8

/-- The check, one arm per constructor: a `trap` has a vector without a service, and every other term passes. -/
def Instr.wellFormed (i : Instr) : Bool :=
  match i with
  | .trap v => !decide (IsService v)
  | .addReg .. | .addImm .. | .andReg .. | .andImm .. | .notOp .. => true
  | .br .. | .jmp .. | .jsr .. | .jsrr .. => true
  | .ld .. | .ldi .. | .ldr .. | .lea .. | .st .. | .sti .. | .str .. => true
  | .getc | .out | .puts | .halt => true
  | .push .. | .pop .. | .invalid => true

/-- The term is an instruction. -/
abbrev Instr.WellFormed (i : Instr) : Prop := i.wellFormed = true

end Sys2Proof
end

