-- ==== Sys2Proof/Decode.lean ====
section
/-! DEFINITION. The decoder (R90 to R98), total on every word since no word is refused at decode (R96), and after it
the encoder, which emits the canonical encodings of R92, and the rows of spec/opcode_table.json as masks and patterns. -/

namespace Sys2Proof

/-! ## Fields of an instruction word (R91) -/

/-- The opcode, `ir[15:12]`. -/
def opField (w : Word) : BitVec 4 := w.extractLsb' 12 4

/-- The number a 3-bit field names. -/
def regOf (b : BitVec 3) : Reg := b.toFin

/-- DR, SR or the field that BR reads as nzp, `ir[11:9]`. -/
def drField (w : Word) : Reg := regOf (w.extractLsb' 9 3)

/-- SR1 or BaseR, `ir[8:6]`. -/
def sr1Field (w : Word) : Reg := regOf (w.extractLsb' 6 3)

/-- SR2, `ir[2:0]`. -/
def sr2Field (w : Word) : Reg := regOf (w.extractLsb' 0 3)

/-- The branch condition n, z, p, `ir[11:9]` (R26, R170). -/
def nzpField (w : Word) : BitVec 3 := w.extractLsb' 9 3

/-- imm5, `ir[4:0]`. -/
def imm5Field (w : Word) : BitVec 5 := w.extractLsb' 0 5

/-- offset6, `ir[5:0]`. -/
def offset6Field (w : Word) : BitVec 6 := w.extractLsb' 0 6

/-- PCoffset9, `ir[8:0]`. -/
def pcOffset9Field (w : Word) : BitVec 9 := w.extractLsb' 0 9

/-- PCoffset11, `ir[10:0]`. -/
def pcOffset11Field (w : Word) : BitVec 11 := w.extractLsb' 0 11

/-- trapvect8, `ir[7:0]`. -/
def trapvect8Field (w : Word) : BitVec 8 := w.extractLsb' 0 8

/-- Bit 5: the immediate form of ADD and AND, and POP against PUSH. -/
def bit5 (w : Word) : Bool := w.getLsbD 5

/-- Bit 11: JSR against JSRR. -/
def bit11 (w : Word) : Bool := w.getLsbD 11

/-! ## The decoder -/

/-- The service that a trap vector selects (R99, R180). -/
def decodeTrap (v : BitVec 8) : Instr :=
  if v = 0x20#8 then .getc
  else if v = 0x21#8 then .out
  else if v = 0x22#8 then .puts
  else if v = 0x25#8 then .halt
  else .trap v

/-- The instruction of a word: chosen by `op`, then by bit 11, bit 5 or the vector (R95, R96). -/
def decode (w : Word) : Instr :=
  match opField w with
  | 0x0#4 => .br (nzpField w) (pcOffset9Field w)
  | 0x1#4 => bif bit5 w then .addImm (drField w) (sr1Field w) (imm5Field w)
             else .addReg (drField w) (sr1Field w) (sr2Field w)
  | 0x2#4 => .ld (drField w) (pcOffset9Field w)
  | 0x3#4 => .st (drField w) (pcOffset9Field w)
  | 0x4#4 => bif bit11 w then .jsr (pcOffset11Field w) else .jsrr (sr1Field w)
  | 0x5#4 => bif bit5 w then .andImm (drField w) (sr1Field w) (imm5Field w)
             else .andReg (drField w) (sr1Field w) (sr2Field w)
  | 0x6#4 => .ldr (drField w) (sr1Field w) (offset6Field w)
  | 0x7#4 => .str (drField w) (sr1Field w) (offset6Field w)
  | 0x9#4 => .notOp (drField w) (sr1Field w)
  | 0xA#4 => .ldi (drField w) (pcOffset9Field w)
  | 0xB#4 => .sti (drField w) (pcOffset9Field w)
  | 0xC#4 => .jmp (sr1Field w)
  | 0xD#4 => bif bit5 w then .pop (drField w) else .push (drField w)
  | 0xE#4 => .lea (drField w) (pcOffset9Field w)
  | 0xF#4 => decodeTrap (trapvect8Field w)
  | _ => .invalid -- 0x8, the one opcode value left (R97)

/-- The instruction word that the low `nbits` bits of `w` give, every bit above them zero. -/
def tableWord (nbits w : Nat) : Word := BitVec.ofNat 16 (w % 2 ^ nbits)

/-- The decoder as the opcode table numbers bits. It refuses only more bits than the one word of R90 has. -/
def decodeTableWord (nbits w : Nat) : Option Instr :=
  if nbits ≤ 16 then some (decode (tableWord nbits w)) else none

/-! ## The encoder -/

/-- The 3-bit field that names a register. -/
def regBits (r : Reg) : BitVec 3 := BitVec.ofFin r

/-- The opcode of each instruction (R95). -/
def Instr.opcode (i : Instr) : BitVec 4 :=
  match i with
  | .br .. => 0x0#4
  | .addReg .. | .addImm .. => 0x1#4
  | .ld .. => 0x2#4
  | .st .. => 0x3#4
  | .jsr .. | .jsrr .. => 0x4#4
  | .andReg .. | .andImm .. => 0x5#4
  | .ldr .. => 0x6#4
  | .str .. => 0x7#4
  | .invalid => 0x8#4
  | .notOp .. => 0x9#4
  | .ldi .. => 0xA#4
  | .sti .. => 0xB#4
  | .jmp .. => 0xC#4
  | .push .. | .pop .. => 0xD#4
  | .lea .. => 0xE#4
  | .getc | .out | .puts | .halt | .trap .. => 0xF#4

/-- The canonical encoding of an instruction: the filler of R92 stands in each ignored bit. R92 gives the invalid row no
filler; its twelve ignored bits are written as zeros (DESIGN CHOICE, log entry 22). -/
def encode (i : Instr) : Word :=
  match i with
  | .addReg dr sr1 sr2 => 0x1#4 ++ regBits dr ++ regBits sr1 ++ 0#1 ++ 0#2 ++ regBits sr2
  | .addImm dr sr1 imm5 => 0x1#4 ++ regBits dr ++ regBits sr1 ++ 1#1 ++ imm5
  | .andReg dr sr1 sr2 => 0x5#4 ++ regBits dr ++ regBits sr1 ++ 0#1 ++ 0#2 ++ regBits sr2
  | .andImm dr sr1 imm5 => 0x5#4 ++ regBits dr ++ regBits sr1 ++ 1#1 ++ imm5
  | .notOp dr sr => 0x9#4 ++ regBits dr ++ regBits sr ++ 0x3F#6
  | .br nzp off => 0x0#4 ++ nzp ++ off
  | .jmp baseR => 0xC#4 ++ 0#3 ++ regBits baseR ++ 0#6
  | .jsr off => 0x4#4 ++ 1#1 ++ off
  | .jsrr baseR => 0x4#4 ++ 0#1 ++ 0#2 ++ regBits baseR ++ 0#6
  | .ld dr off => 0x2#4 ++ regBits dr ++ off
  | .ldi dr off => 0xA#4 ++ regBits dr ++ off
  | .ldr dr baseR off => 0x6#4 ++ regBits dr ++ regBits baseR ++ off
  | .lea dr off => 0xE#4 ++ regBits dr ++ off
  | .st sr off => 0x3#4 ++ regBits sr ++ off
  | .sti sr off => 0xB#4 ++ regBits sr ++ off
  | .str sr baseR off => 0x7#4 ++ regBits sr ++ regBits baseR ++ off
  | .getc => 0xF#4 ++ 0#4 ++ 0x20#8
  | .out => 0xF#4 ++ 0#4 ++ 0x21#8
  | .puts => 0xF#4 ++ 0#4 ++ 0x22#8
  | .halt => 0xF#4 ++ 0#4 ++ 0x25#8
  | .trap v => 0xF#4 ++ 0#4 ++ v
  | .push sr => 0xD#4 ++ regBits sr ++ 0#3 ++ 0#1 ++ 0#5
  | .pop dr => 0xD#4 ++ regBits dr ++ 0#3 ++ 1#1 ++ 0#5
  | .invalid => 0x8#4 ++ 0#12

/-! ## The opcode table (R96) -/

/-- The bits an instruction ignores (R98; every bit below the opcode for an invalid word, R92). -/
def Instr.ignoredBits (i : Instr) : Word :=
  match i with
  | .addReg .. | .andReg .. => 0x0018#16
  | .notOp .. => 0x003F#16
  | .jmp .. => 0x0E3F#16
  | .jsrr .. => 0x063F#16
  | .getc | .out | .puts | .halt | .trap .. => 0x0F00#16
  | .push .. | .pop .. => 0x01DF#16
  | .invalid => 0x0FFF#16
  | .addImm .. | .andImm .. | .br .. | .jsr .. => 0x0000#16
  | .ld .. | .ldi .. | .ldr .. | .lea .. | .st .. | .sti .. | .str .. => 0x0000#16

/-- A row of spec/opcode_table.json: its mask and match, and whether it excludes the rows of the four services. -/
structure TableRow where
  mask : Word
  pattern : Word
  excludesServices : Bool
  deriving DecidableEq, Repr

/-- The word belongs to the row (R96). -/
def TableRow.matchesWord (r : TableRow) (w : Word) : Bool :=
  w &&& r.mask == r.pattern && !(r.excludesServices && decide (IsService (trapvect8Field w)))

/-- The row of an instruction: "mask" and "match" as the table has them. -/
def Instr.row (i : Instr) : TableRow :=
  match i with
  | .addReg .. => ⟨0xF020#16, 0x1000#16, false⟩
  | .addImm .. => ⟨0xF020#16, 0x1020#16, false⟩
  | .andReg .. => ⟨0xF020#16, 0x5000#16, false⟩
  | .andImm .. => ⟨0xF020#16, 0x5020#16, false⟩
  | .notOp .. => ⟨0xF000#16, 0x9000#16, false⟩
  | .br .. => ⟨0xF000#16, 0x0000#16, false⟩
  | .jmp .. => ⟨0xF000#16, 0xC000#16, false⟩
  | .jsr .. => ⟨0xF800#16, 0x4800#16, false⟩
  | .jsrr .. => ⟨0xF800#16, 0x4000#16, false⟩
  | .ld .. => ⟨0xF000#16, 0x2000#16, false⟩
  | .ldi .. => ⟨0xF000#16, 0xA000#16, false⟩
  | .ldr .. => ⟨0xF000#16, 0x6000#16, false⟩
  | .lea .. => ⟨0xF000#16, 0xE000#16, false⟩
  | .st .. => ⟨0xF000#16, 0x3000#16, false⟩
  | .sti .. => ⟨0xF000#16, 0xB000#16, false⟩
  | .str .. => ⟨0xF000#16, 0x7000#16, false⟩
  | .getc => ⟨0xF0FF#16, 0xF020#16, false⟩
  | .out => ⟨0xF0FF#16, 0xF021#16, false⟩
  | .puts => ⟨0xF0FF#16, 0xF022#16, false⟩
  | .halt => ⟨0xF0FF#16, 0xF025#16, false⟩
  | .trap .. => ⟨0xF000#16, 0xF000#16, true⟩
  | .push .. => ⟨0xF020#16, 0xD000#16, false⟩
  | .pop .. => ⟨0xF020#16, 0xD020#16, false⟩
  | .invalid => ⟨0xF000#16, 0x8000#16, false⟩

/-- The rows of spec/opcode_table.json, in its order, each from one instruction that it stands for. -/
def opcodeTable : List TableRow :=
  [ (Instr.addReg 0 0 0).row, (Instr.addImm 0 0 0).row, (Instr.andReg 0 0 0).row, (Instr.andImm 0 0 0).row,
    (Instr.notOp 0 0).row, (Instr.br 0 0).row, (Instr.jmp 0).row, (Instr.jsr 0).row, (Instr.jsrr 0).row,
    (Instr.ld 0 0).row, (Instr.ldi 0 0).row, (Instr.ldr 0 0 0).row, (Instr.lea 0 0).row, (Instr.st 0 0).row,
    (Instr.sti 0 0).row, (Instr.str 0 0 0).row, Instr.getc.row, Instr.out.row, Instr.puts.row, Instr.halt.row,
    (Instr.trap 0).row, (Instr.push 0).row, (Instr.pop 0).row, Instr.invalid.row ]

end Sys2Proof
end

