-- ==== Sys2Proof/Machine/Flags.lean ====
section
/-! DEFINITION. The condition code: its encoding and its only computation (R26, R27, R29). -/

namespace Sys2Proof.Machine

/-- The one-hot encoding {N, Z, P} with N in bit 2 (R26). -/
def CC.bits : CC → BitVec 3
  | .n => 0b100#3
  | .z => 0b010#3
  | .p => 0b001#3

/-- The flag of a value: N if bit 15 is set, Z if it is zero, else P (R27). -/
def ccOf (v : Word) : CC :=
  if v.getLsbD 15 then .n else if v = 0x0000#16 then .z else .p

/-- `setcc(v)` (R27). -/
def State.setcc (s : State) (v : Word) : State := { s with cc := ccOf v }

/-- `setcc(v)` where R8's flag CC_ON_ALL_REG_WRITES asks for it, for the registers that JSR, JSRR, GETC, PUSH and POP
write; with the flag false, as the spec fixes it, nothing (R28, U7). -/
def State.setccIfAll (s : State) (v : Word) : State :=
  { s with cc := bif s.cfg.ccOnAllRegWrites then ccOf v else s.cc }

/-- The branch-enable flag: CC AND nzp is not zero (R29). -/
def branchEnable (cc : CC) (nzp : BitVec 3) : Bool := cc.bits &&& nzp != 0

end Sys2Proof.Machine
end

