-- ==== Sys2Proof/Machine/Operands.lean ====
section
/-! DEFINITION. Operands: extension of fields (R11, R93), registers (R20), the ALU and its operands (R125, R140), the
effective addresses (R157) and the latches that DECODE and EVAL_ADDR write (R123, R124). -/

namespace Sys2Proof.Machine

/-! ## Fields -/

/-- `sext_N(v)`: bits 15 to N are copies of the sign bit (R11). -/
def sext {n : Nat} (v : BitVec n) : Word := v.signExtend 16

/-- `zext_N(v)`: bits 15 to N are zero (R11). -/
def zext {n : Nat} (v : BitVec n) : Word := v.setWidth 16

/-! ## Registers -/

/-- R6, the stack pointer of PUSH and POP (R13, R21). -/
def spReg : Reg := 6

/-- R7, the link register of JSR and JSRR (R13, R21). -/
def linkReg : Reg := 7

/-- Read `x[r]` (R20). -/
def State.reg (s : State) (r : Reg) : Word := s.regs.get r

/-- `x[r] <- v`: all 16 bits of one register (R20). -/
def State.setReg (s : State) (r : Reg) (v : Word) : State := { s with regs := s.regs.set r v r.isLt }

/-! ## The ALU -/

/-- The operations of the ALU (R140). -/
inductive AluOp where
  | add | and | not
  deriving DecidableEq, Repr

/-- The ALU: no carry and no overflow; NOT has no second operand (R140). -/
def alu (op : AluOp) (a b : Word) : Word :=
  match op with
  | .add => a + b
  | .and => a &&& b
  | .not => a ^^^ 0xFFFF#16

/-- FETCH_OPERANDS of ADD and AND: `opA` and `opB` (R125). -/
def State.latchOperands (s : State) (a b : Word) : State := { s with latch := { s.latch with opA := a, opB := b } }

/-- FETCH_OPERANDS of NOT: `opA` alone (R125). -/
def State.latchOperandA (s : State) (a : Word) : State := { s with latch := { s.latch with opA := a } }

/-- EXECUTE of ADD, AND and NOT: `result`, then `setcc(result)` (R126). -/
def State.executeAlu (op : AluOp) (s : State) : State :=
  let r := alu op s.latch.opA s.latch.opB
  { s with latch := { s.latch with result := r } }.setcc r

/-- STORE of ADD, AND and NOT (R127). -/
def State.storeResult (dr : Reg) (s : State) : State := s.setReg dr s.latch.result

/-! ## Effective addresses -/

/-- `pc + off` for a PC-relative offset of any width, modulo 2^16 (R25, R157). -/
def State.pcPlus {n : Nat} (s : State) (off : BitVec n) : Word := s.pc + sext off

/-- `x[BaseR] + offset6`, modulo 2^16 (R157). -/
def State.basePlus (s : State) (baseR : Reg) (offset6 : BitVec 6) : Word := s.reg baseR + sext offset6

/-- EVAL_ADDR: `ea <- a` (R124). -/
def State.latchEa (s : State) (a : Word) : State := { s with latch := { s.latch with ea := a } }

/-- EVAL_ADDR of TRAP: `ea` is the zero-extended vector (R124, R180). -/
def State.evalVector (s : State) (v : BitVec 8) : State := s.latchEa (zext v)

/-! ## DECODE -/

/-- The offset that DECODE extends for the opcode class, else 0x0000 (R93, R123). -/
def decodedOffset (i : Instr) : Word :=
  match i with
  | .ld _ off | .ldi _ off | .lea _ off | .st _ off | .sti _ off | .br _ off => sext off
  | .ldr _ _ off | .str _ _ off => sext off
  | .jsr off => sext off
  | .addReg .. | .addImm .. | .andReg .. | .andImm .. | .notOp .. | .jmp .. | .jsrr .. => 0x0000#16
  | .getc | .out | .puts | .halt | .trap .. | .push .. | .pop .. | .invalid => 0x0000#16

/-- DECODE: the latches that `ir` and `cc` give (R123), and the phase itself (R32). -/
def State.latchDecode (s : State) : State :=
  { s with latch :=
      { s.latch with
        phase := .decode, op := opField s.ir, dr := drField s.ir, sr1 := sr1Field s.ir, sr2 := sr2Field s.ir,
        ben := branchEnable s.cc (nzpField s.ir), off := decodedOffset (decode s.ir) } }

end Sys2Proof.Machine
end

