-- ==== Sys2Proof/Machine/Ops.lean ====
section
/-! DEFINITION. The shared operations: the address check and the three paths to memory (R51 to R59), the two caches,
the console (R222), the fault (R208) and how a cycle ends (R120). There is no return from a trap or a fault (R213). -/

namespace Sys2Proof.Machine

/-! ## Addresses -/

/-- `Off(a)`: the memory offset of an address (R51). -/
def State.off (s : State) (a : Word) : Nat := (a - s.loadBase).toNat

/-- `InRange(a)` (R51). -/
abbrev State.InRange (s : State) (a : Word) : Prop := s.off a < s.cfg.memWords

/-- The absolute address of a memory offset, modulo 2^16 (R59). -/
def State.absolute (s : State) (o : Nat) : Word := s.loadBase + BitVec.ofNat 16 o

/-! ## Phases

A meaning gives its phases from EVAL_ADDR to STORE; `State.runPhases` runs them in the order of R120. -/

/-- The state with another phase latch. -/
def State.setPhase (s : State) (p : Phase) : State := { s with latch := { s.latch with phase := p } }

/-- What the phases of a cycle do to the state. -/
inductive Flow where
  /-- The cycle goes on to its next phase. -/
  | go (s : State)
  /-- The cycle goes no further than EXECUTE: HALT has ended it there (R126), or the trap service has not finished
  (R182, R184). -/
  | hold (s : State)
  /-- A `Check` of address `a` failed in state `s` (R52). -/
  | outOfRange (a : Word) (s : State)
  deriving DecidableEq, Repr

/-- The next phase runs only if the cycle goes on. -/
def Flow.andThen (f : Flow) (k : State → Flow) : Flow :=
  match f with
  | .go s => k s
  | .hold s => .hold s
  | .outOfRange a s => .outOfRange a s

/-- The next phase: it runs only if the cycle goes on, and the `phase` latch says first that it runs (R32). -/
def Flow.phase (f : Flow) (p : Phase) (body : State → Flow) : Flow := f.andThen fun s => body (s.setPhase p)

/-- What one instruction does in the phases after DECODE (R124 to R127). A phase that is not given does nothing and
passes to the next one (R120). -/
structure Phases where
  evalAddr : State → Flow := .go
  fetchOperands : State → Flow := .go
  execute : State → Flow := .go
  store : State → Flow := .go

/-- EXECUTE and STORE. -/
def State.fromExecute (s : State) (ph : Phases) : Flow :=
  ((Flow.go s).phase .execute ph.execute).phase .store ph.store

/-- EVAL_ADDR to STORE, in order, each at most once (R120). -/
def State.fromEvalAddr (s : State) (ph : Phases) : Flow :=
  (((Flow.go s).phase .evalAddr ph.evalAddr).phase .fetchOperands ph.fetchOperands).andThen fun s => s.fromExecute ph

/-- `Check(a)` (R52). -/
def State.check (s : State) (a : Word) : Flow := if s.InRange a then .go s else .outOfRange a s

/-! ## The raw path (R53) -/

/-- `MemRead(a, 1)`. -/
def State.memRead (s : State) (a : Word) : Word := s.mem.read (s.off a)

/-- `MemWrite(a, 1, v)`. -/
def State.memWrite (s : State) (a : Word) (v : Word) : State := { s with mem := s.mem.write (s.off a) v }

/-! ## The caches (R55 to R58) -/

/-- The line index of an address (R55). -/
def State.index (s : State) (a : Word) : Nat := s.off a % s.cfg.lines

/-- The tag of an address (R55). -/
def State.tag (s : State) (a : Word) : Nat := s.off a / s.cfg.lines

/-- The lines of one cache. -/
def State.lines (s : State) : CacheId → Lines
  | .ic => s.ic
  | .dc => s.dc

/-- The state with other lines in one cache. -/
def State.setLines (s : State) (c : CacheId) (l : Lines) : State :=
  match c with
  | .ic => { s with ic := l }
  | .dc => { s with dc := l }

/-- The line that an address selects in cache `c`. -/
def State.lineAt (s : State) (c : CacheId) (a : Word) : Line := (s.lines c).line (s.index a)

/-- The line that an address selects in cache `c`, replaced. -/
def State.setLineAt (s : State) (c : CacheId) (a : Word) (l : Line) : State :=
  s.setLines c ((s.lines c).setLine (s.index a) l)

/-- Whether an access hits, and how it misses (R56, R57). -/
def State.accessKind (s : State) (c : CacheId) (a : Word) : AccessKind :=
  if (s.lineAt c a).valid = false then .coldMiss
  else if (s.lineAt c a).tag = s.tag a then .hit
  else .conflictMiss

/-- The memory offset that the line an address selects was installed for (R59). -/
def State.lineOffset (s : State) (c : CacheId) (a : Word) : Nat :=
  (s.lineAt c a).tag * s.cfg.lines + s.index a

/-- The offset an access writes back to: that of a dirty line it evicts (R56, R57). -/
def State.victim (s : State) (c : CacheId) (a : Word) : Option Nat :=
  if s.accessKind c a = .conflictMiss ∧ (s.lineAt c a).dirty then some (s.lineOffset c a) else none

/-- The write-back of a dirty line that an access evicts; the line is clean afterwards (R56). -/
def State.writeBack (s : State) (c : CacheId) (a : Word) : State :=
  match s.victim c a with
  | some o => { s with mem := s.mem.write o (s.lineAt c a).word }.setLineAt c a { s.lineAt c a with dirty := false }
  | none => s

/-- One event appended to the trace (R61). -/
def State.emit (s : State) (e : Event) : State := { s with trace := s.trace ++ [e] }

/-- The event of an access (R56, R57, R61). -/
def State.accessEvent (s : State) (c : CacheId) (op : AccessOp) (a : Word) : Event :=
  { cache := c, op := op, addr := a, kind := s.accessKind c a, wb := (s.victim c a).map s.absolute }

/-- `CacheRead(C, a)` for a checked address: the state after it (R56). -/
def State.afterRead (s : State) (c : CacheId) (a : Word) : State :=
  let s1 := (s.writeBack c a).emit (s.accessEvent c .read a)
  if s.accessKind c a = .hit then s1
  else s1.setLineAt c a { s1.lineAt c a with valid := true, tag := s.tag a, word := s1.memRead a }

/-- `CacheRead(C, a)` for a checked address: the word it returns (R56). -/
def State.readWord (s : State) (c : CacheId) (a : Word) : Word := ((s.afterRead c a).lineAt c a).word

/-- `DCacheWrite(a, v)` for a checked address (R57). -/
def State.dcWrite (s : State) (a : Word) (v : Word) : State :=
  ((s.writeBack .dc a).emit (s.accessEvent .dc .write a)).setLineAt .dc a
    { valid := true, dirty := true, tag := s.tag a, word := v }

/-- `Check(a)`, then `DCacheRead(a)`; the word goes to `k` (R52, R56). -/
def State.readThen (s : State) (a : Word) (k : Word → State → Flow) : Flow :=
  (s.check a).andThen fun s => k (s.readWord .dc a) (s.afterRead .dc a)

/-! ## The views of R69 -/

/-- The word that a read of `a` through cache `c` returns: the line's if it holds `a`, else main memory's (R69). -/
def State.view (s : State) (c : CacheId) (a : Word) : Word :=
  if s.accessKind c a = .hit then (s.lineAt c a).word else s.memRead a

/-- `View_D(a)`: what a load returns (R69). -/
abbrev State.viewD (s : State) (a : Word) : Word := s.view .dc a

/-- `View_I(a)`: what a fetch returns (R69). -/
abbrev State.viewI (s : State) (a : Word) : Word := s.view .ic a

/-! ## The console (R222) -/

/-- `ConsoleOut(b)`. -/
def State.consoleOut (s : State) (b : Byte) : State :=
  { s with console := { s.console with output := s.console.output ++ [b] } }

/-- The state after `ConsoleIn()` has taken the first byte of the input. -/
def State.dropInput (s : State) : State :=
  { s with console := { s.console with input := s.console.input.tail } }

/-! ## The fault and the end of a cycle -/

/-- Taking the fault OutOfRange(a) (R208): every state element of R20 to R37 and the trace are as they were at
`start`, `fault` records the address, and the console keeps what `now` has sent. It is used twice: a meaning rolls back
to the state it was given, and `step` rolls back FETCH and DECODE too (log entry 7). -/
def takeFault (start now : State) (a : Word) : State :=
  { start with fault := some (.outOfRange a), console := now.console }

/-- The outcome of the phases of a cycle, started in `start` (R120, R128): DONE, the EXECUTE that the cycle goes no
further than, or the fault taken. -/
def endCycle (start : State) (f : Flow) : Host.Outcome State Fault Refusal :=
  match f with
  | .go s => .next (s.setPhase .done)
  | .hold s => .next s
  | .outOfRange a s => .next (takeFault start s a)

/-- An instruction's own part of a cycle, from the state after DECODE (R120). -/
def State.runPhases (s : State) (ph : Phases) : Host.Outcome State Fault Refusal := endCycle s (s.fromEvalAddr ph)

/-- The rest of a cycle that a trap service holds in EXECUTE (R182, R226): no phase runs twice. -/
def State.resumePhases (s : State) (ph : Phases) : Host.Outcome State Fault Refusal := endCycle s (s.fromExecute ph)

/-! ## FETCH -/

/-- FETCH (R122): the check, then `mar`, `pc` and `ir`. -/
def State.fetch (s : State) : Flow :=
  (s.check s.pc).andThen fun s =>
    let s1 := { s with mar := s.pc, pc := s.pc + 1 }
    .go { s1.afterRead .ic s1.mar with ir := s1.readWord .ic s1.mar }

end Sys2Proof.Machine
end

