-- ==== Sys2Proof/Machine/Cycle.lean ====
section
/-! DEFINITION. How a cycle begins and ends around an instruction's own phases (R120, R128, R208). -/

namespace Sys2Proof.Machine

/-- DONE: the next invocation begins at FETCH (R120). A cycle held in EXECUTE stays there. -/
def State.endOfCycle (s : State) : State := if s.latch.phase = .done then s.setPhase .fetch else s

/-- The end of a cycle begun in `start`: a fault that the instruction took restores `start` (R208). -/
def settle (start : State) (out : Host.Outcome State Fault Refusal) : Host.Outcome State Fault Refusal :=
  match out with
  | .next s =>
    match s.fault with
    | some (.outOfRange a) => .next (takeFault start s a)
    | none => .next s.endOfCycle
  | .fault r => .fault r
  | .refused r => .refused r

/-- The word `w` where the next FETCH reads: main memory at `pc`, and the line that the instruction cache holds for it,
if it holds one. -/
def State.placeWord (s : State) (w : Word) : State :=
  let s1 := s.memWrite s.pc w
  if s1.accessKind .ic s1.pc = .hit then s1.setLineAt .ic s1.pc { s1.lineAt .ic s1.pc with word := w } else s1

/-- A state whose next step fetches `w` and begins a cycle with it. -/
def State.placeAtFetch (s : State) (w : Word) : State :=
  { s.setPhase .fetch with
    loaded := true, halted := false, fault := none,
    pc := if s.InRange s.pc then s.pc else s.loadBase }.placeWord w

end Sys2Proof.Machine
end

