-- ==== Sys2Proof/Machine/Alu.lean ====
section
/-! DEFINITION. ADD, AND and NOT (R141 to R145). As for every meaning, the state given is the one after FETCH and
DECODE, so `pc` is the instruction's address plus 1 (R23). -/

namespace Sys2Proof.Machine

/-- The phases of an operate instruction whose operands FETCH_OPERANDS latches (R125 to R127). -/
def operatePhases (op : AluOp) (dr : Reg) (latchOperands : State → State) : Phases :=
  { fetchOperands := fun s => .go (latchOperands s)
    execute := fun s => .go (s.executeAlu op)
    store := fun s => .go (s.storeResult dr) }

/-- ADD, register form (R141). -/
def execAddReg (dr sr1 sr2 : Reg) (s : State) : Host.Outcome State Fault Refusal :=
  s.runPhases (operatePhases .add dr fun s => s.latchOperands (s.reg sr1) (s.reg sr2))

/-- ADD, immediate form (R142). -/
def execAddImm (dr sr1 : Reg) (imm5 : BitVec 5) (s : State) : Host.Outcome State Fault Refusal :=
  s.runPhases (operatePhases .add dr fun s => s.latchOperands (s.reg sr1) (sext imm5))

/-- AND, register form (R143). -/
def execAndReg (dr sr1 sr2 : Reg) (s : State) : Host.Outcome State Fault Refusal :=
  s.runPhases (operatePhases .and dr fun s => s.latchOperands (s.reg sr1) (s.reg sr2))

/-- AND, immediate form (R144). -/
def execAndImm (dr sr1 : Reg) (imm5 : BitVec 5) (s : State) : Host.Outcome State Fault Refusal :=
  s.runPhases (operatePhases .and dr fun s => s.latchOperands (s.reg sr1) (sext imm5))

/-- NOT (R145). -/
def execNot (dr sr : Reg) (s : State) : Host.Outcome State Fault Refusal :=
  s.runPhases (operatePhases .not dr fun s => s.latchOperandA (s.reg sr))

end Sys2Proof.Machine
end

