-- ==== Sys2Proof/Machine/Control.lean ====
section
/-! DEFINITION. BR, JMP, JSR and JSRR (R170 to R173), and the invalid opcode (R130). A target is not checked here:
the next FETCH checks it (R129). -/

namespace Sys2Proof.Machine

/-- The link write of JSR and JSRR: `x[7] <- pc` (R172, R173; with CC_ON_ALL_REG_WRITES also `setcc`, R8). -/
def State.link (s : State) : State := (s.setReg linkReg s.pc).setccIfAll s.pc

/-- BR: the branch is taken in EVAL_ADDR (R124, R170). -/
def execBr (nzp : BitVec 3) (pcOffset9 : BitVec 9) (s : State) : Host.Outcome State Fault Refusal :=
  s.runPhases
    { evalAddr := fun s => .go (if branchEnable s.cc nzp then { s with pc := s.pcPlus pcOffset9 } else s) }

/-- JMP; RET is `JMP R7` (R126, R171). -/
def execJmp (baseR : Reg) (s : State) : Host.Outcome State Fault Refusal :=
  s.runPhases { execute := fun s => .go { s with pc := s.reg baseR } }

/-- JSR (R126, R172). -/
def execJsr (pcOffset11 : BitVec 11) (s : State) : Host.Outcome State Fault Refusal :=
  s.runPhases { execute := fun s => .go { s.link with pc := s.pcPlus pcOffset11 } }

/-- JSRR: the link is written first and the target read after it, unless JSRR_READS_BASE_FIRST (R126, R173, R8). -/
def execJsrr (baseR : Reg) (s : State) : Host.Outcome State Fault Refusal :=
  s.runPhases
    { execute := fun s =>
        .go { s.link with pc := bif s.cfg.jsrrReadsBaseFirst then s.reg baseR else s.link.reg baseR } }

/-- A word with opcode 0x8: every phase after DECODE does nothing (R130). -/
def execInvalid (s : State) : Host.Outcome State Fault Refusal := s.runPhases {}

end Sys2Proof.Machine
end

