-- ==== Sys2Proof/Machine/LoadStore.lean ====
section
/-! DEFINITION. LD, LDI, LDR, LEA, ST, STI and STR (R150 to R157), over the shared phases of the family. -/

namespace Sys2Proof.Machine

/-- EVAL_ADDR of LDI and STI: the pointer, read through the data cache (R124). -/
def State.evalIndirect (s : State) (pcOffset9 : BitVec 9) : Flow :=
  let s1 := { s with mar := s.pcPlus pcOffset9 }
  s1.readThen s1.mar fun pointer s2 => .go (s2.latchEa pointer)

/-- FETCH_OPERANDS of a load: `mdr` is the word at `ea`, read through the data cache (R125). -/
def State.fetchLoad (s : State) : Flow :=
  let s1 := { s with mar := s.latch.ea }
  s1.readThen s1.mar fun w s2 => .go { s2 with mdr := w }

/-- STORE of a load: `x[DR]` and the condition code (R127). -/
def State.storeLoad (s : State) (dr : Reg) : State := (s.setReg dr s.mdr).setcc s.mdr

/-- FETCH_OPERANDS of a store: the address and the word, staged (R125). -/
def State.stageStore (s : State) (sr : Reg) : State := { s with mar := s.latch.ea, mdr := s.reg sr }

/-- STORE of a store: the check, then the data-cache write (R127). -/
def State.commitStore (s : State) : Flow :=
  (s.check s.mar).andThen fun s => .go (s.dcWrite s.mar s.mdr)

/-- The phases of a load, by how EVAL_ADDR forms its address (R124, R125, R127). -/
def loadPhases (dr : Reg) (evalAddr : State → Flow) : Phases :=
  { evalAddr := evalAddr, fetchOperands := State.fetchLoad, store := fun s => .go (s.storeLoad dr) }

/-- The phases of a store, by how EVAL_ADDR forms its address (R124, R125, R127). -/
def storePhases (sr : Reg) (evalAddr : State → Flow) : Phases :=
  { evalAddr := evalAddr, fetchOperands := fun s => .go (s.stageStore sr), store := State.commitStore }

/-- LD (R150). -/
def execLd (dr : Reg) (pcOffset9 : BitVec 9) (s : State) : Host.Outcome State Fault Refusal :=
  s.runPhases (loadPhases dr fun s => .go (s.latchEa (s.pcPlus pcOffset9)))

/-- LDI (R151). -/
def execLdi (dr : Reg) (pcOffset9 : BitVec 9) (s : State) : Host.Outcome State Fault Refusal :=
  s.runPhases (loadPhases dr fun s => s.evalIndirect pcOffset9)

/-- LDR (R152). -/
def execLdr (dr baseR : Reg) (offset6 : BitVec 6) (s : State) : Host.Outcome State Fault Refusal :=
  s.runPhases (loadPhases dr fun s => .go (s.latchEa (s.basePlus baseR offset6)))

/-- LEA: the address is formed in STORE, with no memory access, so no check (R127, R153). -/
def execLea (dr : Reg) (pcOffset9 : BitVec 9) (s : State) : Host.Outcome State Fault Refusal :=
  s.runPhases { store := fun s => .go ((s.setReg dr (s.pcPlus pcOffset9)).setcc (s.pcPlus pcOffset9)) }

/-- ST (R154). -/
def execSt (sr : Reg) (pcOffset9 : BitVec 9) (s : State) : Host.Outcome State Fault Refusal :=
  s.runPhases (storePhases sr fun s => .go (s.latchEa (s.pcPlus pcOffset9)))

/-- STI (R155). -/
def execSti (sr : Reg) (pcOffset9 : BitVec 9) (s : State) : Host.Outcome State Fault Refusal :=
  s.runPhases (storePhases sr fun s => s.evalIndirect pcOffset9)

/-- STR (R156). -/
def execStr (sr baseR : Reg) (offset6 : BitVec 6) (s : State) : Host.Outcome State Fault Refusal :=
  s.runPhases (storePhases sr fun s => .go (s.latchEa (s.basePlus baseR offset6)))

end Sys2Proof.Machine
end

