-- ==== Sys2Proof/Machine/Stack.lean ====
section
/-! DEFINITION. PUSH and POP (R195, R196): R6 as the stack pointer, and main memory raw, past both caches. Both act in
EXECUTE (R126). -/

namespace Sys2Proof.Machine

/-- EXECUTE of PUSH, in the source's order: decrement, check, write (R195). -/
def State.pushWord (s : State) (sr : Reg) : Flow :=
  let s1 := s.setReg spReg (s.reg spReg - 1)
  (s1.check (s1.reg spReg)).andThen fun s =>
    .go ((s.memWrite (s.reg spReg) (s.reg sr)).setccIfAll (s.reg spReg))

/-- EXECUTE of POP, in the source's order: check, read, increment (R196). -/
def State.popWord (s : State) (dr : Reg) : Flow :=
  (s.check (s.reg spReg)).andThen fun s =>
    let s1 := s.setReg dr (s.memRead (s.reg spReg))
    .go ((s1.setReg spReg (s1.reg spReg + 1)).setccIfAll (s1.reg spReg + 1))

/-- PUSH (R195). With SR = R6 the decremented R6 is pushed. -/
def execPush (sr : Reg) (s : State) : Host.Outcome State Fault Refusal :=
  s.runPhases { execute := fun s => s.pushWord sr }

/-- POP (R196). With DR = R6 the popped word is incremented. -/
def execPop (dr : Reg) (s : State) : Host.Outcome State Fault Refusal :=
  s.runPhases { execute := fun s => s.popWord dr }

end Sys2Proof.Machine
end

