-- ==== Sys2Proof/Machine/Trap.lean ====
section
/-! DEFINITION. TRAP and the native dispatcher: GETC, OUT, PUTS, HALT and the vectors without a service (R180 to
R186). The dispatcher is called in EXECUTE, saves nothing, enters no handler and leaves `pc` at the incremented value
(R212). -/

namespace Sys2Proof.Machine

/-- The phases of a TRAP: the vector in EVAL_ADDR, its service in EXECUTE (R124, R126, R180). -/
def trapPhases (trapvect8 : BitVec 8) (service : State → Flow) : Phases :=
  { evalAddr := fun s => .go (s.evalVector trapvect8), execute := service }

/-- The service of GETC: one byte of the host's input into `x[0]`. With no byte available it waits in EXECUTE (R182; log
entry 8). -/
def State.getcService (s : State) : Flow :=
  match s.console.input with
  | [] => .hold s
  | b :: _ => .go ((s.dropInput.setReg 0 (zext b)).setccIfAll (zext b))

/-- The loop of PUTS from address `a`, at most `n` characters (R184). -/
def putsLoop : Nat → Word → State → Flow
  | 0, _, s => .hold s
  | n + 1, a, s =>
    s.readThen a fun w s1 =>
      if w = 0x0000#16 then .go s1 else putsLoop n (a + 1) (s1.consoleOut (w.setWidth 8))

/-- The service of PUTS: the words from address `x[0]` on, each through the data cache, until a zero word (R184). After
131072 characters it has gone twice round all 65536 addresses and is back at address `x[0]`. The first round leaves no
stale line that a later one could replace, so what the second has sent the rest repeats for ever: the cycle never ends,
and the service is held in EXECUTE and sends on in the next step (log entry 10). -/
def State.putsService (s : State) : Flow := putsLoop 131072 (s.reg 0) s

/-- The phases of GETC (R182). -/
def getcPhases : Phases := trapPhases 0x20#8 State.getcService

/-- The phases of PUTS (R184). -/
def putsPhases : Phases := trapPhases 0x22#8 State.putsService

/-- GETC (R182). -/
def execGetc (s : State) : Host.Outcome State Fault Refusal := s.runPhases getcPhases

/-- OUT: the low byte of `x[0]` (R183). -/
def execOut (s : State) : Host.Outcome State Fault Refusal :=
  s.runPhases (trapPhases 0x21#8 fun s => .go (s.consoleOut ((s.reg 0).setWidth 8)))

/-- PUTS (R184). -/
def execPuts (s : State) : Host.Outcome State Fault Refusal := s.runPhases putsPhases

/-- HALT: the program ends in EXECUTE, without STORE (R181). -/
def execHalt (s : State) : Host.Outcome State Fault Refusal :=
  s.runPhases (trapPhases 0x25#8 fun s => .hold { s with halted := true })

/-- TRAP with a vector that selects no service: no effect beyond the common part (R180, R185). -/
def execTrap (trapvect8 : BitVec 8) (s : State) : Host.Outcome State Fault Refusal :=
  s.runPhases (trapPhases trapvect8 .go)

end Sys2Proof.Machine
end

