-- ==== Sys2Proof/Machine/Step.lean ====
section
/-! DEFINITION. One invocation of the engine (R120 to R128, R216). -/

namespace Sys2Proof.Machine

/-- A new cycle: FETCH, DECODE and the instruction's own phases; a fault restores the state before FETCH (R120). -/
def State.newCycle (s : State) : Host.Outcome State Fault Refusal :=
  match s.fetch with
  | .go s1 => settle s (exec (decode s1.ir) s1.latchDecode)
  | .hold s1 => .next s1
  | .outOfRange a s1 => .next (takeFault s s1 a)

/-- A cycle that GETC or PUTS holds in EXECUTE goes on there (R182, R184, R226; log entries 8 and 10). -/
def State.resumeCycle (s : State) : Host.Outcome State Fault Refusal :=
  match decode s.ir with
  | .getc => settle s (s.resumePhases getcPhases)
  | .puts => settle s (s.resumePhases putsPhases)
  | _ => .fault .strayPhase

/-- One step. The status tests of R121 come first and change nothing; their outcomes are read from the state (log
entry 6). A cycle begins at FETCH, or goes on where a trap service holds it. -/
def step (s : State) : Host.Outcome State Fault Refusal :=
  if s.loaded = false then .next s
  else if s.fault ≠ none then .next s
  else if s.halted then .next s
  else
    match s.latch.phase with
    | .fetch => s.newCycle
    | .execute => s.resumeCycle
    | .decode | .evalAddr | .fetchOperands | .store | .done => .fault .strayPhase

/-- `s` with the instruction of the low `nbits` bits of `w` stored where the next step fetches (log entry 3): a program
is loaded and neither halted nor faulted, no cycle is in progress, `pc` is in memory (at its first word where it was
not), and both main memory and an instruction-cache line that holds `pc` hold the word. -/
def State.withFetchWord (s : State) (nbits w : Nat) : State := s.placeAtFetch (tableWord nbits w)

end Sys2Proof.Machine
end

