-- ==== Sys2Proof/Machine/HostInterface.lean ====
section
/-! DEFINITION. The contract with the surrounding shell (R200, R204 to R207, R216 to R222, R228, R230 to R233). The
host acts only between cycles (R228, R242; log entry 13). -/

namespace Sys2Proof.Machine

/-! ## Results (R200) -/

/-- What `load` returns. -/
inductive LoadResult where
  | ok | imageTooLarge
  deriving DecidableEq, Repr

/-- What `peek` returns. -/
inductive PeekResult where
  | word (w : Word) | outOfRange (a : Word) | noProgramLoaded
  deriving DecidableEq, Repr

/-- What `poke` returns. -/
inductive PokeResult where
  | ok | outOfRange (a : Word) | noProgramLoaded
  deriving DecidableEq, Repr

/-- What `set_breakpoint` returns; `alreadySet` is also called DuplicateBreakpoint (R206). -/
inductive SetResult where
  | ok | alreadySet | breakpointTableFull
  deriving DecidableEq, Repr

/-- What `clear_breakpoint` returns; `notFound` is also called BreakpointNotFound (R207). -/
inductive ClearResult where
  | ok | notFound
  deriving DecidableEq, Repr

/-- What `step` returns. -/
inductive StepOutcome where
  | continued | halted | fault (f : FaultRecord) | noProgramLoaded
  deriving DecidableEq, Repr

/-- What `run_until` returns. -/
inductive RunOutcome where
  | halted | breakpointHit (a : Word) | endOfMemory | fault (f : FaultRecord) | noProgramLoaded
  deriving DecidableEq, Repr

/-! ## Between cycles -/

/-- The outcome that a step which left this state returns (R121, R128, R200): the status fields are tested in the order
of R121. A cycle that a trap service holds in EXECUTE has not returned yet (R182). -/
def State.report (s : State) : Option StepOutcome :=
  if s.loaded = false then some .noProgramLoaded
  else
    match s.fault with
    | some f => some (.fault f)
    | none =>
      if s.halted then some .halted else if s.latch.phase = .fetch then some .continued else none

/-- A call of the host, which it can make only between cycles, with its result `r`: none while a cycle has not returned,
since nothing the host does can interrupt a cycle (R228, R242; log entry 13). -/
def State.hostCall {α : Type} (s : State) (r : α) : Option α :=
  match s.report with
  | some _ => some r
  | none => none

/-! ## Power-on and load -/

/-- The core before the first load: nothing is loaded and there is no breakpoint. Every other field is unspecified and
no operation reads it (R41); the model names the values of a load at address 0 (DESIGN CHOICE, log entry 4). -/
def State.powerOn (cfg : Config) : State :=
  { State.reset with cfg := cfg, loaded := false, pc := 0, loadBase := 0 }

/-- The state that a load of an image that fits leaves, in the order of R231: the configuration, the breakpoints and
the console are kept. -/
def State.loadImage (s : State) (words : List Word) (startAddress : Word) : State :=
  { s with
    loadBase := startAddress, mem := imageFrom 0 words, regs := Vector.replicate 8 0, pc := startAddress, cc := .z,
    ir := 0, mar := 0, mdr := 0, latch := .reset, ic := [], dc := [], loaded := true, halted := false, fault := none,
    trace := [] }

/-- `load(words, start_address)` (R231, R232). -/
def State.load (s : State) (words : List Word) (startAddress : Word) : Option (State × LoadResult) :=
  s.hostCall (if words.length > s.cfg.memWords then (s, .imageTooLarge) else (s.loadImage words startAddress, .ok))

/-! ## Memory inspection -/

/-- `peek(a)` (R218). -/
def State.peek (s : State) (a : Word) : Option PeekResult :=
  s.hostCall
    (if s.loaded = false then .noProgramLoaded else if s.InRange a then .word (s.memRead a) else .outOfRange a)

/-- `poke(a, w)` (R219). -/
def State.poke (s : State) (a w : Word) : Option (State × PokeResult) :=
  s.hostCall
    (if s.loaded = false then (s, .noProgramLoaded)
     else if s.InRange a then (s.memWrite a w, .ok)
     else (s, .outOfRange a))

/-- The save format: `peek` of every address from `first` to `last` inclusive (R218). Where `last` is below `first`, of
which R218 does not speak, the addresses go up through 0xFFFF and on from 0x0000 (DESIGN CHOICE, log entry 23). -/
def State.save (s : State) (first last : Word) : List (Option PeekResult) :=
  (List.range ((last - first).toNat + 1)).map fun k => s.peek (first + BitVec.ofNat 16 k)

/-! ## Breakpoints -/

/-- The set with one more address, in rising order. -/
def insertBreakpoint (a : Word) : List Word → List Word
  | [] => [a]
  | b :: bs => if a < b then a :: b :: bs else b :: insertBreakpoint a bs

/-- `set_breakpoint(a)` (R205, R206, R220). -/
def State.setBreakpoint (s : State) (a : Word) : Option (State × SetResult) :=
  s.hostCall
    (if a ∈ s.bp then (s, .alreadySet)
     else if s.bp.length = 4 then (s, .breakpointTableFull)
     else ({ s with bp := insertBreakpoint a s.bp }, .ok))

/-- `clear_breakpoint(a)` (R207, R221). -/
def State.clearBreakpoint (s : State) (a : Word) : Option (State × ClearResult) :=
  s.hostCall (if a ∈ s.bp then ({ s with bp := s.bp.filter (· ≠ a) }, .ok) else (s, .notFound))

/-! ## The console -/

/-- The host supplies input bytes. It is no call that waits for a cycle to end: the host does so while GETC waits (R222,
R226, R228). -/
def State.supplyInput (s : State) (bytes : List Byte) : State :=
  { s with console := { s.console with input := s.console.input ++ bytes } }

/-! ## Running -/

/-- `step()` with its outcome (R216); none while the cycle has not returned. -/
def State.hostStep (s : State) : Option (State × StepOutcome) :=
  match step s with
  | .next t => t.report.map fun o => (t, o)
  | .fault _ => none
  | .refused _ => none

/-- One turn of the loop of `run_until` after its tests: a step, then the breakpoint test, which is made only after a
completed cycle (R217). -/
def State.runTurn (s : State) (rest : State → Option (State × RunOutcome)) : Option (State × RunOutcome) :=
  match step s with
  | .next t =>
    match t.report with
    | some .continued => if t.pc ∈ t.bp then some (t, .breakpointHit t.pc) else rest t
    | some .halted => some (t, .halted)
    | some (.fault f) => some (t, .fault f)
    | some .noProgramLoaded => some (t, .noProgramLoaded)
    | none => rest t
  | .fault _ => none
  | .refused _ => none

/-- `run_until()` (R217), within `n` steps; none if it has not returned by then. The loop itself has no bound (log
entry 12). -/
def runUntil : Nat → State → Option (State × RunOutcome)
  | 0, _ => none
  | n + 1, s =>
    match s.report with
    | some .noProgramLoaded => some (s, .noProgramLoaded)
    | some (.fault f) => some (s, .fault f)
    | some .halted => some (s, .halted)
    | some .continued => if s.InRange s.pc then s.runTurn (runUntil n) else some (s, .endOfMemory)
    | none => s.runTurn (runUntil n)

end Sys2Proof.Machine
end

