-- ==== Sys2Proof/Safety.lean ====
section
/-! DEFINITION. The terms that claims use: the invariant of every reachable state, what a cache access does, what an
instruction may write, and what it means that an instruction completes. -/

namespace Sys2Proof.Machine

/-! ## The invariant -/

/-- A trap service holds the cycle in EXECUTE: GETC waiting for a byte (R182), or a PUTS that never ends, in a
memory of 65536 words (R184; log entry 10). -/
def State.HeldByService (s : State) : Prop :=
  decode s.ir = .getc ∨ (decode s.ir = .puts ∧ s.cfg.memWords = 65536)

/-- What holds of every state a run reaches. -/
structure State.Inv (s : State) : Prop where
  /-- Main memory has its canonical form and lies below MEM_WORDS (R37). -/
  mem_wf : s.mem.wf s.cfg.memWords
  /-- The caches have their canonical form and L lines (R35). -/
  lines_wf : ∀ c, (s.lines c).wf s.cfg.lines
  /-- A line other than the reset line is valid and tags an address in memory (R35, R52, R59, R60). -/
  lines_installed : ∀ c, ∀ e ∈ s.lines c, e.2.valid = true ∧ e.2.tag * s.cfg.lines + e.1 < s.cfg.memWords
  /-- No instruction-cache line is dirty (R36, R58). -/
  ic_clean : ∀ e ∈ s.ic, e.2.dirty = false
  /-- The breakpoints are a set of at most 4 addresses (R38). -/
  bp_set : s.bp.Pairwise (· < ·) ∧ s.bp.length ≤ 4
  /-- The phase is FETCH, or EXECUTE because HALT ended the program there or a service holds it (R120). -/
  phase_ok : s.latch.phase = .fetch ∨ (s.latch.phase = .execute ∧ (s.halted = true ∨ s.HeldByService))

/-- The next step begins a cycle: the status tests of R121 pass, no cycle is in progress, and `pc` is in memory. -/
structure State.Ready (s : State) : Prop where
  loaded : s.loaded = true
  noFault : s.fault = none
  notHalted : s.halted = false
  atFetch : s.latch.phase = .fetch
  pcInRange : s.InRange s.pc

/-- No cycle is in progress: nothing is loaded, a fault or a HALT has ended the last cycle, or the next one begins. -/
def State.BetweenCycles (s : State) : Prop :=
  s.loaded = false ∨ s.fault ≠ none ∨ s.halted = true ∨ s.latch.phase = .fetch

/-! ## What DECODE writes -/

/-- The offset that DECODE extends, transcribed from R123 with the opcodes of R95. -/
def offsetAsWritten (w : Word) : Word :=
  let op := w.extractLsb' 12 4
  if op = 0x2#4 ∨ op = 0x3#4 ∨ op = 0xA#4 ∨ op = 0xB#4 ∨ op = 0xE#4 ∨ op = 0x0#4 then
    (w.extractLsb' 0 9).signExtend 16
  else if op = 0x6#4 ∨ op = 0x7#4 then (w.extractLsb' 0 6).signExtend 16
  else if op = 0x4#4 ∧ w.getLsbD 11 = true then (w.extractLsb' 0 11).signExtend 16
  else 0x0000#16

/-- The latches `m` that DECODE of the word `w` leaves, from the latches `l` and the condition code (R123): the phase is
DECODE and the latches of the later phases are kept (R32). -/
structure DecodedLatches (w : Word) (cc : CC) (l m : Latches) : Prop where
  phase : m.phase = .decode
  op : m.op = w.extractLsb' 12 4
  dr : m.dr.val = (w.extractLsb' 9 3).toNat
  sr1 : m.sr1.val = (w.extractLsb' 6 3).toNat
  sr2 : m.sr2.val = (w.extractLsb' 0 3).toNat
  ben : m.ben = true ↔ cc.bits &&& w.extractLsb' 9 3 ≠ 0
  off : m.off = offsetAsWritten w
  later : m.ea = l.ea ∧ m.opA = l.opA ∧ m.opB = l.opB ∧ m.result = l.result

/-! ## What a cache access does -/

/-- The access at `a` evicts a clean line that holds `b` (R69, item 2). -/
def State.EvictsClean (s : State) (c : CacheId) (a b : Word) : Prop :=
  s.accessKind c a = .conflictMiss ∧ (s.lineAt c a).dirty = false ∧ s.lineOffset c a = s.off b

/-- Main memory after an access at `a`: the word of the dirty line that the access evicts stands at that line's own
offset, and every other offset is unchanged (R56, R57, R59). -/
def MemoryAfterAccess (c : CacheId) (a : Word) (s t : State) : Prop :=
  ∀ o, t.mem.read o = if s.victim c a = some o then (s.lineAt c a).word else s.mem.read o

/-- The effect of `CacheRead(c, a)` on the caches, main memory and the trace (R56, R61). -/
structure ReadEffect (c : CacheId) (a : Word) (s t : State) : Prop where
  memory : MemoryAfterAccess c a s t
  line : (t.lines c).line (s.index a) =
    if s.accessKind c a = .hit then s.lineAt c a
    else { valid := true, dirty := decide (s.accessKind c a = .coldMiss) && (s.lineAt c a).dirty, tag := s.tag a,
           word := s.memRead a }
  otherLines : ∀ i, i ≠ s.index a → (t.lines c).line i = (s.lines c).line i
  otherCache : ∀ d, d ≠ c → t.lines d = s.lines d
  trace : t.trace = s.trace ++ [s.accessEvent c .read a]

/-- The effect of `DCacheWrite(a, v)` on the caches, main memory and the trace (R57, R61). -/
structure WriteEffect (a v : Word) (s t : State) : Prop where
  memory : MemoryAfterAccess .dc a s t
  line : (t.lines .dc).line (s.index a) = { valid := true, dirty := true, tag := s.tag a, word := v }
  otherLines : ∀ i, i ≠ s.index a → (t.lines .dc).line i = (s.lines .dc).line i
  otherCache : t.ic = s.ic
  trace : t.trace = s.trace ++ [s.accessEvent .dc .write a]

/-- Every word of memory reads as before on each of the three paths of R69. -/
def SameReads (s t : State) : Prop :=
  ∀ a, t.memRead a = s.memRead a ∧ t.viewD a = s.viewD a ∧ t.viewI a = s.viewI a

/-! ## What PUTS sends -/

/-- PUTS reads the addresses from `a` up to `b`, none of whose words is zero, sends the bytes, and is then in state `t`
(the console apart) about to read `b` (R184). -/
inductive PutsSends : Word → State → List Byte → Word → State → Prop where
  | none (a : Word) (s : State) : PutsSends a s [] a s
  | char {a b : Word} {s t : State} {bytes : List Byte} : s.InRange a → s.viewD a ≠ 0x0000#16 →
      PutsSends (a + 1) (s.afterRead .dc a) bytes b t →
      PutsSends a s ((s.viewD a).setWidth 8 :: bytes) b t

/-- No clean data-cache line differs from main memory: no raw write has gone behind a resident line (R69). -/
def State.DataCacheCurrent (s : State) : Prop :=
  ∀ a, s.accessKind .dc a = .hit → (s.lineAt .dc a).dirty = false → (s.lineAt .dc a).word = s.memRead a

/-! ## Instructions -/

/-- The instruction completes: it answers a next state at DONE with no fault taken, and the state is as `P` says. -/
def Completes (i : Instr) (s : State) (P : State → Prop) : Prop :=
  ∃ t, exec i s = .next t ∧ t.latch.phase = .done ∧ t.fault = s.fault ∧ P t

/-- The instruction takes the fault OutOfRange(a) and nothing but the record of it differs (R208). -/
def FaultsAt (i : Instr) (s : State) (a : Word) : Prop :=
  exec i s = .next { s with fault := some (.outOfRange a) }

/-! ## Shapes of instructions -/

/-- The instruction writes `v` to `x[dr]`, sets the condition code from it, and changes nothing else but latches. -/
def Operates (i : Instr) (dr : Reg) (v : Word) (s : State) : Prop :=
  Completes i s fun t =>
    t.reg dr = v ∧ t.cc = ccOf v ∧ (∀ q, q ≠ dr → t.reg q = s.reg q) ∧ SameReads s t ∧
    t = { s with regs := t.regs, cc := t.cc, latch := t.latch }

/-- A load of `x[dr]` whose data is at `a`, in the state `u` that forming the address has left: the word is the
data-cache view of `a`, every other register is kept, and the memory that loads read keeps every word but those of a
clean line that the access evicts (R69). -/
def LoadsAt (i : Instr) (dr : Reg) (a : Word) (s u : State) : Prop :=
  Completes i s fun t =>
    t.reg dr = u.viewD a ∧ t.cc = ccOf (u.viewD a) ∧ t.mar = a ∧ t.mdr = u.viewD a ∧
    (∀ q, q ≠ dr → t.reg q = s.reg q) ∧ ReadEffect .dc a u t ∧
    (∀ b, ¬ u.EvictsClean .dc a b → t.viewD b = u.viewD b) ∧
    t = { s with regs := t.regs, cc := t.cc, mar := t.mar, mdr := t.mdr, latch := t.latch, dc := t.dc, mem := t.mem,
                 trace := t.trace }

/-- A store of `v` at `a`, in the state `u` that forming the address has left: the data-cache view of `a` becomes `v`,
that of every other address is kept but for a clean line that the access evicts, main memory at `a` and the fetch view
of `a` are kept, and no register and no flag changes. -/
def StoresAt (i : Instr) (a v : Word) (s u : State) : Prop :=
  Completes i s fun t =>
    t.viewD a = v ∧ t.memRead a = u.memRead a ∧ t.viewI a = u.viewI a ∧ t.mar = a ∧ t.mdr = v ∧
    (∀ b, b ≠ a → ¬ u.EvictsClean .dc a b → t.viewD b = u.viewD b) ∧ WriteEffect a v u t ∧
    t = { s with mar := t.mar, mdr := t.mdr, latch := t.latch, dc := t.dc, mem := t.mem, trace := t.trace }

/-- The state `u` after the data-cache read of a pointer at `p` in `s`: nothing but the data cache, main memory and the
trace differs. -/
def PointerRead (p : Word) (s u : State) : Prop :=
  ReadEffect .dc p s u ∧ u = { s with dc := u.dc, mem := u.mem, trace := u.trace }

/-! ## The controller as R56 and R57 write it -/

/-- `CacheRead(C, a)`, transcribed from R56. -/
def cacheReadAsWritten (c : CacheId) (a : Word) (s : State) : State × Word :=
  let o := s.off a
  let i := o % s.cfg.lines
  let t := o / s.cfg.lines
  let l := (s.lines c).line i
  let fill (s1 : State) (l1 : Line) : State :=
    s1.setLines c ((s1.lines c).setLine i { l1 with valid := true, tag := t, word := s1.mem.read o })
  let s' :=
    if l.valid = false then fill (s.emit ⟨c, .read, a, .coldMiss, none⟩) l
    else if l.tag = t then s.emit ⟨c, .read, a, .hit, none⟩
    else if l.dirty then
      let vOff := l.tag * s.cfg.lines + i
      let s1 := { s with mem := s.mem.write vOff l.word }
      let s2 := s1.setLines c ((s1.lines c).setLine i { l with dirty := false })
      fill (s2.emit ⟨c, .read, a, .conflictMiss, some (s.loadBase + BitVec.ofNat 16 vOff)⟩) { l with dirty := false }
    else fill (s.emit ⟨c, .read, a, .conflictMiss, none⟩) l
  (s', ((s'.lines c).line i).word)

/-- `DCacheWrite(a, v)`, transcribed from R57. -/
def dcWriteAsWritten (a v : Word) (s : State) : State :=
  let o := s.off a
  let i := o % s.cfg.lines
  let t := o / s.cfg.lines
  let l := s.dc.line i
  let put (s1 : State) : State := { s1 with dc := s1.dc.setLine i { word := v, tag := t, valid := true, dirty := true } }
  if l.valid = false then put (s.emit ⟨.dc, .write, a, .coldMiss, none⟩)
  else if l.tag = t then put (s.emit ⟨.dc, .write, a, .hit, none⟩)
  else if l.dirty then
    let vOff := l.tag * s.cfg.lines + i
    let s1 := { s with mem := s.mem.write vOff l.word }
    put (s1.emit ⟨.dc, .write, a, .conflictMiss, some (s.loadBase + BitVec.ofNat 16 vOff)⟩)
  else put (s.emit ⟨.dc, .write, a, .conflictMiss, none⟩)

/-! ## States compared -/

/-- The state without the registers and latches that carry nothing across cycles (R30, R31, R32); the phase stays. -/
def State.forgetTransient (s : State) : State :=
  { s with ir := 0, mar := 0, mdr := 0, latch := { Latches.reset with phase := s.latch.phase } }

/-- The two states differ in the registers and latches that carry nothing across cycles alone, and where a service holds
the cycle they hold the same word in `ir`. -/
def AlikeButTransient (s t : State) : Prop :=
  s.forgetTransient = t.forgetTransient ∧ (s.latch.phase = .execute → s.ir = t.ir)

/-- The state with another ACCESS_DELAY (R8). -/
def State.withDelay (s : State) (d : Nat) : State := { s with cfg := { s.cfg with accessDelay := d } }

end Sys2Proof.Machine

namespace Sys2Proof

open Machine

/-! ## What an instruction may write and check -/

/-- The registers that R22 lists for an instruction. -/
def Instr.registersWritten (i : Instr) : List Reg :=
  match i with
  | .addReg dr _ _ | .addImm dr _ _ | .andReg dr _ _ | .andImm dr _ _ | .notOp dr _ => [dr]
  | .ld dr _ | .ldi dr _ | .ldr dr _ _ | .lea dr _ => [dr]
  | .jsr _ | .jsrr _ => [7]
  | .getc => [0]
  | .push _ => [6]
  | .pop dr => [dr, 6]
  | .br .. | .jmp _ | .st .. | .sti .. | .str .. | .out | .puts | .halt | .trap _ | .invalid => []

/-- The instruction is one that writes `pc` in its own phases (R24). -/
def Instr.transfersControl (i : Instr) : Bool :=
  match i with
  | .br .. | .jmp _ | .jsr _ | .jsrr _ => true
  | .addReg .. | .addImm .. | .andReg .. | .andImm .. | .notOp .. => false
  | .ld .. | .ldi .. | .ldr .. | .lea .. | .st .. | .sti .. | .str .. => false
  | .getc | .out | .puts | .halt | .trap _ | .push _ | .pop _ | .invalid => false

/-- The destination register of the seven instructions that call `setcc` on the value they write (R28). -/
def Instr.setsCC (i : Instr) : Option Reg :=
  match i with
  | .addReg dr _ _ | .addImm dr _ _ | .andReg dr _ _ | .andImm dr _ _ | .notOp dr _ => some dr
  | .ld dr _ | .ldi dr _ | .ldr dr _ _ | .lea dr _ => some dr
  | .br .. | .jmp _ | .jsr _ | .jsrr _ | .st .. | .sti .. | .str .. => none
  | .getc | .out | .puts | .halt | .trap _ | .push _ | .pop _ | .invalid => none

/-- The addresses an instruction checks after FETCH, in cycle order where there is more than one (R129). -/
def Instr.ChecksAddress (i : Instr) (s : State) (a : Word) : Prop :=
  match i with
  | .ldi _ off | .sti _ off => a = s.pcPlus off ∨ (s.InRange (s.pcPlus off) ∧ a = s.viewD (s.pcPlus off))
  | .ld _ off | .st _ off => a = s.pcPlus off
  | .ldr _ baseR off | .str _ baseR off => a = s.basePlus baseR off
  | .puts => ∃ k : Nat, k < 65536 ∧ a = s.reg 0 + BitVec.ofNat 16 k
  | .push _ => a = s.reg 6 - 1
  | .pop _ => a = s.reg 6
  | .addReg .. | .addImm .. | .andReg .. | .andImm .. | .notOp .. | .br .. | .jmp _ | .jsr _ | .jsrr _ => False
  | .lea .. | .getc | .out | .halt | .trap _ | .invalid => False

end Sys2Proof
end

