-- ==== Sys2Proof/Certificates/Slice0/Obligations.lean ====
section
/-! DEFINITION. The statements for the provers. Each docstring names the rules of spec/ that it formalises; a
statement that rests on a choice of the model names the log entry. -/

open Sys2Proof Sys2Proof.Machine

/-! ## Encoding -/

/-- Words written out in the spec's examples decode to the instructions they stand for (R92, R95). -/
def Obligations.SampleWordsDecode : Prop :=
  decode 0x1283#16 = .addReg 1 2 3 ∧ decode 0x127F#16 = .addImm 1 1 0x1F#5 ∧ decode 0x9B3F#16 = .notOp 5 4 ∧
  decode 0x05FD#16 = .br 0b010#3 0x1FD#9 ∧ decode 0x40C0#16 = .jsrr 3 ∧ decode 0xA602#16 = .ldi 3 2#9 ∧
  decode 0x7380#16 = .str 1 6 0#6 ∧ decode 0xF022#16 = .puts ∧ decode 0xD420#16 = .pop 2 ∧ decode 0x8FFF#16 = .invalid

/-- Decoding the canonical encoding of an instruction gives it back, with every operand at every value (R91, R92). -/
def Obligations.DecodeOfEncodeIsIdentity : Prop :=
  ∀ i : Instr, i.WellFormed → decode (encode i) = i

/-- Each of the 65536 words decodes to exactly one row of the opcode table, and to a well-formed instruction of that
row: no word is refused (R96). -/
def Obligations.EveryWordIsExactlyOneRow : Prop :=
  ∀ w : Word, (opcodeTable.filter fun r => r.matchesWord w) = [(decode w).row] ∧ (decode w).WellFormed

/-- The bits that R98 lists are ignored: words that differ in them alone decode alike. -/
def Obligations.IgnoredBitsDoNotMatter : Prop :=
  ∀ w x : Word, decode (w ^^^ (x &&& (decode w).ignoredBits)) = decode w

/-- Encoding a decoded word restores every bit that is not ignored (R92, R98). -/
def Obligations.EncodeOfDecodeKeepsUsedBits : Prop :=
  ∀ w : Word, encode (decode w) &&& ~~~(decode w).ignoredBits = w &&& ~~~(decode w).ignoredBits

/-! ## Values -/

/-- Sign extension keeps the signed value of a field of the widths 5, 6, 9 and 11, and zero extension the unsigned value
of a vector (R11, R93). -/
def Obligations.ExtensionKeepsTheValue : Prop :=
  (∀ v : BitVec 5, (sext v).toInt = v.toInt) ∧ (∀ v : BitVec 6, (sext v).toInt = v.toInt) ∧
  (∀ v : BitVec 9, (sext v).toInt = v.toInt) ∧ (∀ v : BitVec 11, (sext v).toInt = v.toInt) ∧
  (∀ v : BitVec 8, (zext v).toNat = v.toNat)

/-- `setcc`: N for a negative value, Z for zero, P otherwise, in the one-hot encoding {N, Z, P} with N in bit 2; no
other field changes (R26, R27). -/
def Obligations.SetccFollowsTheSign : Prop :=
  ∀ (s : State) (v : Word),
    (v.toInt < 0 → (s.setcc v).cc.bits = 0b100#3) ∧ (v.toInt = 0 → (s.setcc v).cc.bits = 0b010#3) ∧
    (0 < v.toInt → (s.setcc v).cc.bits = 0b001#3) ∧ s.setcc v = { s with cc := (s.setcc v).cc }

/-! ## Reset and load -/

/-- A load of an image that fits resets the core: registers, `pc`, the condition code, the internal registers, both
caches and the status fields (R42 to R46, R48), keeps the breakpoints (R49) and clears the trace (R231). That it keeps
the two byte sequences of the console is the model's choice (log entry 9). -/
def Obligations.LoadResetsTheCore : Prop :=
  ∀ (s : State) (words : List Word) (start : Word), s.BetweenCycles → words.length ≤ s.cfg.memWords →
    ∃ t, s.load words start = some (t, .ok) ∧ (∀ r, t.reg r = 0x0000#16) ∧ t.pc = start ∧ t.loadBase = start ∧
      t.cc.bits = 0b010#3 ∧ t.ir = 0 ∧ t.mar = 0 ∧ t.mdr = 0 ∧ t.latch = Latches.reset ∧
      (∀ c i, (t.lines c).line i = { valid := false, dirty := false, tag := 0, word := 0 }) ∧
      t.loaded = true ∧ t.halted = false ∧ t.fault = none ∧ t.bp = s.bp ∧ t.trace = [] ∧ t.cfg = s.cfg ∧
      t.console = s.console

/-- After a load the image stands at offsets 0, 1, …, which are the addresses from the start address on, and every
other word is 0x0000 (R47, R233). -/
def Obligations.LoadPlacesTheImage : Prop :=
  ∀ (s : State) (words : List Word) (start : Word), s.BetweenCycles → words.length ≤ s.cfg.memWords →
    ∃ t, s.load words start = some (t, .ok) ∧
      (∀ k, (h : k < words.length) → t.mem.read k = words[k] ∧ t.memRead (start + BitVec.ofNat 16 k) = words[k]) ∧
      (∀ k, words.length ≤ k → t.mem.read k = 0x0000#16)

/-- A load whose image has more words than memory returns ImageTooLarge and changes nothing (R203, R232). -/
def Obligations.TooLargeLoadChangesNothing : Prop :=
  ∀ (s : State) (words : List Word) (start : Word), s.BetweenCycles → s.cfg.memWords < words.length →
    s.load words start = some (s, .imageTooLarge)

/-- The model's reset state is the load of an image of no words at 0x3000, and it meets the invariant (log entries 2
and 3: the parameters, the empty image and the start address are the model's choice). -/
def Obligations.ResetIsAnEmptyLoadAndMeetsInvariant : Prop :=
  (State.powerOn resetConfig).load [] 0x3000#16 = some (State.reset, .ok) ∧ State.reset.Inv

/-! ## Invariants of every step -/

/-- Every step keeps the invariant: canonical memory and caches, installed lines inside memory, a clean instruction
cache, at most 4 breakpoints, a legal phase (R35 to R38, R58 to R60). -/
def Obligations.StepKeepsTheInvariant : Prop :=
  ∀ s t : State, s.Inv → step s = .next t → t.Inv

/-- The core never stops with an untyped failure: from every state of the invariant a step answers a next state (R200;
the mapping of outcomes to next states is the model's, log entry 6). -/
def Obligations.StepAlwaysAnswersANextState : Prop :=
  ∀ s : State, s.Inv → ∃ t, step s = .next t

/-- The host operations keep the invariant; a load establishes it anew from any state whose breakpoints are a set of at
most 4 addresses, whatever else that state holds (R41, R219, R220, R221, R222, R231). While a cycle is in progress the host can make none of its calls, so nothing it does interrupts the cycle;
between cycles it can make each (R228, R242; that a call made in a cycle answers none is the model's, log entry 13). -/
def Obligations.HostOperationsKeepTheInvariant : Prop :=
  (∀ s : State, s.Inv →
    (∀ words start t r, s.load words start = some (t, r) → t.Inv) ∧
    (∀ a w t r, s.poke a w = some (t, r) → t.Inv) ∧ (∀ a t r, s.setBreakpoint a = some (t, r) → t.Inv) ∧
    (∀ a t r, s.clearBreakpoint a = some (t, r) → t.Inv) ∧ (∀ bytes, (s.supplyInput bytes).Inv)) ∧
  (∀ (s t : State) (words : List Word) (start : Word), s.bp.Pairwise (· < ·) → s.bp.length ≤ 4 →
    s.load words start = some (t, .ok) → t.Inv) ∧
  ∀ (s : State) (words : List Word) (a w : Word),
    (¬ s.BetweenCycles → s.load words a = none ∧ s.peek a = none ∧ s.poke a w = none ∧ s.setBreakpoint a = none ∧
      s.clearBreakpoint a = none) ∧
    (s.BetweenCycles → (s.load words a).isSome ∧ (s.peek a).isSome ∧ (s.poke a w).isSome ∧
      (s.setBreakpoint a).isSome ∧ (s.clearBreakpoint a).isSome)

/-! ## One step -/

/-- A step that begins a cycle fetches the instruction-cache view of `pc`, advances `pc`, decodes, which writes the latches
of R123 and touches nothing else, and runs the decoded instruction; a fault that the instruction takes restores the state
before the fetch (R120, R122, R123, R128). -/
def Obligations.StepRunsTheDecodedInstruction : Prop :=
  ∀ s : State, s.Ready → ∃ s1, s.fetch = .go s1 ∧ s1.ir = s.viewI s.pc ∧ s1.mar = s.pc ∧ s1.pc = s.pc + 1 ∧
    ReadEffect .ic s.pc s s1 ∧
    s1 = { s with ir := s1.ir, mar := s1.mar, pc := s1.pc, ic := s1.ic, mem := s1.mem, trace := s1.trace } ∧
    s1.latchDecode = { s1 with latch := s1.latchDecode.latch } ∧
    DecodedLatches (s.viewI s.pc) s.cc s.latch s1.latchDecode.latch ∧
    ∀ t, exec (decode (s.viewI s.pc)) s1.latchDecode = .next t →
      (t.fault = none → t.latch.phase = .done →
        step s = .next { t with latch := { t.latch with phase := .fetch } }) ∧
      (t.fault = none → t.latch.phase = .execute → step s = .next t) ∧
      (∀ a, t.fault = some (.outOfRange a) →
        step s = .next { s with fault := some (.outOfRange a), console := t.console })

/-- A fetch from an address outside memory takes the fault there and changes nothing else (R122, R129). -/
def Obligations.FetchOutsideMemoryFaults : Prop :=
  ∀ s : State, s.loaded = true → s.fault = none → s.halted = false → s.latch.phase = .fetch → ¬ s.InRange s.pc →
    step s = .next { s with fault := some (.outOfRange s.pc) }

/-- Before FETCH the status fields are tested, in the order `loaded`, `fault`, `halted`: the outcomes NoProgramLoaded,
Fault and Halted change no state (R121). -/
def Obligations.StatusTestsComeFirst : Prop :=
  ∀ s : State,
    (s.loaded = false → s.hostStep = some (s, .noProgramLoaded)) ∧
    (∀ f, s.loaded = true → s.fault = some f → s.hostStep = some (s, .fault f)) ∧
    (s.loaded = true → s.fault = none → s.halted = true → s.hostStep = some (s, .halted))

/-- A step that takes a fault restores every state element and the trace, latches the fault and returns it, and leaves of
the cycle only the bytes that it has sent; after that `step` and `run_until` return the fault and change nothing (R208). -/
def Obligations.FaultsArePrecise : Prop :=
  ∀ (s t : State) (f : FaultRecord), s.fault = none → step s = .next t → t.fault = some f →
    t = { s with fault := some f, console := { s.console with output := t.console.output } } ∧
    s.console.output <+: t.console.output ∧ s.hostStep = some (t, .fault f) ∧ t.hostStep = some (t, .fault f) ∧
    ∀ n, runUntil (n + 1) t = some (t, .fault f)

/-- An instruction takes a fault only at one of the addresses that R129 lists for it, and only where that address is
outside memory. -/
def Obligations.OnlyListedChecksFault : Prop :=
  ∀ (i : Instr) (s t : State) (a : Word), s.fault = none → exec i s = .next t → t.fault = some (.outOfRange a) →
    i.ChecksAddress s a ∧ ¬ s.InRange a

/-- A step appends to the event trace and to the console output and takes at most one input byte (R39, R61, R222). -/
def Obligations.TraceAndConsoleOnlyGrow : Prop :=
  ∀ s t : State, step s = .next t →
    s.trace <+: t.trace ∧ s.console.output <+: t.console.output ∧
    (t.console.input = s.console.input ∨ ∃ b, s.console.input = b :: t.console.input)

/-! ## Whole-machine rules -/

/-- An instruction changes no general register but those that R22 lists for it. -/
def Obligations.OnlyListedRegistersAreWritten : Prop :=
  ∀ (i : Instr) (s t : State) (r : Reg), exec i s = .next t → t.reg r ≠ s.reg r → r ∈ i.registersWritten

/-- In its own phases only a BR, JMP, JSR or JSRR changes `pc`; a BR only when its condition holds. FETCH advances it by
one, a load sets it, and no other host operation changes it (R24). -/
def Obligations.OnlyControlTransfersWritePc : Prop :=
  (∀ (i : Instr) (s t : State), exec i s = .next t → t.pc ≠ s.pc → i.transfersControl = true ∧
    ∀ nzp off, i = .br nzp off → s.cc.bits &&& nzp ≠ 0) ∧
  (∀ s t : State, s.fetch = .go t → t.pc = s.pc + 1) ∧
  (∀ (s t : State) words start, s.load words start = some (t, .ok) → t.pc = start) ∧
  (∀ (s t : State) a w, (∀ r, s.poke a w = some (t, r) → t.pc = s.pc) ∧
    (∀ r, s.setBreakpoint a = some (t, r) → t.pc = s.pc) ∧ (∀ r, s.clearBreakpoint a = some (t, r) → t.pc = s.pc))

/-- Exactly the seven instructions of R28 set the condition code, each from the value it writes to its destination
register, where it takes no fault; every other instruction leaves it unchanged. -/
def Obligations.OnlySevenInstructionsSetCC : Prop :=
  ∀ (i : Instr) (s t : State), s.cfg.ccOnAllRegWrites = false → s.fault = none → exec i s = .next t →
    (∀ dr, i.setsCC = some dr → t.fault = none → t.cc = ccOf (t.reg dr)) ∧
    (i.setsCC = none → t.cc = s.cc)

/-- A step changes neither the parameters nor `loaded`, `load_base` or the breakpoints; it sets `halted` only by
executing HALT, clears neither `halted` nor `fault`, and sets `fault` only to an address outside memory (R34, R38,
R201). -/
def Obligations.StatusFieldsHaveTheirWriters : Prop :=
  ∀ s t : State, step s = .next t →
    t.cfg = s.cfg ∧ t.loaded = s.loaded ∧ t.loadBase = s.loadBase ∧ t.bp = s.bp ∧
    (t.halted ≠ s.halted → t.halted = true ∧ decode t.ir = .halt) ∧
    (t.fault ≠ s.fault → s.fault = none ∧ ∃ a, t.fault = some (.outOfRange a) ∧ ¬ s.InRange a)

/-- No instruction's own phases change the instruction cache, whatever they store (R58, R72). -/
def Obligations.InstructionsNeverWriteTheInstructionCache : Prop :=
  ∀ (i : Instr) (s t : State), exec i s = .next t → t.ic = s.ic

/-- `ir`, `mar`, `mdr` and the latches carry nothing across cycles: every step keeps the relation of two states that differ
in them alone, where a cycle that a service holds has the same word in `ir`, and from the start of a cycle both step
(R30, R31, R32; that a cycle held by GETC or PUTS is a state of its own is the model's, log entries 8 and 10). -/
def Obligations.TransientRegistersCarryNothing : Prop :=
  ∀ s s' : State, AlikeButTransient s s' →
    (∀ t, step s = .next t → ∃ t', step s' = .next t' ∧ AlikeButTransient t t') ∧
    (s.latch.phase = .fetch → ∃ t, step s = .next t)

/-- No rule depends on ACCESS_DELAY (R8, R241). -/
def Obligations.AccessDelayDoesNotMatter : Prop :=
  ∀ (s t : State) (d : Nat), step s = .next t → step (s.withDelay d) = .next (t.withDelay d)

/-! ## ADD, AND, NOT -/

/-- ADD in both forms, from its encodings to its result (R141, R142). -/
def Obligations.AddWritesTheSum : Prop :=
  ∀ (s : State) (dr sr1 sr2 : Reg) (xx : BitVec 2) (imm5 : BitVec 5),
    decode (0x1#4 ++ regBits dr ++ regBits sr1 ++ 0#1 ++ xx ++ regBits sr2) = .addReg dr sr1 sr2 ∧
    decode (0x1#4 ++ regBits dr ++ regBits sr1 ++ 1#1 ++ imm5) = .addImm dr sr1 imm5 ∧
    Operates (.addReg dr sr1 sr2) dr (s.reg sr1 + s.reg sr2) s ∧
    Operates (.addImm dr sr1 imm5) dr (s.reg sr1 + imm5.signExtend 16) s

/-- AND in both forms, from its encodings to its result (R143, R144). -/
def Obligations.AndWritesTheConjunction : Prop :=
  ∀ (s : State) (dr sr1 sr2 : Reg) (xx : BitVec 2) (imm5 : BitVec 5),
    decode (0x5#4 ++ regBits dr ++ regBits sr1 ++ 0#1 ++ xx ++ regBits sr2) = .andReg dr sr1 sr2 ∧
    decode (0x5#4 ++ regBits dr ++ regBits sr1 ++ 1#1 ++ imm5) = .andImm dr sr1 imm5 ∧
    Operates (.andReg dr sr1 sr2) dr (s.reg sr1 &&& s.reg sr2) s ∧
    Operates (.andImm dr sr1 imm5) dr (s.reg sr1 &&& imm5.signExtend 16) s

/-- NOT, from its encoding to its result (R145). -/
def Obligations.NotWritesTheComplement : Prop :=
  ∀ (s : State) (dr sr : Reg) (x : BitVec 6),
    decode (0x9#4 ++ regBits dr ++ regBits sr ++ x) = .notOp dr sr ∧ Operates (.notOp dr sr) dr (~~~(s.reg sr)) s

/-! ## Loads and stores -/

/-- LD and LDR load the data-cache view of their address, or fault where it is outside memory (R150, R152). -/
def Obligations.DirectLoadsReadThroughTheDataCache : Prop :=
  ∀ (s : State) (dr baseR : Reg) (off9 : BitVec 9) (off6 : BitVec 6),
    decode (0x2#4 ++ regBits dr ++ off9) = .ld dr off9 ∧
    decode (0x6#4 ++ regBits dr ++ regBits baseR ++ off6) = .ldr dr baseR off6 ∧
    (s.InRange (s.pc + off9.signExtend 16) → LoadsAt (.ld dr off9) dr (s.pc + off9.signExtend 16) s s) ∧
    (¬ s.InRange (s.pc + off9.signExtend 16) → FaultsAt (.ld dr off9) s (s.pc + off9.signExtend 16)) ∧
    (s.InRange (s.reg baseR + off6.signExtend 16) →
      LoadsAt (.ldr dr baseR off6) dr (s.reg baseR + off6.signExtend 16) s s) ∧
    (¬ s.InRange (s.reg baseR + off6.signExtend 16) →
      FaultsAt (.ldr dr baseR off6) s (s.reg baseR + off6.signExtend 16))

/-- LDI reads its pointer and then its data through the data cache; the first address outside memory faults (R151). -/
def Obligations.LdiLoadsThroughItsPointer : Prop :=
  ∀ (s : State) (dr : Reg) (off9 : BitVec 9), decode (0xA#4 ++ regBits dr ++ off9) = .ldi dr off9 ∧
    (¬ s.InRange (s.pc + off9.signExtend 16) → FaultsAt (.ldi dr off9) s (s.pc + off9.signExtend 16)) ∧
    (s.InRange (s.pc + off9.signExtend 16) → ¬ s.InRange (s.viewD (s.pc + off9.signExtend 16)) →
      FaultsAt (.ldi dr off9) s (s.viewD (s.pc + off9.signExtend 16))) ∧
    (s.InRange (s.pc + off9.signExtend 16) → s.InRange (s.viewD (s.pc + off9.signExtend 16)) →
      ∃ u, PointerRead (s.pc + off9.signExtend 16) s u ∧
        LoadsAt (.ldi dr off9) dr (s.viewD (s.pc + off9.signExtend 16)) s u)

/-- LEA writes the address without any memory access, in or out of memory (R153). -/
def Obligations.LeaWritesTheAddress : Prop :=
  ∀ (s : State) (dr : Reg) (off9 : BitVec 9), decode (0xE#4 ++ regBits dr ++ off9) = .lea dr off9 ∧
    Operates (.lea dr off9) dr (s.pc + off9.signExtend 16) s

/-- ST and STR write the data cache at their address and not main memory, or fault where the address is outside memory
(R154, R156). -/
def Obligations.DirectStoresWriteTheDataCache : Prop :=
  ∀ (s : State) (sr baseR : Reg) (off9 : BitVec 9) (off6 : BitVec 6),
    decode (0x3#4 ++ regBits sr ++ off9) = .st sr off9 ∧
    decode (0x7#4 ++ regBits sr ++ regBits baseR ++ off6) = .str sr baseR off6 ∧
    (s.InRange (s.pc + off9.signExtend 16) → StoresAt (.st sr off9) (s.pc + off9.signExtend 16) (s.reg sr) s s) ∧
    (¬ s.InRange (s.pc + off9.signExtend 16) → FaultsAt (.st sr off9) s (s.pc + off9.signExtend 16)) ∧
    (s.InRange (s.reg baseR + off6.signExtend 16) →
      StoresAt (.str sr baseR off6) (s.reg baseR + off6.signExtend 16) (s.reg sr) s s) ∧
    (¬ s.InRange (s.reg baseR + off6.signExtend 16) →
      FaultsAt (.str sr baseR off6) s (s.reg baseR + off6.signExtend 16))

/-- STI reads its pointer through the data cache and stores at the pointer's value; the first address outside memory
faults (R155). -/
def Obligations.StiStoresThroughItsPointer : Prop :=
  ∀ (s : State) (sr : Reg) (off9 : BitVec 9), decode (0xB#4 ++ regBits sr ++ off9) = .sti sr off9 ∧
    (¬ s.InRange (s.pc + off9.signExtend 16) → FaultsAt (.sti sr off9) s (s.pc + off9.signExtend 16)) ∧
    (s.InRange (s.pc + off9.signExtend 16) → ¬ s.InRange (s.viewD (s.pc + off9.signExtend 16)) →
      FaultsAt (.sti sr off9) s (s.viewD (s.pc + off9.signExtend 16))) ∧
    (s.InRange (s.pc + off9.signExtend 16) → s.InRange (s.viewD (s.pc + off9.signExtend 16)) →
      ∃ u, PointerRead (s.pc + off9.signExtend 16) s u ∧
        StoresAt (.sti sr off9) (s.viewD (s.pc + off9.signExtend 16)) (s.reg sr) s u)

/-! ## The cache controller and the three paths -/

/-- The model's cache read, built from shared operations, is the pseudocode of R56, for both caches. -/
def Obligations.CacheReadIsThePseudocode : Prop :=
  ∀ (c : CacheId) (a : Word) (s : State), (s.afterRead c a, s.readWord c a) = cacheReadAsWritten c a s

/-- The model's data-cache write, built from shared operations, is the pseudocode of R57. -/
def Obligations.CacheWriteIsThePseudocode : Prop :=
  ∀ (a v : Word) (s : State), s.dcWrite a v = dcWriteAsWritten a v s

/-- Item 2 of R69 and its counterpart for reads: a write gives its address the new data-cache view; every other
data-cache view is kept, except that a clean line which the access evicts gives way to main memory. -/
def Obligations.DataCacheViewsFollowAccesses : Prop :=
  ∀ (s : State) (a v b : Word),
    (s.dcWrite a v).viewD a = v ∧
    (b ≠ a → (s.EvictsClean .dc a b → (s.dcWrite a v).viewD b = s.memRead b) ∧
      (¬ s.EvictsClean .dc a b → (s.dcWrite a v).viewD b = s.viewD b)) ∧
    (s.EvictsClean .dc a b → (s.afterRead .dc a).viewD b = s.memRead b) ∧
    (¬ s.EvictsClean .dc a b → (s.afterRead .dc a).viewD b = s.viewD b)

/-- Items 3, 4 and 7 of R69: a store changes neither the fetch view nor main memory at its address, and elsewhere main
memory only where it writes back the dirty line it evicts, and a fetch view only where the instruction cache does not
hold the address; a raw write changes main memory at its address, and a cached view of it only where that cache does not
hold it; a fetch that evicts a clean line gives its address main memory's word, changes main memory only where it writes
back a dirty line (which R58 rules out), and a data-cache view only where the data cache does not hold the address. -/
def Obligations.TheThreePathsAreSeparate : Prop :=
  ∀ (s : State) (a v b : Word),
    (s.dcWrite a v).viewI a = s.viewI a ∧ (s.dcWrite a v).memRead a = s.memRead a ∧
    (s.dcWrite a v).memRead b = (if s.victim .dc a = some (s.off b) then (s.lineAt .dc a).word else s.memRead b) ∧
    (s.dcWrite a v).viewI b = (if s.accessKind .ic b = .hit then s.viewI b else (s.dcWrite a v).memRead b) ∧
    (s.memWrite a v).memRead a = v ∧ (b ≠ a → (s.memWrite a v).memRead b = s.memRead b) ∧
    (∀ c, (s.memWrite a v).view c a = if s.accessKind c a = .hit then s.view c a else v) ∧
    (∀ c, b ≠ a → (s.memWrite a v).view c b = s.view c b) ∧
    (s.EvictsClean .ic a b → (s.afterRead .ic a).viewI b = s.memRead b) ∧
    (¬ s.EvictsClean .ic a b → (s.afterRead .ic a).viewI b = s.viewI b) ∧
    (s.afterRead .ic a).memRead b =
      (if s.victim .ic a = some (s.off b) then (s.lineAt .ic a).word else s.memRead b) ∧
    (s.afterRead .ic a).viewD b =
      (if s.accessKind .dc b = .hit then s.viewD b else (s.afterRead .ic a).memRead b)

/-- The two properties of R69's last paragraph: a stored word is read back with a hit, and once a conflicting access has
evicted its line a direct read of main memory observes it. -/
def Obligations.StoredWordsAreReadBackAndWrittenBack : Prop :=
  ∀ (s : State) (a v b w : Word),
    (s.dcWrite a v).readWord .dc a = v ∧ (s.dcWrite a v).accessKind .dc a = .hit ∧
    (s.index b = s.index a → b ≠ a →
      ((s.dcWrite a v).afterRead .dc b).memRead a = v ∧ ((s.dcWrite a v).dcWrite b w).memRead a = v)

/-! ## Control transfer -/

/-- BR goes to `pc + sext_9(off)` when CC AND nzp is not zero and to the next instruction otherwise; nothing else but
latches changes (R170). With nzp = 000 it is never taken, with nzp = 111 always (R100). -/
def Obligations.BrBranchesOnTheConditionCode : Prop :=
  ∀ (s : State) (nzp : BitVec 3) (off9 : BitVec 9), decode (0x0#4 ++ nzp ++ off9) = .br nzp off9 ∧
    Completes (.br nzp off9) s fun t =>
      (s.cc.bits &&& nzp ≠ 0 → t.pc = s.pc + off9.signExtend 16) ∧ (s.cc.bits &&& nzp = 0 → t.pc = s.pc) ∧
      (nzp = 0b000#3 → t.pc = s.pc) ∧ (nzp = 0b111#3 → t.pc = s.pc + off9.signExtend 16) ∧ SameReads s t ∧ t = { s with pc := t.pc, latch := t.latch }

/-- JMP goes to its register, whatever the ignored bits hold; nothing else but latches changes (R171). -/
def Obligations.JmpJumps : Prop :=
  ∀ (s : State) (baseR : Reg) (x : BitVec 3) (y : BitVec 6),
    decode (0xC#4 ++ x ++ regBits baseR ++ y) = .jmp baseR ∧
    Completes (.jmp baseR) s fun t => t.pc = s.reg baseR ∧ SameReads s t ∧ t = { s with pc := t.pc, latch := t.latch }

/-- JSR links in R7 and goes to `pc + sext_11(off)`; the condition code changes only under CC_ON_ALL_REG_WRITES, which
the spec fixes at false (R172, R8). -/
def Obligations.JsrLinksAndJumps : Prop :=
  ∀ (s : State) (off11 : BitVec 11), decode (0x4#4 ++ 1#1 ++ off11) = .jsr off11 ∧
    Completes (.jsr off11) s fun t =>
      t.reg 7 = s.pc ∧ t.pc = s.pc + off11.signExtend 16 ∧ (∀ q, q ≠ 7 → t.reg q = s.reg q) ∧
      t.cc = (bif s.cfg.ccOnAllRegWrites then ccOf s.pc else s.cc) ∧ SameReads s t ∧
      t = { s with regs := t.regs, pc := t.pc, cc := t.cc, latch := t.latch }

/-- JSRR links in R7 and goes to its register, read after the link is written: with BaseR = R7 execution goes on with the
next instruction. Under JSRR_READS_BASE_FIRST, which the spec fixes at false, the old R7 is the target (R173, R8). -/
def Obligations.JsrrLinksThenJumps : Prop :=
  ∀ (s : State) (baseR : Reg) (x : BitVec 2) (y : BitVec 6),
    decode (0x4#4 ++ 0#1 ++ x ++ regBits baseR ++ y) = .jsrr baseR ∧
    Completes (.jsrr baseR) s fun t =>
      t.reg 7 = s.pc ∧ (baseR ≠ 7 → t.pc = s.reg baseR) ∧
      (baseR = 7 → t.pc = bif s.cfg.jsrrReadsBaseFirst then s.reg 7 else s.pc) ∧ (∀ q, q ≠ 7 → t.reg q = s.reg q) ∧
      t.cc = (bif s.cfg.ccOnAllRegWrites then ccOf s.pc else s.cc) ∧ SameReads s t ∧
      t = { s with regs := t.regs, pc := t.pc, cc := t.cc, latch := t.latch }

/-! ## Traps -/

/-- GETC with a byte available takes it into R0, zero-extended; nothing else but the console input, latches and, under
CC_ON_ALL_REG_WRITES, the condition code changes (R182, R8). -/
def Obligations.GetcTakesOneByte : Prop :=
  ∀ (s : State) (x : BitVec 4) (b : Byte) (rest : List Byte), decode (0xF#4 ++ x ++ 0x20#8) = .getc ∧
    (s.console.input = b :: rest → Completes .getc s fun t =>
      (t.reg 0).toNat = b.toNat ∧ (∀ q, q ≠ 0 → t.reg q = s.reg q) ∧
      t.cc = (bif s.cfg.ccOnAllRegWrites then ccOf (t.reg 0) else s.cc) ∧
      t.console = { input := rest, output := s.console.output } ∧ SameReads s t ∧
      t = { s with regs := t.regs, cc := t.cc, latch := t.latch, console := t.console })

/-- GETC with no byte available waits in EXECUTE, and goes on there, without another fetch, once the host supplies a byte:
the byte goes to R0, zero-extended, and nothing else but the console input, latches and, under CC_ON_ALL_REG_WRITES, the
condition code changes (R182, R226, R8; that the wait is a next state held in EXECUTE is the model's choice, log entry 8). -/
def Obligations.GetcWaitsForTheHost : Prop :=
  ∀ s : State, s.console.input = [] →
    (∃ t, exec .getc s = .next t ∧ t.latch.phase = .execute ∧ t = { s with latch := t.latch }) ∧
    (s.loaded = true → s.fault = none → s.halted = false → s.latch.phase = .execute → decode s.ir = .getc →
      (∃ t, step s = .next t ∧ t.latch.phase = .execute ∧ t = { s with latch := t.latch }) ∧
      ∀ b rest, ∃ t, (s.supplyInput (b :: rest)).hostStep = some (t, .continued) ∧ (t.reg 0).toNat = b.toNat ∧
        (∀ q, q ≠ 0 → t.reg q = s.reg q) ∧ t.cc = (bif s.cfg.ccOnAllRegWrites then ccOf (t.reg 0) else s.cc) ∧
        t.console = { input := rest, output := s.console.output } ∧ t.latch.phase = .fetch ∧ SameReads s t ∧
        t = { s with regs := t.regs, cc := t.cc, latch := t.latch, console := t.console })

/-- OUT sends the low byte of R0; nothing else but latches changes (R183). -/
def Obligations.OutSendsTheLowByte : Prop :=
  ∀ (s : State) (x : BitVec 4), decode (0xF#4 ++ x ++ 0x21#8) = .out ∧
    Completes .out s fun t =>
      t.console = { s.console with output := s.console.output ++ [(s.reg 0).extractLsb' 0 8] } ∧ SameReads s t ∧
      t = { s with latch := t.latch, console := t.console }

/-- PUTS in every state, by what it sends from address R0 on: it completes at the first zero word, faults with the bytes
sent at the first address outside memory, or is held in EXECUTE once it has sent 131072 bytes, which happens only where
it never ends: however far it goes on, the next word is in memory and is not zero. A step from a held PUTS goes on so from
address R0, without another fetch, and keeps `pc`, the registers and the condition code (R184; the hold and the step that
goes on from it are the model's, log entry 10). -/
def Obligations.PutsSendsUntilItEnds : Prop :=
  ∀ (s u : State) (x : BitVec 4) (bytes : List Byte) (b : Word), decode (0xF#4 ++ x ++ 0x22#8) = .puts ∧
    (PutsSends (s.reg 0) s bytes b u →
      (bytes.length < 131072 → u.InRange b → u.viewD b = 0x0000#16 → Completes .puts s fun t =>
        t.console = { s.console with output := s.console.output ++ bytes } ∧
        t = { s with console := t.console, latch := t.latch, dc := (u.afterRead .dc b).dc,
                     mem := (u.afterRead .dc b).mem, trace := (u.afterRead .dc b).trace }) ∧
      (bytes.length < 131072 → ¬ u.InRange b →
        exec .puts s = .next { s with fault := some (.outOfRange b),
                                      console := { s.console with output := s.console.output ++ bytes } }) ∧
      (bytes.length = 131072 →
        (∃ t, exec .puts s = .next t ∧ t.latch.phase = .execute ∧
          t.console = { s.console with output := s.console.output ++ bytes } ∧
          t = { s with console := t.console, latch := t.latch, dc := u.dc, mem := u.mem, trace := u.trace }) ∧
        ∀ (v : State) (more : List Byte) (c : Word), PutsSends (s.reg 0) s more c v →
          v.InRange c ∧ v.viewD c ≠ 0x0000#16) ∧
      (s.loaded = true → s.fault = none → s.halted = false → s.latch.phase = .execute → decode s.ir = .puts →
        (bytes.length < 131072 → u.InRange b → u.viewD b = 0x0000#16 →
          ∃ t, s.hostStep = some (t, .continued) ∧
            t.console = { s.console with output := s.console.output ++ bytes } ∧
            t = { s with console := t.console, latch := t.latch, dc := (u.afterRead .dc b).dc,
                         mem := (u.afterRead .dc b).mem, trace := (u.afterRead .dc b).trace }) ∧
        (bytes.length < 131072 → ¬ u.InRange b →
          step s = .next { s with fault := some (.outOfRange b),
                                  console := { s.console with output := s.console.output ++ bytes } }) ∧
        (bytes.length = 131072 → ∃ t, step s = .next t ∧ t.latch.phase = .execute ∧
          t.console = { s.console with output := s.console.output ++ bytes } ∧
          t = { s with console := t.console, latch := t.latch, dc := u.dc, mem := u.mem, trace := u.trace })))

/-- Where no raw write has gone behind a resident line, PUTS sends the low bytes of the words of the zero-terminated string
at R0, in order, and leaves the data-cache view of every word as it was (R184, R69). -/
def Obligations.PutsSendsAString : Prop :=
  ∀ (s : State) (str : List Word), s.DataCacheCurrent → str.length < 65536 →
    (∀ k, (h : k < str.length) → str[k] ≠ 0x0000#16 ∧ s.InRange (s.reg 0 + BitVec.ofNat 16 k) ∧
      s.viewD (s.reg 0 + BitVec.ofNat 16 k) = str[k]) →
    s.InRange (s.reg 0 + BitVec.ofNat 16 str.length) →
    s.viewD (s.reg 0 + BitVec.ofNat 16 str.length) = 0x0000#16 →
    Completes .puts s fun t =>
      t.console = { s.console with output := s.console.output ++ str.map fun w => w.extractLsb' 0 8 } ∧
      (∀ a, t.viewD a = s.viewD a) ∧
      t = { s with console := t.console, latch := t.latch, dc := t.dc, mem := t.mem, trace := t.trace }

/-- HALT sets `halted` and ends the cycle in EXECUTE, whatever bits 11:8 hold; nothing else but latches changes, so no
dirty line is written back (R181, R73). -/
def Obligations.HaltEndsTheProgram : Prop :=
  ∀ (s : State) (x : BitVec 4), decode (0xF#4 ++ x ++ 0x25#8) = .halt ∧
    ∃ t, exec .halt s = .next t ∧ t.halted = true ∧ t.latch.phase = .execute ∧ SameReads s t ∧
      t = { s with halted := true, latch := t.latch }

/-- A TRAP with a vector that selects no service changes nothing but latches (R185). -/
def Obligations.UnassignedVectorsDoNothing : Prop :=
  ∀ (s : State) (x : BitVec 4) (v : BitVec 8), v ≠ 0x20#8 → v ≠ 0x21#8 → v ≠ 0x22#8 → v ≠ 0x25#8 →
    decode (0xF#4 ++ x ++ v) = .trap v ∧
    Completes (.trap v) s fun t => SameReads s t ∧ t = { s with latch := t.latch }

/-- A word with opcode 0x8 is a no-op: from a state of the invariant its step advances `pc`, reads the instruction cache at
the old `pc` with the line and the event of that read, and changes no register, flag, memory word or data-cache line; the
outcome is Continue (R97, R130). -/
def Obligations.InvalidOpcodeDoesNothing : Prop :=
  (∀ (s : State) (x : BitVec 12), decode (0x8#4 ++ x) = .invalid ∧
    Completes .invalid s fun t => SameReads s t ∧ t = { s with latch := t.latch }) ∧
  ∀ s : State, s.Inv → s.Ready → (s.viewI s.pc).extractLsb' 12 4 = 0x8#4 →
    ∃ t, s.hostStep = some (t, .continued) ∧ t.pc = s.pc + 1 ∧ ReadEffect .ic s.pc s t ∧ t.regs = s.regs ∧
      t.cc = s.cc ∧ t.mem = s.mem ∧ t.dc = s.dc

/-! ## PUSH and POP -/

/-- PUSH decrements R6 and writes main memory there, past both caches; with SR = R6 the decremented value is written. An
R6 - 1 outside memory faults with R6 unchanged (R195, R8). -/
def Obligations.PushWritesRawMemory : Prop :=
  ∀ (s : State) (sr : Reg) (x : BitVec 3) (y : BitVec 5),
    decode (0xD#4 ++ regBits sr ++ x ++ 0#1 ++ y) = .push sr ∧
    (s.InRange (s.reg 6 - 1) → Completes (.push sr) s fun t =>
      t.reg 6 = s.reg 6 - 1 ∧ (∀ q, q ≠ 6 → t.reg q = s.reg q) ∧
      t.memRead (s.reg 6 - 1) = (if sr = 6 then s.reg 6 - 1 else s.reg sr) ∧
      (∀ b, b ≠ s.reg 6 - 1 → t.memRead b = s.memRead b ∧ t.viewD b = s.viewD b ∧ t.viewI b = s.viewI b) ∧
      t.cc = (bif s.cfg.ccOnAllRegWrites then ccOf (s.reg 6 - 1) else s.cc) ∧
      t = { s with regs := t.regs, cc := t.cc, latch := t.latch, mem := t.mem }) ∧
    (¬ s.InRange (s.reg 6 - 1) → FaultsAt (.push sr) s (s.reg 6 - 1))

/-- POP reads main memory at R6, past both caches, into its register and increments R6; with DR = R6 the popped word is
incremented. An R6 outside memory faults (R196). That CC_ON_ALL_REG_WRITES, which the spec fixes at false, takes the
condition code from R6 and not from the popped word is the model's reading of R8 (log entry 15). -/
def Obligations.PopReadsRawMemory : Prop :=
  ∀ (s : State) (dr : Reg) (x : BitVec 3) (y : BitVec 5),
    decode (0xD#4 ++ regBits dr ++ x ++ 1#1 ++ y) = .pop dr ∧
    (s.InRange (s.reg 6) → Completes (.pop dr) s fun t =>
      (dr ≠ 6 → t.reg dr = s.memRead (s.reg 6) ∧ t.reg 6 = s.reg 6 + 1) ∧
      (dr = 6 → t.reg 6 = s.memRead (s.reg 6) + 1) ∧ (∀ q, q ≠ dr → q ≠ 6 → t.reg q = s.reg q) ∧
      t.cc = (bif s.cfg.ccOnAllRegWrites then ccOf (t.reg 6) else s.cc) ∧ SameReads s t ∧
      t = { s with regs := t.regs, cc := t.cc, latch := t.latch }) ∧
    (¬ s.InRange (s.reg 6) → FaultsAt (.pop dr) s (s.reg 6))

/-- A POP after a PUSH restores R6 and gives back the pushed word, whatever the data cache holds (R197). -/
def Obligations.PopUndoesPush : Prop :=
  ∀ (s : State) (sr dr : Reg), sr ≠ 6 → dr ≠ 6 → s.InRange (s.reg 6 - 1) →
    ∃ t u, exec (.push sr) s = .next t ∧ exec (.pop dr) t = .next u ∧ u.reg 6 = s.reg 6 ∧ u.reg dr = s.reg sr

/-! ## The host -/

/-- `peek` and `poke` use the raw path, are refused before a load and outside memory, and change nothing else; `save` is
the sequence of peeks from its first to its last address inclusive (R218, R219; that a range whose last address is below
its first goes up through 0xFFFF is the model's choice, log entry 23). -/
def Obligations.PeekAndPokeAreRaw : Prop :=
  ∀ (s : State) (a w : Word),
    (s.loaded = false → s.peek a = some .noProgramLoaded ∧ s.poke a w = some (s, .noProgramLoaded)) ∧
    (s.BetweenCycles → s.loaded = true → ¬ s.InRange a →
      s.peek a = some (.outOfRange a) ∧ s.poke a w = some (s, .outOfRange a)) ∧
    (s.BetweenCycles → s.loaded = true → s.InRange a → s.peek a = some (.word (s.memRead a)) ∧
      ∃ t, s.poke a w = some (t, .ok) ∧ t.memRead a = w ∧ (∀ b, b ≠ a → t.memRead b = s.memRead b) ∧
        t = { s with mem := t.mem }) ∧
    (s.save a w).length = (w - a).toNat + 1 ∧
    (∀ k, k ≤ (w - a).toNat → (s.save a w)[k]? = some (s.peek (a + BitVec.ofNat 16 k)))

/-- The breakpoint set: a duplicate is reported before a full table, a clear of a non-member is NotFound, and a set or
clear that succeeds changes that one member (R205, R206, R207, R220, R221). -/
def Obligations.BreakpointsAreASet : Prop :=
  ∀ (s : State) (a : Word), s.BetweenCycles →
    (a ∈ s.bp → s.setBreakpoint a = some (s, .alreadySet) ∧ ∃ t, s.clearBreakpoint a = some (t, .ok) ∧
      (∀ b, b ∈ t.bp ↔ b ∈ s.bp ∧ b ≠ a) ∧ t = { s with bp := t.bp }) ∧
    (a ∉ s.bp → s.clearBreakpoint a = some (s, .notFound)) ∧
    (a ∉ s.bp → s.bp.length = 4 → s.setBreakpoint a = some (s, .breakpointTableFull)) ∧
    (a ∉ s.bp → s.bp.length ≠ 4 → ∃ t, s.setBreakpoint a = some (t, .ok) ∧ (∀ b, b ∈ t.bp ↔ b = a ∨ b ∈ s.bp) ∧
      t.bp.length = s.bp.length + 1 ∧ t = { s with bp := t.bp })

/-- `run_until` returns before a cycle where a test of R217 says so, with the state unchanged, and otherwise runs one: a
cycle that completes returns at a breakpoint and goes on elsewhere, one that halts or faults returns so, and one that a
service holds is run on. What it returns is true of the state it leaves; that state is reached by steps, at least one
where a breakpoint is hit, and no completed cycle before the last ended at a breakpoint (R217). The bound on steps is the
model's (log entry 12), and so are the clauses on a run that starts in or reaches a cycle which a service holds: that such
a cycle is a state of its own and that `run_until` goes on with it (log entries 8, 10 and 13). -/
def Obligations.RunUntilStopsWhereItSays : Prop :=
  (∀ (n : Nat) (s : State),
    (s.loaded = false → runUntil (n + 1) s = some (s, .noProgramLoaded)) ∧
    (∀ f, s.loaded = true → s.fault = some f → runUntil (n + 1) s = some (s, .fault f)) ∧
    (s.loaded = true → s.fault = none → s.halted = true → runUntil (n + 1) s = some (s, .halted)) ∧
    (s.loaded = true → s.fault = none → s.halted = false → s.latch.phase = .fetch → ¬ s.InRange s.pc →
      runUntil (n + 1) s = some (s, .endOfMemory)) ∧
    (∀ t, (s.Ready ∨ ¬ s.BetweenCycles) → step s = .next t →
      (∀ f, t.fault = some f → runUntil (n + 1) s = some (t, .fault f)) ∧
      (t.fault = none → t.halted = true → runUntil (n + 1) s = some (t, .halted)) ∧
      (t.fault = none → t.halted = false → t.latch.phase = .fetch →
        (t.pc ∈ s.bp → runUntil (n + 1) s = some (t, .breakpointHit t.pc)) ∧
        (t.pc ∉ s.bp → runUntil (n + 1) s = runUntil n t)) ∧
      (¬ t.BetweenCycles → runUntil (n + 1) s = runUntil n t))) ∧
  ∀ (n : Nat) (s t : State) (r : RunOutcome), runUntil n s = some (t, r) →
    (r = .noProgramLoaded → t.loaded = false) ∧ (r = .halted → t.halted = true ∧ t.fault = none) ∧
    (∀ f, r = .fault f → t.fault = some f) ∧
    (r = .endOfMemory → ¬ t.InRange t.pc ∧ t.fault = none ∧ t.halted = false) ∧
    (∀ a, r = .breakpointHit a → t.pc = a ∧ a ∈ t.bp ∧ t.report = some .continued) ∧
    ∃ k, k ≤ n ∧ core.run k s = .next t ∧ (∀ a, r = .breakpointHit a → 0 < k) ∧
      ∀ j u, 0 < j → j < k → core.run j s = .next u → u.report = some .continued → u.pc ∉ u.bp

/-- A run that has returned returns the same when it is given more steps (log entry 12: the bound is the model's). -/
def Obligations.RunUntilNeedsNoMoreSteps : Prop :=
  ∀ (n m : Nat) (s t : State) (r : RunOutcome), n ≤ m → runUntil n s = some (t, r) → runUntil m s = some (t, r)

/-! ## The host's way to place one instruction -/

/-- A state with a word placed at the fetch is ready to begin a cycle, and its next fetch reads that word (log entry 3:
placing it stands for a load). -/
def Obligations.PlacedWordIsFetchedNext : Prop :=
  ∀ (s : State) (nbits w : Nat), (s.withFetchWord nbits w).Ready ∧
    (s.withFetchWord nbits w).viewI (s.withFetchWord nbits w).pc = tableWord nbits w ∧
    (s.withFetchWord nbits w).regs = s.regs ∧ (s.withFetchWord nbits w).cc = s.cc
end

