-- ==== Sys2Proof/Laws/Memory.lean ====
section
/-! SUPPORT. The laws of sparse storage: read after write, and every operation keeps the canonical form. -/

namespace Sys2Proof.Machine

variable {α : Type}

/-! ## Read after write -/

theorem sparseGet_erase_self (d : α) (m : List (Nat × α)) (k : Nat) : sparseGet d (sparseErase m k) k = d := by
  induction m with
  | nil => rfl
  | cons e m ih =>
    obtain ⟨j, u⟩ := e
    by_cases h : j = k <;> simp [sparseErase, sparseGet, h, ih]

theorem sparseGet_erase_of_ne (d : α) (m : List (Nat × α)) {k j : Nat} (h : j ≠ k) :
    sparseGet d (sparseErase m k) j = sparseGet d m j := by
  induction m with
  | nil => rfl
  | cons e m ih =>
    obtain ⟨i, u⟩ := e
    by_cases hi : i = k
    · have : i ≠ j := fun e => h (e ▸ hi)
      simp [sparseErase, sparseGet, hi, ih, hi ▸ this]
    · simp [sparseErase, sparseGet, hi, ih]

theorem sparseGet_insert_self (d : α) (m : List (Nat × α)) (k : Nat) (v : α) (h : ∀ e ∈ m, e.1 ≠ k) :
    sparseGet d (sparseInsert m k v) k = v := by
  induction m with
  | nil => simp [sparseInsert, sparseGet]
  | cons e m ih =>
    obtain ⟨j, u⟩ := e
    have hj : j ≠ k := h (j, u) (by simp)
    have := ih fun e he => h e (by simp [he])
    by_cases hlt : k < j <;> simp [sparseInsert, sparseGet, hlt, hj, this]

theorem sparseGet_insert_of_ne (d : α) (m : List (Nat × α)) {k j : Nat} (v : α) (h : j ≠ k) :
    sparseGet d (sparseInsert m k v) j = sparseGet d m j := by
  induction m with
  | nil => simp [sparseInsert, sparseGet, h.symm]
  | cons e m ih =>
    obtain ⟨i, u⟩ := e
    by_cases hlt : k < i <;> simp [sparseInsert, sparseGet, hlt, ih, h.symm]

theorem mem_sparseErase {m : List (Nat × α)} {k : Nat} {e : Nat × α} (h : e ∈ sparseErase m k) :
    e ∈ m ∧ e.1 ≠ k := by
  induction m with
  | nil => simp [sparseErase] at h
  | cons f m ih =>
    obtain ⟨j, u⟩ := f
    by_cases hj : j = k
    · rw [sparseErase, if_pos hj] at h
      exact ⟨List.mem_cons_of_mem _ (ih h).1, (ih h).2⟩
    · rw [sparseErase, if_neg hj] at h
      rcases List.mem_cons.mp h with rfl | h
      · exact ⟨List.mem_cons_self, hj⟩
      · exact ⟨List.mem_cons_of_mem _ (ih h).1, (ih h).2⟩

variable [DecidableEq α]

/-- A key reads as what it was last set to. -/
@[simp] theorem sparseGet_set_self (d : α) (m : List (Nat × α)) (k : Nat) (v : α) :
    sparseGet d (sparseSet d m k v) k = v := by
  unfold sparseSet
  split
  · next h => rw [sparseGet_erase_self, h]
  · exact sparseGet_insert_self d _ k v fun e he => (mem_sparseErase he).2

/-- Setting a key leaves every other key alone. -/
theorem sparseGet_set_of_ne (d : α) (m : List (Nat × α)) {k j : Nat} (v : α) (h : j ≠ k) :
    sparseGet d (sparseSet d m k v) j = sparseGet d m j := by
  unfold sparseSet
  split
  · exact sparseGet_erase_of_ne d m h
  · rw [sparseGet_insert_of_ne d _ v h, sparseGet_erase_of_ne d m h]

theorem sparseGet_set (d : α) (m : List (Nat × α)) (k j : Nat) (v : α) :
    sparseGet d (sparseSet d m k v) j = if j = k then v else sparseGet d m j := by
  split
  · next h => subst h; simp
  · next h => exact sparseGet_set_of_ne d m v h

/-! ## The canonical form -/

omit [DecidableEq α]

theorem sparseErase_erase (m : List (Nat × α)) (k : Nat) : sparseErase (sparseErase m k) k = sparseErase m k := by
  induction m with
  | nil => rfl
  | cons e m ih =>
    obtain ⟨j, u⟩ := e
    by_cases h : j = k
    · simp [sparseErase, h, ih]
    · simp [sparseErase, h, ih]

theorem sparseErase_insert (m : List (Nat × α)) (k : Nat) (v : α) :
    sparseErase (sparseInsert m k v) k = sparseErase m k := by
  induction m with
  | nil => simp [sparseInsert, sparseErase]
  | cons e m ih =>
    obtain ⟨j, u⟩ := e
    unfold sparseInsert
    split
    · simp [sparseErase]
    · simp [sparseErase, ih]

/-- Of two writes of one key the second is the one that counts. -/
theorem sparseSet_set [DecidableEq α] (d : α) (m : List (Nat × α)) (k : Nat) (v w : α) :
    sparseSet d (sparseSet d m k v) k w = sparseSet d m k w := by
  have h : sparseErase (sparseSet d m k v) k = sparseErase m k := by
    unfold sparseSet
    split
    · exact sparseErase_erase m k
    · rw [sparseErase_insert, sparseErase_erase]
  change (if w = d then sparseErase (sparseSet d m k v) k
    else sparseInsert (sparseErase (sparseSet d m k v) k) k w) = _
  rw [h]
  rfl

theorem sparseErase_sublist (m : List (Nat × α)) (k : Nat) : (sparseErase m k).Sublist m := by
  induction m with
  | nil => exact List.Sublist.slnil
  | cons e m ih =>
    obtain ⟨j, u⟩ := e
    by_cases h : j = k
    · rw [sparseErase, if_pos h]; exact ih.cons _
    · rw [sparseErase, if_neg h]; exact ih.cons_cons _

theorem SparseWf.erase {d : α} {bound : Nat} {m : List (Nat × α)} (h : SparseWf d bound m) (k : Nat) :
    SparseWf d bound (sparseErase m k) :=
  ⟨h.1.sublist (sparseErase_sublist m k), fun e he => h.2 e (mem_sparseErase he).1⟩

theorem mem_sparseInsert {m : List (Nat × α)} {k : Nat} {v : α} {e : Nat × α} (h : e ∈ sparseInsert m k v) :
    e = (k, v) ∨ e ∈ m := by
  induction m with
  | nil => simpa [sparseInsert] using h
  | cons f m ih =>
    obtain ⟨j, u⟩ := f
    by_cases hlt : k < j
    · simpa [sparseInsert, hlt] using h
    · rw [sparseInsert, if_neg hlt] at h
      rcases List.mem_cons.mp h with h | h
      · exact .inr (h ▸ List.mem_cons_self)
      · exact (ih h).imp_right (List.mem_cons_of_mem _)

theorem sparseInsert_pairwise {m : List (Nat × α)} {k : Nat} {v : α}
    (h : m.Pairwise (fun e f => e.1 < f.1)) (hk : ∀ e ∈ m, e.1 ≠ k) :
    (sparseInsert m k v).Pairwise (fun e f => e.1 < f.1) := by
  induction m with
  | nil => simp [sparseInsert]
  | cons f m ih =>
    obtain ⟨j, u⟩ := f
    have hj : j ≠ k := hk (j, u) List.mem_cons_self
    obtain ⟨hhead, htail⟩ := List.pairwise_cons.mp h
    by_cases hlt : k < j
    · rw [sparseInsert, if_pos hlt]
      refine List.pairwise_cons.mpr ⟨fun e he => ?_, h⟩
      rcases List.mem_cons.mp he with rfl | he
      · exact hlt
      · exact lt_trans hlt (hhead e he)
    · rw [sparseInsert, if_neg hlt]
      refine List.pairwise_cons.mpr ⟨fun e he => ?_, ih htail fun e he => hk e (List.mem_cons_of_mem _ he)⟩
      rcases mem_sparseInsert he with rfl | he
      · have : j ≤ k := Nat.le_of_not_lt hlt
        exact lt_of_le_of_ne this hj
      · exact hhead e he

/-- Setting a key below the bound keeps the canonical form. -/
theorem SparseWf.set [DecidableEq α] {d : α} {bound : Nat} {m : List (Nat × α)} (h : SparseWf d bound m) {k : Nat}
    (hk : k < bound) (v : α) : SparseWf d bound (sparseSet d m k v) := by
  unfold sparseSet
  split
  · exact h.erase k
  · next hv =>
    refine ⟨sparseInsert_pairwise (h.erase k).1 fun e he => (mem_sparseErase he).2, fun e he => ?_⟩
    rcases mem_sparseInsert he with rfl | he
    · exact ⟨hk, hv⟩
    · exact (h.erase k).2 e he

/-- Canonical storage of one content is one list: equal contents are equal data. -/
theorem SparseWf.ext {d : α} {bound : Nat} {m n : List (Nat × α)} (hm : SparseWf d bound m) (hn : SparseWf d bound n)
    (h : ∀ k, sparseGet d m k = sparseGet d n k) : m = n := by
  have below : ∀ {m : List (Nat × α)} {j : Nat}, (∀ e ∈ m, j < e.1) → sparseGet d m j = d := by
    intro m j hj
    induction m with
    | nil => rfl
    | cons e m ih =>
      obtain ⟨i, u⟩ := e
      have : i ≠ j := Nat.ne_of_gt (hj (i, u) List.mem_cons_self)
      rw [sparseGet, if_neg this]
      exact ih fun e he => hj e (List.mem_cons_of_mem _ he)
  induction m generalizing n with
  | nil =>
    cases n with
    | nil => rfl
    | cons f n =>
      have := h f.1
      simp [sparseGet] at this
      exact absurd this.symm (hn.2 f List.mem_cons_self).2
  | cons e m ih =>
    obtain ⟨hme, hmt⟩ := List.pairwise_cons.mp hm.1
    have hmwf : SparseWf d bound m := ⟨hmt, fun e he => hm.2 e (List.mem_cons_of_mem _ he)⟩
    cases n with
    | nil =>
      have := h e.1
      simp [sparseGet] at this
      exact absurd this (hm.2 e List.mem_cons_self).2
    | cons f n =>
      obtain ⟨hnf, hnt⟩ := List.pairwise_cons.mp hn.1
      have hnwf : SparseWf d bound n := ⟨hnt, fun e he => hn.2 e (List.mem_cons_of_mem _ he)⟩
      obtain ⟨i, u⟩ := e
      obtain ⟨j, v⟩ := f
      have key : i = j := by
        rcases Nat.lt_trichotomy i j with hlt | heq | hgt
        · have h1 := h i
          have hrest : ∀ e ∈ n, i < e.1 := fun e he => lt_trans hlt (hnf e he)
          simp [sparseGet, Nat.ne_of_gt hlt, below hrest] at h1
          exact absurd h1 (hm.2 (i, u) List.mem_cons_self).2
        · exact heq
        · have h1 := h j
          have hrest : ∀ e ∈ m, j < e.1 := fun e he => lt_trans hgt (hme e he)
          simp [sparseGet, Nat.ne_of_gt hgt, below hrest] at h1
          exact absurd h1.symm (hn.2 (j, v) List.mem_cons_self).2
      subst key
      have huv : u = v := by simpa [sparseGet] using h i
      subst huv
      congr 1
      refine ih hmwf hnwf fun k => ?_
      by_cases hk : i = k
      · subst hk
        rw [below hme, below hnf]
      · simpa [sparseGet, hk] using h k

/-! ## Main memory -/

@[simp] theorem Memory.read_write_self (m : Memory) (o : Nat) (v : Word) : (m.write o v).read o = v :=
  sparseGet_set_self _ m o v

theorem Memory.read_write_of_ne (m : Memory) {o p : Nat} (v : Word) (h : p ≠ o) : (m.write o v).read p = m.read p :=
  sparseGet_set_of_ne _ m v h

theorem Memory.read_write (m : Memory) (o p : Nat) (v : Word) :
    (m.write o v).read p = if p = o then v else m.read p :=
  sparseGet_set _ m o p v

theorem Memory.wf.write {memWords : Nat} {m : Memory} (h : m.wf memWords) {o : Nat} (ho : o < memWords) (v : Word) :
    (m.write o v).wf memWords :=
  SparseWf.set h ho v

/-- An image's words are listed at offsets from `o` up to its end. -/
theorem mem_imageFrom {ws : List Word} {o : Nat} {e : Nat × Word} (h : e ∈ imageFrom o ws) :
    o ≤ e.1 ∧ e.1 < o + ws.length ∧ e.2 ≠ Memory.unlisted := by
  induction ws generalizing o with
  | nil => simp [imageFrom] at h
  | cons w ws ih =>
    by_cases hw : w = Memory.unlisted
    · rw [imageFrom, if_pos hw] at h
      obtain ⟨h1, h2, h3⟩ := ih h
      simp only [List.length_cons]
      exact ⟨by omega, by omega, h3⟩
    · rw [imageFrom, if_neg hw] at h
      rcases List.mem_cons.mp h with rfl | h
      · simp only [List.length_cons]
        exact ⟨le_rfl, by omega, hw⟩
      · obtain ⟨h1, h2, h3⟩ := ih h
        simp only [List.length_cons]
        exact ⟨by omega, by omega, h3⟩

theorem imageFrom_pairwise (ws : List Word) (o : Nat) : (imageFrom o ws).Pairwise (fun e f => e.1 < f.1) := by
  induction ws generalizing o with
  | nil => simp [imageFrom]
  | cons w ws ih =>
    unfold imageFrom
    split
    · exact ih _
    · refine List.pairwise_cons.mpr ⟨fun e he => ?_, ih _⟩
      have := (mem_imageFrom he).1
      simp only
      omega

/-- The memory that a load leaves has the canonical form. -/
theorem Memory.wf.image {memWords : Nat} (ws : List Word) (h : ws.length ≤ memWords) :
    Memory.wf memWords (imageFrom 0 ws) := by
  refine ⟨imageFrom_pairwise ws 0, fun e he => ?_⟩
  have := mem_imageFrom he
  exact ⟨by omega, this.2.2⟩

theorem Memory.wf.reset (memWords : Nat) : Memory.wf memWords [] := ⟨List.Pairwise.nil, by simp⟩

/-! ## Cache lines -/

@[simp] theorem Lines.line_setLine_self (c : Lines) (i : Nat) (l : Line) : (c.setLine i l).line i = l :=
  sparseGet_set_self _ c i l

theorem Lines.line_setLine_of_ne (c : Lines) {i j : Nat} (l : Line) (h : j ≠ i) :
    (c.setLine i l).line j = c.line j :=
  sparseGet_set_of_ne _ c l h

theorem Lines.line_setLine (c : Lines) (i j : Nat) (l : Line) :
    (c.setLine i l).line j = if j = i then l else c.line j :=
  sparseGet_set _ c i j l

theorem Lines.wf.setLine {lines : Nat} {c : Lines} (h : c.wf lines) {i : Nat} (hi : i < lines) (l : Line) :
    (c.setLine i l).wf lines :=
  SparseWf.set h hi l

theorem Lines.wf.reset (lines : Nat) : Lines.wf lines [] := ⟨List.Pairwise.nil, by simp⟩

/-- What an index holds is the reset line or a listed one. -/
theorem Lines.line_eq_reset_or_mem (c : Lines) (i : Nat) : c.line i = .reset ∨ (i, c.line i) ∈ c := by
  unfold Lines.line
  induction c with
  | nil => exact .inl rfl
  | cons e c ih =>
    obtain ⟨j, l⟩ := e
    by_cases h : j = i
    · simp [sparseGet, h]
    · simpa [sparseGet, h, Ne.symm h] using ih

end Sys2Proof.Machine
end

