-- ==== Sys2Proof/Laws/State.lean ====
section
/-! SUPPORT. One lemma per field per named update of the state, so that no proof unfolds a record update. -/

namespace Sys2Proof.Machine

/-! ### `setReg` -/

@[simp] theorem setReg_cfg (s : State) (r : Reg) (v : Word) : (s.setReg r v).cfg = s.cfg := rfl
@[simp] theorem setReg_regs (s : State) (r : Reg) (v : Word) : (s.setReg r v).regs = s.regs.set r v r.isLt := rfl
@[simp] theorem setReg_pc (s : State) (r : Reg) (v : Word) : (s.setReg r v).pc = s.pc := rfl
@[simp] theorem setReg_cc (s : State) (r : Reg) (v : Word) : (s.setReg r v).cc = s.cc := rfl
@[simp] theorem setReg_ir (s : State) (r : Reg) (v : Word) : (s.setReg r v).ir = s.ir := rfl
@[simp] theorem setReg_mar (s : State) (r : Reg) (v : Word) : (s.setReg r v).mar = s.mar := rfl
@[simp] theorem setReg_mdr (s : State) (r : Reg) (v : Word) : (s.setReg r v).mdr = s.mdr := rfl
@[simp] theorem setReg_latch (s : State) (r : Reg) (v : Word) : (s.setReg r v).latch = s.latch := rfl
@[simp] theorem setReg_loaded (s : State) (r : Reg) (v : Word) : (s.setReg r v).loaded = s.loaded := rfl
@[simp] theorem setReg_halted (s : State) (r : Reg) (v : Word) : (s.setReg r v).halted = s.halted := rfl
@[simp] theorem setReg_fault (s : State) (r : Reg) (v : Word) : (s.setReg r v).fault = s.fault := rfl
@[simp] theorem setReg_loadBase (s : State) (r : Reg) (v : Word) : (s.setReg r v).loadBase = s.loadBase := rfl
@[simp] theorem setReg_ic (s : State) (r : Reg) (v : Word) : (s.setReg r v).ic = s.ic := rfl
@[simp] theorem setReg_dc (s : State) (r : Reg) (v : Word) : (s.setReg r v).dc = s.dc := rfl
@[simp] theorem setReg_mem (s : State) (r : Reg) (v : Word) : (s.setReg r v).mem = s.mem := rfl
@[simp] theorem setReg_bp (s : State) (r : Reg) (v : Word) : (s.setReg r v).bp = s.bp := rfl
@[simp] theorem setReg_trace (s : State) (r : Reg) (v : Word) : (s.setReg r v).trace = s.trace := rfl
@[simp] theorem setReg_console (s : State) (r : Reg) (v : Word) : (s.setReg r v).console = s.console := rfl
@[simp] theorem setReg_off (s : State) (r : Reg) (v : Word) (x : Word) : (s.setReg r v).off x = s.off x := rfl

/-! ### `setcc` -/

@[simp] theorem setcc_cfg (s : State) (v : Word) : (s.setcc v).cfg = s.cfg := rfl
@[simp] theorem setcc_regs (s : State) (v : Word) : (s.setcc v).regs = s.regs := rfl
@[simp] theorem setcc_pc (s : State) (v : Word) : (s.setcc v).pc = s.pc := rfl
@[simp] theorem setcc_cc (s : State) (v : Word) : (s.setcc v).cc = ccOf v := rfl
@[simp] theorem setcc_ir (s : State) (v : Word) : (s.setcc v).ir = s.ir := rfl
@[simp] theorem setcc_mar (s : State) (v : Word) : (s.setcc v).mar = s.mar := rfl
@[simp] theorem setcc_mdr (s : State) (v : Word) : (s.setcc v).mdr = s.mdr := rfl
@[simp] theorem setcc_latch (s : State) (v : Word) : (s.setcc v).latch = s.latch := rfl
@[simp] theorem setcc_loaded (s : State) (v : Word) : (s.setcc v).loaded = s.loaded := rfl
@[simp] theorem setcc_halted (s : State) (v : Word) : (s.setcc v).halted = s.halted := rfl
@[simp] theorem setcc_fault (s : State) (v : Word) : (s.setcc v).fault = s.fault := rfl
@[simp] theorem setcc_loadBase (s : State) (v : Word) : (s.setcc v).loadBase = s.loadBase := rfl
@[simp] theorem setcc_ic (s : State) (v : Word) : (s.setcc v).ic = s.ic := rfl
@[simp] theorem setcc_dc (s : State) (v : Word) : (s.setcc v).dc = s.dc := rfl
@[simp] theorem setcc_mem (s : State) (v : Word) : (s.setcc v).mem = s.mem := rfl
@[simp] theorem setcc_bp (s : State) (v : Word) : (s.setcc v).bp = s.bp := rfl
@[simp] theorem setcc_trace (s : State) (v : Word) : (s.setcc v).trace = s.trace := rfl
@[simp] theorem setcc_console (s : State) (v : Word) : (s.setcc v).console = s.console := rfl
@[simp] theorem setcc_reg (s : State) (v : Word) (r : Reg) : (s.setcc v).reg r = s.reg r := rfl
@[simp] theorem setcc_off (s : State) (v : Word) (x : Word) : (s.setcc v).off x = s.off x := rfl

/-! ### `setccIfAll` -/

@[simp] theorem setccIfAll_cfg (s : State) (v : Word) : (s.setccIfAll v).cfg = s.cfg := rfl
@[simp] theorem setccIfAll_regs (s : State) (v : Word) : (s.setccIfAll v).regs = s.regs := rfl
@[simp] theorem setccIfAll_pc (s : State) (v : Word) : (s.setccIfAll v).pc = s.pc := rfl
@[simp] theorem setccIfAll_cc (s : State) (v : Word) :
    (s.setccIfAll v).cc = bif s.cfg.ccOnAllRegWrites then ccOf v else s.cc := rfl
@[simp] theorem setccIfAll_ir (s : State) (v : Word) : (s.setccIfAll v).ir = s.ir := rfl
@[simp] theorem setccIfAll_mar (s : State) (v : Word) : (s.setccIfAll v).mar = s.mar := rfl
@[simp] theorem setccIfAll_mdr (s : State) (v : Word) : (s.setccIfAll v).mdr = s.mdr := rfl
@[simp] theorem setccIfAll_latch (s : State) (v : Word) : (s.setccIfAll v).latch = s.latch := rfl
@[simp] theorem setccIfAll_loaded (s : State) (v : Word) : (s.setccIfAll v).loaded = s.loaded := rfl
@[simp] theorem setccIfAll_halted (s : State) (v : Word) : (s.setccIfAll v).halted = s.halted := rfl
@[simp] theorem setccIfAll_fault (s : State) (v : Word) : (s.setccIfAll v).fault = s.fault := rfl
@[simp] theorem setccIfAll_loadBase (s : State) (v : Word) : (s.setccIfAll v).loadBase = s.loadBase := rfl
@[simp] theorem setccIfAll_ic (s : State) (v : Word) : (s.setccIfAll v).ic = s.ic := rfl
@[simp] theorem setccIfAll_dc (s : State) (v : Word) : (s.setccIfAll v).dc = s.dc := rfl
@[simp] theorem setccIfAll_mem (s : State) (v : Word) : (s.setccIfAll v).mem = s.mem := rfl
@[simp] theorem setccIfAll_bp (s : State) (v : Word) : (s.setccIfAll v).bp = s.bp := rfl
@[simp] theorem setccIfAll_trace (s : State) (v : Word) : (s.setccIfAll v).trace = s.trace := rfl
@[simp] theorem setccIfAll_console (s : State) (v : Word) : (s.setccIfAll v).console = s.console := rfl
@[simp] theorem setccIfAll_reg (s : State) (v : Word) (r : Reg) : (s.setccIfAll v).reg r = s.reg r := rfl
@[simp] theorem setccIfAll_off (s : State) (v : Word) (x : Word) : (s.setccIfAll v).off x = s.off x := rfl

/-! ### `latchOperands` -/

@[simp] theorem latchOperands_cfg (s : State) (a b : Word) : (s.latchOperands a b).cfg = s.cfg := rfl
@[simp] theorem latchOperands_regs (s : State) (a b : Word) : (s.latchOperands a b).regs = s.regs := rfl
@[simp] theorem latchOperands_pc (s : State) (a b : Word) : (s.latchOperands a b).pc = s.pc := rfl
@[simp] theorem latchOperands_cc (s : State) (a b : Word) : (s.latchOperands a b).cc = s.cc := rfl
@[simp] theorem latchOperands_ir (s : State) (a b : Word) : (s.latchOperands a b).ir = s.ir := rfl
@[simp] theorem latchOperands_mar (s : State) (a b : Word) : (s.latchOperands a b).mar = s.mar := rfl
@[simp] theorem latchOperands_mdr (s : State) (a b : Word) : (s.latchOperands a b).mdr = s.mdr := rfl
@[simp] theorem latchOperands_latch (s : State) (a b : Word) :
    (s.latchOperands a b).latch = { s.latch with opA := a, opB := b } := rfl
@[simp] theorem latchOperands_loaded (s : State) (a b : Word) : (s.latchOperands a b).loaded = s.loaded := rfl
@[simp] theorem latchOperands_halted (s : State) (a b : Word) : (s.latchOperands a b).halted = s.halted := rfl
@[simp] theorem latchOperands_fault (s : State) (a b : Word) : (s.latchOperands a b).fault = s.fault := rfl
@[simp] theorem latchOperands_loadBase (s : State) (a b : Word) : (s.latchOperands a b).loadBase = s.loadBase := rfl
@[simp] theorem latchOperands_ic (s : State) (a b : Word) : (s.latchOperands a b).ic = s.ic := rfl
@[simp] theorem latchOperands_dc (s : State) (a b : Word) : (s.latchOperands a b).dc = s.dc := rfl
@[simp] theorem latchOperands_mem (s : State) (a b : Word) : (s.latchOperands a b).mem = s.mem := rfl
@[simp] theorem latchOperands_bp (s : State) (a b : Word) : (s.latchOperands a b).bp = s.bp := rfl
@[simp] theorem latchOperands_trace (s : State) (a b : Word) : (s.latchOperands a b).trace = s.trace := rfl
@[simp] theorem latchOperands_console (s : State) (a b : Word) : (s.latchOperands a b).console = s.console := rfl
@[simp] theorem latchOperands_reg (s : State) (a b : Word) (r : Reg) : (s.latchOperands a b).reg r = s.reg r := rfl
@[simp] theorem latchOperands_off (s : State) (a b : Word) (x : Word) : (s.latchOperands a b).off x = s.off x := rfl

/-! ### `latchOperandA` -/

@[simp] theorem latchOperandA_cfg (s : State) (a : Word) : (s.latchOperandA a).cfg = s.cfg := rfl
@[simp] theorem latchOperandA_regs (s : State) (a : Word) : (s.latchOperandA a).regs = s.regs := rfl
@[simp] theorem latchOperandA_pc (s : State) (a : Word) : (s.latchOperandA a).pc = s.pc := rfl
@[simp] theorem latchOperandA_cc (s : State) (a : Word) : (s.latchOperandA a).cc = s.cc := rfl
@[simp] theorem latchOperandA_ir (s : State) (a : Word) : (s.latchOperandA a).ir = s.ir := rfl
@[simp] theorem latchOperandA_mar (s : State) (a : Word) : (s.latchOperandA a).mar = s.mar := rfl
@[simp] theorem latchOperandA_mdr (s : State) (a : Word) : (s.latchOperandA a).mdr = s.mdr := rfl
@[simp] theorem latchOperandA_latch (s : State) (a : Word) :
    (s.latchOperandA a).latch = { s.latch with opA := a } := rfl
@[simp] theorem latchOperandA_loaded (s : State) (a : Word) : (s.latchOperandA a).loaded = s.loaded := rfl
@[simp] theorem latchOperandA_halted (s : State) (a : Word) : (s.latchOperandA a).halted = s.halted := rfl
@[simp] theorem latchOperandA_fault (s : State) (a : Word) : (s.latchOperandA a).fault = s.fault := rfl
@[simp] theorem latchOperandA_loadBase (s : State) (a : Word) : (s.latchOperandA a).loadBase = s.loadBase := rfl
@[simp] theorem latchOperandA_ic (s : State) (a : Word) : (s.latchOperandA a).ic = s.ic := rfl
@[simp] theorem latchOperandA_dc (s : State) (a : Word) : (s.latchOperandA a).dc = s.dc := rfl
@[simp] theorem latchOperandA_mem (s : State) (a : Word) : (s.latchOperandA a).mem = s.mem := rfl
@[simp] theorem latchOperandA_bp (s : State) (a : Word) : (s.latchOperandA a).bp = s.bp := rfl
@[simp] theorem latchOperandA_trace (s : State) (a : Word) : (s.latchOperandA a).trace = s.trace := rfl
@[simp] theorem latchOperandA_console (s : State) (a : Word) : (s.latchOperandA a).console = s.console := rfl
@[simp] theorem latchOperandA_reg (s : State) (a : Word) (r : Reg) : (s.latchOperandA a).reg r = s.reg r := rfl
@[simp] theorem latchOperandA_off (s : State) (a : Word) (x : Word) : (s.latchOperandA a).off x = s.off x := rfl

/-! ### `latchEa` -/

@[simp] theorem latchEa_cfg (s : State) (a : Word) : (s.latchEa a).cfg = s.cfg := rfl
@[simp] theorem latchEa_regs (s : State) (a : Word) : (s.latchEa a).regs = s.regs := rfl
@[simp] theorem latchEa_pc (s : State) (a : Word) : (s.latchEa a).pc = s.pc := rfl
@[simp] theorem latchEa_cc (s : State) (a : Word) : (s.latchEa a).cc = s.cc := rfl
@[simp] theorem latchEa_ir (s : State) (a : Word) : (s.latchEa a).ir = s.ir := rfl
@[simp] theorem latchEa_mar (s : State) (a : Word) : (s.latchEa a).mar = s.mar := rfl
@[simp] theorem latchEa_mdr (s : State) (a : Word) : (s.latchEa a).mdr = s.mdr := rfl
@[simp] theorem latchEa_latch (s : State) (a : Word) : (s.latchEa a).latch = { s.latch with ea := a } := rfl
@[simp] theorem latchEa_loaded (s : State) (a : Word) : (s.latchEa a).loaded = s.loaded := rfl
@[simp] theorem latchEa_halted (s : State) (a : Word) : (s.latchEa a).halted = s.halted := rfl
@[simp] theorem latchEa_fault (s : State) (a : Word) : (s.latchEa a).fault = s.fault := rfl
@[simp] theorem latchEa_loadBase (s : State) (a : Word) : (s.latchEa a).loadBase = s.loadBase := rfl
@[simp] theorem latchEa_ic (s : State) (a : Word) : (s.latchEa a).ic = s.ic := rfl
@[simp] theorem latchEa_dc (s : State) (a : Word) : (s.latchEa a).dc = s.dc := rfl
@[simp] theorem latchEa_mem (s : State) (a : Word) : (s.latchEa a).mem = s.mem := rfl
@[simp] theorem latchEa_bp (s : State) (a : Word) : (s.latchEa a).bp = s.bp := rfl
@[simp] theorem latchEa_trace (s : State) (a : Word) : (s.latchEa a).trace = s.trace := rfl
@[simp] theorem latchEa_console (s : State) (a : Word) : (s.latchEa a).console = s.console := rfl
@[simp] theorem latchEa_reg (s : State) (a : Word) (r : Reg) : (s.latchEa a).reg r = s.reg r := rfl
@[simp] theorem latchEa_off (s : State) (a : Word) (x : Word) : (s.latchEa a).off x = s.off x := rfl

/-! ### `evalVector` -/

@[simp] theorem evalVector_cfg (s : State) (v : BitVec 8) : (s.evalVector v).cfg = s.cfg := rfl
@[simp] theorem evalVector_regs (s : State) (v : BitVec 8) : (s.evalVector v).regs = s.regs := rfl
@[simp] theorem evalVector_pc (s : State) (v : BitVec 8) : (s.evalVector v).pc = s.pc := rfl
@[simp] theorem evalVector_cc (s : State) (v : BitVec 8) : (s.evalVector v).cc = s.cc := rfl
@[simp] theorem evalVector_ir (s : State) (v : BitVec 8) : (s.evalVector v).ir = s.ir := rfl
@[simp] theorem evalVector_mar (s : State) (v : BitVec 8) : (s.evalVector v).mar = s.mar := rfl
@[simp] theorem evalVector_mdr (s : State) (v : BitVec 8) : (s.evalVector v).mdr = s.mdr := rfl
@[simp] theorem evalVector_latch (s : State) (v : BitVec 8) :
    (s.evalVector v).latch = { s.latch with ea := zext v } := rfl
@[simp] theorem evalVector_loaded (s : State) (v : BitVec 8) : (s.evalVector v).loaded = s.loaded := rfl
@[simp] theorem evalVector_halted (s : State) (v : BitVec 8) : (s.evalVector v).halted = s.halted := rfl
@[simp] theorem evalVector_fault (s : State) (v : BitVec 8) : (s.evalVector v).fault = s.fault := rfl
@[simp] theorem evalVector_loadBase (s : State) (v : BitVec 8) : (s.evalVector v).loadBase = s.loadBase := rfl
@[simp] theorem evalVector_ic (s : State) (v : BitVec 8) : (s.evalVector v).ic = s.ic := rfl
@[simp] theorem evalVector_dc (s : State) (v : BitVec 8) : (s.evalVector v).dc = s.dc := rfl
@[simp] theorem evalVector_mem (s : State) (v : BitVec 8) : (s.evalVector v).mem = s.mem := rfl
@[simp] theorem evalVector_bp (s : State) (v : BitVec 8) : (s.evalVector v).bp = s.bp := rfl
@[simp] theorem evalVector_trace (s : State) (v : BitVec 8) : (s.evalVector v).trace = s.trace := rfl
@[simp] theorem evalVector_console (s : State) (v : BitVec 8) : (s.evalVector v).console = s.console := rfl
@[simp] theorem evalVector_reg (s : State) (v : BitVec 8) (r : Reg) : (s.evalVector v).reg r = s.reg r := rfl
@[simp] theorem evalVector_off (s : State) (v : BitVec 8) (x : Word) : (s.evalVector v).off x = s.off x := rfl

/-! ### `memWrite` -/

@[simp] theorem memWrite_cfg (s : State) (a v : Word) : (s.memWrite a v).cfg = s.cfg := rfl
@[simp] theorem memWrite_regs (s : State) (a v : Word) : (s.memWrite a v).regs = s.regs := rfl
@[simp] theorem memWrite_pc (s : State) (a v : Word) : (s.memWrite a v).pc = s.pc := rfl
@[simp] theorem memWrite_cc (s : State) (a v : Word) : (s.memWrite a v).cc = s.cc := rfl
@[simp] theorem memWrite_ir (s : State) (a v : Word) : (s.memWrite a v).ir = s.ir := rfl
@[simp] theorem memWrite_mar (s : State) (a v : Word) : (s.memWrite a v).mar = s.mar := rfl
@[simp] theorem memWrite_mdr (s : State) (a v : Word) : (s.memWrite a v).mdr = s.mdr := rfl
@[simp] theorem memWrite_latch (s : State) (a v : Word) : (s.memWrite a v).latch = s.latch := rfl
@[simp] theorem memWrite_loaded (s : State) (a v : Word) : (s.memWrite a v).loaded = s.loaded := rfl
@[simp] theorem memWrite_halted (s : State) (a v : Word) : (s.memWrite a v).halted = s.halted := rfl
@[simp] theorem memWrite_fault (s : State) (a v : Word) : (s.memWrite a v).fault = s.fault := rfl
@[simp] theorem memWrite_loadBase (s : State) (a v : Word) : (s.memWrite a v).loadBase = s.loadBase := rfl
@[simp] theorem memWrite_ic (s : State) (a v : Word) : (s.memWrite a v).ic = s.ic := rfl
@[simp] theorem memWrite_dc (s : State) (a v : Word) : (s.memWrite a v).dc = s.dc := rfl
@[simp] theorem memWrite_mem (s : State) (a v : Word) : (s.memWrite a v).mem = s.mem.write (s.off a) v := rfl
@[simp] theorem memWrite_bp (s : State) (a v : Word) : (s.memWrite a v).bp = s.bp := rfl
@[simp] theorem memWrite_trace (s : State) (a v : Word) : (s.memWrite a v).trace = s.trace := rfl
@[simp] theorem memWrite_console (s : State) (a v : Word) : (s.memWrite a v).console = s.console := rfl
@[simp] theorem memWrite_reg (s : State) (a v : Word) (r : Reg) : (s.memWrite a v).reg r = s.reg r := rfl
@[simp] theorem memWrite_off (s : State) (a v : Word) (x : Word) : (s.memWrite a v).off x = s.off x := rfl

/-! ### `emit` -/

@[simp] theorem emit_cfg (s : State) (e : Event) : (s.emit e).cfg = s.cfg := rfl
@[simp] theorem emit_regs (s : State) (e : Event) : (s.emit e).regs = s.regs := rfl
@[simp] theorem emit_pc (s : State) (e : Event) : (s.emit e).pc = s.pc := rfl
@[simp] theorem emit_cc (s : State) (e : Event) : (s.emit e).cc = s.cc := rfl
@[simp] theorem emit_ir (s : State) (e : Event) : (s.emit e).ir = s.ir := rfl
@[simp] theorem emit_mar (s : State) (e : Event) : (s.emit e).mar = s.mar := rfl
@[simp] theorem emit_mdr (s : State) (e : Event) : (s.emit e).mdr = s.mdr := rfl
@[simp] theorem emit_latch (s : State) (e : Event) : (s.emit e).latch = s.latch := rfl
@[simp] theorem emit_loaded (s : State) (e : Event) : (s.emit e).loaded = s.loaded := rfl
@[simp] theorem emit_halted (s : State) (e : Event) : (s.emit e).halted = s.halted := rfl
@[simp] theorem emit_fault (s : State) (e : Event) : (s.emit e).fault = s.fault := rfl
@[simp] theorem emit_loadBase (s : State) (e : Event) : (s.emit e).loadBase = s.loadBase := rfl
@[simp] theorem emit_ic (s : State) (e : Event) : (s.emit e).ic = s.ic := rfl
@[simp] theorem emit_dc (s : State) (e : Event) : (s.emit e).dc = s.dc := rfl
@[simp] theorem emit_mem (s : State) (e : Event) : (s.emit e).mem = s.mem := rfl
@[simp] theorem emit_bp (s : State) (e : Event) : (s.emit e).bp = s.bp := rfl
@[simp] theorem emit_trace (s : State) (e : Event) : (s.emit e).trace = s.trace ++ [e] := rfl
@[simp] theorem emit_console (s : State) (e : Event) : (s.emit e).console = s.console := rfl
@[simp] theorem emit_reg (s : State) (e : Event) (r : Reg) : (s.emit e).reg r = s.reg r := rfl
@[simp] theorem emit_off (s : State) (e : Event) (x : Word) : (s.emit e).off x = s.off x := rfl

/-! ### `consoleOut` -/

@[simp] theorem consoleOut_cfg (s : State) (b : Byte) : (s.consoleOut b).cfg = s.cfg := rfl
@[simp] theorem consoleOut_regs (s : State) (b : Byte) : (s.consoleOut b).regs = s.regs := rfl
@[simp] theorem consoleOut_pc (s : State) (b : Byte) : (s.consoleOut b).pc = s.pc := rfl
@[simp] theorem consoleOut_cc (s : State) (b : Byte) : (s.consoleOut b).cc = s.cc := rfl
@[simp] theorem consoleOut_ir (s : State) (b : Byte) : (s.consoleOut b).ir = s.ir := rfl
@[simp] theorem consoleOut_mar (s : State) (b : Byte) : (s.consoleOut b).mar = s.mar := rfl
@[simp] theorem consoleOut_mdr (s : State) (b : Byte) : (s.consoleOut b).mdr = s.mdr := rfl
@[simp] theorem consoleOut_latch (s : State) (b : Byte) : (s.consoleOut b).latch = s.latch := rfl
@[simp] theorem consoleOut_loaded (s : State) (b : Byte) : (s.consoleOut b).loaded = s.loaded := rfl
@[simp] theorem consoleOut_halted (s : State) (b : Byte) : (s.consoleOut b).halted = s.halted := rfl
@[simp] theorem consoleOut_fault (s : State) (b : Byte) : (s.consoleOut b).fault = s.fault := rfl
@[simp] theorem consoleOut_loadBase (s : State) (b : Byte) : (s.consoleOut b).loadBase = s.loadBase := rfl
@[simp] theorem consoleOut_ic (s : State) (b : Byte) : (s.consoleOut b).ic = s.ic := rfl
@[simp] theorem consoleOut_dc (s : State) (b : Byte) : (s.consoleOut b).dc = s.dc := rfl
@[simp] theorem consoleOut_mem (s : State) (b : Byte) : (s.consoleOut b).mem = s.mem := rfl
@[simp] theorem consoleOut_bp (s : State) (b : Byte) : (s.consoleOut b).bp = s.bp := rfl
@[simp] theorem consoleOut_trace (s : State) (b : Byte) : (s.consoleOut b).trace = s.trace := rfl
@[simp] theorem consoleOut_console (s : State) (b : Byte) :
    (s.consoleOut b).console = { s.console with output := s.console.output ++ [b] } := rfl
@[simp] theorem consoleOut_reg (s : State) (b : Byte) (r : Reg) : (s.consoleOut b).reg r = s.reg r := rfl
@[simp] theorem consoleOut_off (s : State) (b : Byte) (x : Word) : (s.consoleOut b).off x = s.off x := rfl

/-! ### `dropInput` -/

@[simp] theorem dropInput_cfg (s : State) : (s.dropInput).cfg = s.cfg := rfl
@[simp] theorem dropInput_regs (s : State) : (s.dropInput).regs = s.regs := rfl
@[simp] theorem dropInput_pc (s : State) : (s.dropInput).pc = s.pc := rfl
@[simp] theorem dropInput_cc (s : State) : (s.dropInput).cc = s.cc := rfl
@[simp] theorem dropInput_ir (s : State) : (s.dropInput).ir = s.ir := rfl
@[simp] theorem dropInput_mar (s : State) : (s.dropInput).mar = s.mar := rfl
@[simp] theorem dropInput_mdr (s : State) : (s.dropInput).mdr = s.mdr := rfl
@[simp] theorem dropInput_latch (s : State) : (s.dropInput).latch = s.latch := rfl
@[simp] theorem dropInput_loaded (s : State) : (s.dropInput).loaded = s.loaded := rfl
@[simp] theorem dropInput_halted (s : State) : (s.dropInput).halted = s.halted := rfl
@[simp] theorem dropInput_fault (s : State) : (s.dropInput).fault = s.fault := rfl
@[simp] theorem dropInput_loadBase (s : State) : (s.dropInput).loadBase = s.loadBase := rfl
@[simp] theorem dropInput_ic (s : State) : (s.dropInput).ic = s.ic := rfl
@[simp] theorem dropInput_dc (s : State) : (s.dropInput).dc = s.dc := rfl
@[simp] theorem dropInput_mem (s : State) : (s.dropInput).mem = s.mem := rfl
@[simp] theorem dropInput_bp (s : State) : (s.dropInput).bp = s.bp := rfl
@[simp] theorem dropInput_trace (s : State) : (s.dropInput).trace = s.trace := rfl
@[simp] theorem dropInput_console (s : State) :
    (s.dropInput).console = { s.console with input := s.console.input.tail } := rfl
@[simp] theorem dropInput_reg (s : State) (r : Reg) : (s.dropInput).reg r = s.reg r := rfl
@[simp] theorem dropInput_off (s : State) (x : Word) : (s.dropInput).off x = s.off x := rfl

/-! ### `setPhase` -/

@[simp] theorem setPhase_cfg (s : State) (p : Phase) : (s.setPhase p).cfg = s.cfg := rfl
@[simp] theorem setPhase_regs (s : State) (p : Phase) : (s.setPhase p).regs = s.regs := rfl
@[simp] theorem setPhase_pc (s : State) (p : Phase) : (s.setPhase p).pc = s.pc := rfl
@[simp] theorem setPhase_cc (s : State) (p : Phase) : (s.setPhase p).cc = s.cc := rfl
@[simp] theorem setPhase_ir (s : State) (p : Phase) : (s.setPhase p).ir = s.ir := rfl
@[simp] theorem setPhase_mar (s : State) (p : Phase) : (s.setPhase p).mar = s.mar := rfl
@[simp] theorem setPhase_mdr (s : State) (p : Phase) : (s.setPhase p).mdr = s.mdr := rfl
@[simp] theorem setPhase_latch (s : State) (p : Phase) : (s.setPhase p).latch = { s.latch with phase := p } := rfl
@[simp] theorem setPhase_loaded (s : State) (p : Phase) : (s.setPhase p).loaded = s.loaded := rfl
@[simp] theorem setPhase_halted (s : State) (p : Phase) : (s.setPhase p).halted = s.halted := rfl
@[simp] theorem setPhase_fault (s : State) (p : Phase) : (s.setPhase p).fault = s.fault := rfl
@[simp] theorem setPhase_loadBase (s : State) (p : Phase) : (s.setPhase p).loadBase = s.loadBase := rfl
@[simp] theorem setPhase_ic (s : State) (p : Phase) : (s.setPhase p).ic = s.ic := rfl
@[simp] theorem setPhase_dc (s : State) (p : Phase) : (s.setPhase p).dc = s.dc := rfl
@[simp] theorem setPhase_mem (s : State) (p : Phase) : (s.setPhase p).mem = s.mem := rfl
@[simp] theorem setPhase_bp (s : State) (p : Phase) : (s.setPhase p).bp = s.bp := rfl
@[simp] theorem setPhase_trace (s : State) (p : Phase) : (s.setPhase p).trace = s.trace := rfl
@[simp] theorem setPhase_console (s : State) (p : Phase) : (s.setPhase p).console = s.console := rfl
@[simp] theorem setPhase_reg (s : State) (p : Phase) (r : Reg) : (s.setPhase p).reg r = s.reg r := rfl
@[simp] theorem setPhase_off (s : State) (p : Phase) (x : Word) : (s.setPhase p).off x = s.off x := rfl

/-! ### `takeFault` -/

@[simp] theorem takeFault_cfg (s : State) (now : State) (a : Word) : (takeFault s now a).cfg = s.cfg := rfl
@[simp] theorem takeFault_regs (s : State) (now : State) (a : Word) : (takeFault s now a).regs = s.regs := rfl
@[simp] theorem takeFault_pc (s : State) (now : State) (a : Word) : (takeFault s now a).pc = s.pc := rfl
@[simp] theorem takeFault_cc (s : State) (now : State) (a : Word) : (takeFault s now a).cc = s.cc := rfl
@[simp] theorem takeFault_ir (s : State) (now : State) (a : Word) : (takeFault s now a).ir = s.ir := rfl
@[simp] theorem takeFault_mar (s : State) (now : State) (a : Word) : (takeFault s now a).mar = s.mar := rfl
@[simp] theorem takeFault_mdr (s : State) (now : State) (a : Word) : (takeFault s now a).mdr = s.mdr := rfl
@[simp] theorem takeFault_latch (s : State) (now : State) (a : Word) : (takeFault s now a).latch = s.latch := rfl
@[simp] theorem takeFault_loaded (s : State) (now : State) (a : Word) : (takeFault s now a).loaded = s.loaded := rfl
@[simp] theorem takeFault_halted (s : State) (now : State) (a : Word) : (takeFault s now a).halted = s.halted := rfl
@[simp] theorem takeFault_fault (s : State) (now : State) (a : Word) :
    (takeFault s now a).fault = some (.outOfRange a) := rfl
@[simp] theorem takeFault_loadBase (s : State) (now : State) (a : Word) :
    (takeFault s now a).loadBase = s.loadBase := rfl
@[simp] theorem takeFault_ic (s : State) (now : State) (a : Word) : (takeFault s now a).ic = s.ic := rfl
@[simp] theorem takeFault_dc (s : State) (now : State) (a : Word) : (takeFault s now a).dc = s.dc := rfl
@[simp] theorem takeFault_mem (s : State) (now : State) (a : Word) : (takeFault s now a).mem = s.mem := rfl
@[simp] theorem takeFault_bp (s : State) (now : State) (a : Word) : (takeFault s now a).bp = s.bp := rfl
@[simp] theorem takeFault_trace (s : State) (now : State) (a : Word) : (takeFault s now a).trace = s.trace := rfl
@[simp] theorem takeFault_console (s : State) (now : State) (a : Word) :
    (takeFault s now a).console = now.console := rfl
@[simp] theorem takeFault_reg (s : State) (now : State) (a : Word) (r : Reg) :
    (takeFault s now a).reg r = s.reg r := rfl
@[simp] theorem takeFault_off (s : State) (now : State) (a : Word) (x : Word) :
    (takeFault s now a).off x = s.off x := rfl

/-- Only the last phase that is written stays. -/
@[simp] theorem setPhase_setPhase (s : State) (p q : Phase) : (s.setPhase p).setPhase q = s.setPhase q := rfl

/-! ### `latchDecode` -/

@[simp] theorem latchDecode_cfg (s : State) : s.latchDecode.cfg = s.cfg := rfl
@[simp] theorem latchDecode_regs (s : State) : s.latchDecode.regs = s.regs := rfl
@[simp] theorem latchDecode_pc (s : State) : s.latchDecode.pc = s.pc := rfl
@[simp] theorem latchDecode_cc (s : State) : s.latchDecode.cc = s.cc := rfl
@[simp] theorem latchDecode_ir (s : State) : s.latchDecode.ir = s.ir := rfl
@[simp] theorem latchDecode_mar (s : State) : s.latchDecode.mar = s.mar := rfl
@[simp] theorem latchDecode_mdr (s : State) : s.latchDecode.mdr = s.mdr := rfl
@[simp] theorem latchDecode_loaded (s : State) : s.latchDecode.loaded = s.loaded := rfl
@[simp] theorem latchDecode_halted (s : State) : s.latchDecode.halted = s.halted := rfl
@[simp] theorem latchDecode_fault (s : State) : s.latchDecode.fault = s.fault := rfl
@[simp] theorem latchDecode_loadBase (s : State) : s.latchDecode.loadBase = s.loadBase := rfl
@[simp] theorem latchDecode_ic (s : State) : s.latchDecode.ic = s.ic := rfl
@[simp] theorem latchDecode_dc (s : State) : s.latchDecode.dc = s.dc := rfl
@[simp] theorem latchDecode_mem (s : State) : s.latchDecode.mem = s.mem := rfl
@[simp] theorem latchDecode_bp (s : State) : s.latchDecode.bp = s.bp := rfl
@[simp] theorem latchDecode_trace (s : State) : s.latchDecode.trace = s.trace := rfl
@[simp] theorem latchDecode_console (s : State) : s.latchDecode.console = s.console := rfl
@[simp] theorem latchDecode_reg (s : State) (r : Reg) : s.latchDecode.reg r = s.reg r := rfl
@[simp] theorem latchDecode_phase (s : State) : s.latchDecode.latch.phase = .decode := rfl

/-! ### `setLines` and `setLineAt` -/

@[simp] theorem setLines_cfg (s : State) (c : CacheId) (l : Lines) : (s.setLines c l).cfg = s.cfg := by
  cases c <;> rfl
@[simp] theorem setLineAt_cfg (s : State) (c : CacheId) (a : Word) (l : Line) : (s.setLineAt c a l).cfg = s.cfg := by
  cases c <;> rfl
@[simp] theorem setLines_regs (s : State) (c : CacheId) (l : Lines) : (s.setLines c l).regs = s.regs := by
  cases c <;> rfl
@[simp]
theorem setLineAt_regs (s : State) (c : CacheId) (a : Word) (l : Line) : (s.setLineAt c a l).regs = s.regs := by
  cases c <;> rfl
@[simp] theorem setLines_pc (s : State) (c : CacheId) (l : Lines) : (s.setLines c l).pc = s.pc := by cases c <;> rfl
@[simp] theorem setLineAt_pc (s : State) (c : CacheId) (a : Word) (l : Line) : (s.setLineAt c a l).pc = s.pc := by
  cases c <;> rfl
@[simp] theorem setLines_cc (s : State) (c : CacheId) (l : Lines) : (s.setLines c l).cc = s.cc := by cases c <;> rfl
@[simp] theorem setLineAt_cc (s : State) (c : CacheId) (a : Word) (l : Line) : (s.setLineAt c a l).cc = s.cc := by
  cases c <;> rfl
@[simp] theorem setLines_ir (s : State) (c : CacheId) (l : Lines) : (s.setLines c l).ir = s.ir := by cases c <;> rfl
@[simp] theorem setLineAt_ir (s : State) (c : CacheId) (a : Word) (l : Line) : (s.setLineAt c a l).ir = s.ir := by
  cases c <;> rfl
@[simp] theorem setLines_mar (s : State) (c : CacheId) (l : Lines) : (s.setLines c l).mar = s.mar := by
  cases c <;> rfl
@[simp] theorem setLineAt_mar (s : State) (c : CacheId) (a : Word) (l : Line) : (s.setLineAt c a l).mar = s.mar := by
  cases c <;> rfl
@[simp] theorem setLines_mdr (s : State) (c : CacheId) (l : Lines) : (s.setLines c l).mdr = s.mdr := by
  cases c <;> rfl
@[simp] theorem setLineAt_mdr (s : State) (c : CacheId) (a : Word) (l : Line) : (s.setLineAt c a l).mdr = s.mdr := by
  cases c <;> rfl
@[simp] theorem setLines_latch (s : State) (c : CacheId) (l : Lines) : (s.setLines c l).latch = s.latch := by
  cases c <;> rfl
@[simp]
theorem setLineAt_latch (s : State) (c : CacheId) (a : Word) (l : Line) : (s.setLineAt c a l).latch = s.latch := by
  cases c <;> rfl
@[simp] theorem setLines_loaded (s : State) (c : CacheId) (l : Lines) : (s.setLines c l).loaded = s.loaded := by
  cases c <;> rfl
@[simp]
theorem setLineAt_loaded (s : State) (c : CacheId) (a : Word) (l : Line) : (s.setLineAt c a l).loaded = s.loaded := by
  cases c <;> rfl
@[simp] theorem setLines_halted (s : State) (c : CacheId) (l : Lines) : (s.setLines c l).halted = s.halted := by
  cases c <;> rfl
@[simp]
theorem setLineAt_halted (s : State) (c : CacheId) (a : Word) (l : Line) : (s.setLineAt c a l).halted = s.halted := by
  cases c <;> rfl
@[simp] theorem setLines_fault (s : State) (c : CacheId) (l : Lines) : (s.setLines c l).fault = s.fault := by
  cases c <;> rfl
@[simp]
theorem setLineAt_fault (s : State) (c : CacheId) (a : Word) (l : Line) : (s.setLineAt c a l).fault = s.fault := by
  cases c <;> rfl
@[simp] theorem setLines_loadBase (s : State) (c : CacheId) (l : Lines) : (s.setLines c l).loadBase = s.loadBase := by
  cases c <;> rfl
@[simp]
theorem setLineAt_loadBase (s : State) (c : CacheId) (a : Word) (l : Line) : (s.setLineAt c a l).loadBase = s.loadBase := by
  cases c <;> rfl
@[simp] theorem setLines_mem (s : State) (c : CacheId) (l : Lines) : (s.setLines c l).mem = s.mem := by
  cases c <;> rfl
@[simp] theorem setLineAt_mem (s : State) (c : CacheId) (a : Word) (l : Line) : (s.setLineAt c a l).mem = s.mem := by
  cases c <;> rfl
@[simp] theorem setLines_bp (s : State) (c : CacheId) (l : Lines) : (s.setLines c l).bp = s.bp := by cases c <;> rfl
@[simp] theorem setLineAt_bp (s : State) (c : CacheId) (a : Word) (l : Line) : (s.setLineAt c a l).bp = s.bp := by
  cases c <;> rfl
@[simp] theorem setLines_trace (s : State) (c : CacheId) (l : Lines) : (s.setLines c l).trace = s.trace := by
  cases c <;> rfl
@[simp]
theorem setLineAt_trace (s : State) (c : CacheId) (a : Word) (l : Line) : (s.setLineAt c a l).trace = s.trace := by
  cases c <;> rfl
@[simp] theorem setLines_console (s : State) (c : CacheId) (l : Lines) : (s.setLines c l).console = s.console := by
  cases c <;> rfl
@[simp]
theorem setLineAt_console (s : State) (c : CacheId) (a : Word) (l : Line) : (s.setLineAt c a l).console = s.console := by
  cases c <;> rfl

/-! ### The cache accesses: what they never change -/

@[simp] theorem writeBack_cfg (s : State) (c : CacheId) (a : Word) : (s.writeBack c a).cfg = s.cfg := by
  unfold State.writeBack; split <;> simp
@[simp] theorem writeBack_regs (s : State) (c : CacheId) (a : Word) : (s.writeBack c a).regs = s.regs := by
  unfold State.writeBack; split <;> simp
@[simp] theorem writeBack_pc (s : State) (c : CacheId) (a : Word) : (s.writeBack c a).pc = s.pc := by
  unfold State.writeBack; split <;> simp
@[simp] theorem writeBack_cc (s : State) (c : CacheId) (a : Word) : (s.writeBack c a).cc = s.cc := by
  unfold State.writeBack; split <;> simp
@[simp] theorem writeBack_ir (s : State) (c : CacheId) (a : Word) : (s.writeBack c a).ir = s.ir := by
  unfold State.writeBack; split <;> simp
@[simp] theorem writeBack_mar (s : State) (c : CacheId) (a : Word) : (s.writeBack c a).mar = s.mar := by
  unfold State.writeBack; split <;> simp
@[simp] theorem writeBack_mdr (s : State) (c : CacheId) (a : Word) : (s.writeBack c a).mdr = s.mdr := by
  unfold State.writeBack; split <;> simp
@[simp] theorem writeBack_latch (s : State) (c : CacheId) (a : Word) : (s.writeBack c a).latch = s.latch := by
  unfold State.writeBack; split <;> simp
@[simp] theorem writeBack_loaded (s : State) (c : CacheId) (a : Word) : (s.writeBack c a).loaded = s.loaded := by
  unfold State.writeBack; split <;> simp
@[simp] theorem writeBack_halted (s : State) (c : CacheId) (a : Word) : (s.writeBack c a).halted = s.halted := by
  unfold State.writeBack; split <;> simp
@[simp] theorem writeBack_fault (s : State) (c : CacheId) (a : Word) : (s.writeBack c a).fault = s.fault := by
  unfold State.writeBack; split <;> simp
@[simp]
theorem writeBack_loadBase (s : State) (c : CacheId) (a : Word) : (s.writeBack c a).loadBase = s.loadBase := by
  unfold State.writeBack; split <;> simp
@[simp] theorem writeBack_bp (s : State) (c : CacheId) (a : Word) : (s.writeBack c a).bp = s.bp := by
  unfold State.writeBack; split <;> simp
@[simp] theorem writeBack_console (s : State) (c : CacheId) (a : Word) : (s.writeBack c a).console = s.console := by
  unfold State.writeBack; split <;> simp
@[simp] theorem writeBack_trace (s : State) (c : CacheId) (a : Word) : (s.writeBack c a).trace = s.trace := by
  unfold State.writeBack; split <;> simp
@[simp] theorem afterRead_cfg (s : State) (c : CacheId) (a : Word) : (s.afterRead c a).cfg = s.cfg := by
  unfold State.afterRead; dsimp only; split <;> simp
@[simp] theorem afterRead_regs (s : State) (c : CacheId) (a : Word) : (s.afterRead c a).regs = s.regs := by
  unfold State.afterRead; dsimp only; split <;> simp
@[simp] theorem afterRead_pc (s : State) (c : CacheId) (a : Word) : (s.afterRead c a).pc = s.pc := by
  unfold State.afterRead; dsimp only; split <;> simp
@[simp] theorem afterRead_cc (s : State) (c : CacheId) (a : Word) : (s.afterRead c a).cc = s.cc := by
  unfold State.afterRead; dsimp only; split <;> simp
@[simp] theorem afterRead_ir (s : State) (c : CacheId) (a : Word) : (s.afterRead c a).ir = s.ir := by
  unfold State.afterRead; dsimp only; split <;> simp
@[simp] theorem afterRead_mar (s : State) (c : CacheId) (a : Word) : (s.afterRead c a).mar = s.mar := by
  unfold State.afterRead; dsimp only; split <;> simp
@[simp] theorem afterRead_mdr (s : State) (c : CacheId) (a : Word) : (s.afterRead c a).mdr = s.mdr := by
  unfold State.afterRead; dsimp only; split <;> simp
@[simp] theorem afterRead_latch (s : State) (c : CacheId) (a : Word) : (s.afterRead c a).latch = s.latch := by
  unfold State.afterRead; dsimp only; split <;> simp
@[simp] theorem afterRead_loaded (s : State) (c : CacheId) (a : Word) : (s.afterRead c a).loaded = s.loaded := by
  unfold State.afterRead; dsimp only; split <;> simp
@[simp] theorem afterRead_halted (s : State) (c : CacheId) (a : Word) : (s.afterRead c a).halted = s.halted := by
  unfold State.afterRead; dsimp only; split <;> simp
@[simp] theorem afterRead_fault (s : State) (c : CacheId) (a : Word) : (s.afterRead c a).fault = s.fault := by
  unfold State.afterRead; dsimp only; split <;> simp
@[simp]
theorem afterRead_loadBase (s : State) (c : CacheId) (a : Word) : (s.afterRead c a).loadBase = s.loadBase := by
  unfold State.afterRead; dsimp only; split <;> simp
@[simp] theorem afterRead_bp (s : State) (c : CacheId) (a : Word) : (s.afterRead c a).bp = s.bp := by
  unfold State.afterRead; dsimp only; split <;> simp
@[simp] theorem afterRead_console (s : State) (c : CacheId) (a : Word) : (s.afterRead c a).console = s.console := by
  unfold State.afterRead; dsimp only; split <;> simp
@[simp]
theorem afterRead_trace (s : State) (c : CacheId) (a : Word) : (s.afterRead c a).trace = s.trace ++ [s.accessEvent c .read a] := by
  unfold State.afterRead; dsimp only; split <;> simp
@[simp] theorem dcWrite_cfg (s : State) (a v : Word) : (s.dcWrite a v).cfg = s.cfg := by simp [State.dcWrite]
@[simp] theorem dcWrite_regs (s : State) (a v : Word) : (s.dcWrite a v).regs = s.regs := by simp [State.dcWrite]
@[simp] theorem dcWrite_pc (s : State) (a v : Word) : (s.dcWrite a v).pc = s.pc := by simp [State.dcWrite]
@[simp] theorem dcWrite_cc (s : State) (a v : Word) : (s.dcWrite a v).cc = s.cc := by simp [State.dcWrite]
@[simp] theorem dcWrite_ir (s : State) (a v : Word) : (s.dcWrite a v).ir = s.ir := by simp [State.dcWrite]
@[simp] theorem dcWrite_mar (s : State) (a v : Word) : (s.dcWrite a v).mar = s.mar := by simp [State.dcWrite]
@[simp] theorem dcWrite_mdr (s : State) (a v : Word) : (s.dcWrite a v).mdr = s.mdr := by simp [State.dcWrite]
@[simp] theorem dcWrite_latch (s : State) (a v : Word) : (s.dcWrite a v).latch = s.latch := by simp [State.dcWrite]
@[simp] theorem dcWrite_loaded (s : State) (a v : Word) : (s.dcWrite a v).loaded = s.loaded := by simp [State.dcWrite]
@[simp] theorem dcWrite_halted (s : State) (a v : Word) : (s.dcWrite a v).halted = s.halted := by simp [State.dcWrite]
@[simp] theorem dcWrite_fault (s : State) (a v : Word) : (s.dcWrite a v).fault = s.fault := by simp [State.dcWrite]
@[simp] theorem dcWrite_loadBase (s : State) (a v : Word) : (s.dcWrite a v).loadBase = s.loadBase := by
  simp [State.dcWrite]
@[simp] theorem dcWrite_bp (s : State) (a v : Word) : (s.dcWrite a v).bp = s.bp := by simp [State.dcWrite]
@[simp] theorem dcWrite_console (s : State) (a v : Word) : (s.dcWrite a v).console = s.console := by
  simp [State.dcWrite]
@[simp]
theorem dcWrite_trace (s : State) (a v : Word) : (s.dcWrite a v).trace = s.trace ++ [s.accessEvent .dc .write a] := by
  simp [State.dcWrite]

@[simp] theorem setLines_reg (s : State) (c : CacheId) (l : Lines) (r : Reg) : (s.setLines c l).reg r = s.reg r := by simp [State.reg]

@[simp] theorem setLines_off (s : State) (c : CacheId) (l : Lines) (x : Word) : (s.setLines c l).off x = s.off x := by simp [State.off]

@[simp] theorem setLineAt_reg (s : State) (c : CacheId) (a : Word) (l : Line) (r : Reg) : (s.setLineAt c a l).reg r = s.reg r := by simp [State.reg]

@[simp] theorem setLineAt_off (s : State) (c : CacheId) (a : Word) (l : Line) (x : Word) : (s.setLineAt c a l).off x = s.off x := by simp [State.off]

@[simp] theorem writeBack_reg (s : State) (c : CacheId) (a : Word) (r : Reg) : (s.writeBack c a).reg r = s.reg r := by simp [State.reg]

@[simp] theorem writeBack_off (s : State) (c : CacheId) (a : Word) (x : Word) : (s.writeBack c a).off x = s.off x := by simp [State.off]

@[simp] theorem afterRead_reg (s : State) (c : CacheId) (a : Word) (r : Reg) : (s.afterRead c a).reg r = s.reg r := by simp [State.reg]

@[simp] theorem afterRead_off (s : State) (c : CacheId) (a : Word) (x : Word) : (s.afterRead c a).off x = s.off x := by simp [State.off]

@[simp] theorem dcWrite_reg (s : State) (a v : Word) (r : Reg) : (s.dcWrite a v).reg r = s.reg r := by simp [State.reg]

@[simp] theorem dcWrite_off (s : State) (a v : Word) (x : Word) : (s.dcWrite a v).off x = s.off x := by simp [State.off]

/-! ### Registers -/

@[simp] theorem reg_setReg_self (s : State) (r : Reg) (v : Word) : (s.setReg r v).reg r = v := by
  simp [State.reg, State.setReg, Vector.get_eq_getElem]

theorem reg_setReg_of_ne (s : State) {r q : Reg} (v : Word) (h : q ≠ r) : (s.setReg r v).reg q = s.reg q := by
  have h' : r.val ≠ q.val := fun e => h (Fin.ext e.symm)
  simp [State.reg, State.setReg, Vector.get_eq_getElem, h']

theorem reg_setReg (s : State) (r q : Reg) (v : Word) :
    (s.setReg r v).reg q = if q = r then v else s.reg q := by
  split
  · next h => subst h; simp
  · next h => exact reg_setReg_of_ne s v h

/-- A register read depends on the register file alone. -/
theorem reg_congr {s t : State} (h : t.regs = s.regs) (r : Reg) : t.reg r = s.reg r := by
  simp [State.reg, h]

end Sys2Proof.Machine
end

