-- ==== Sys2Proof/Laws/Ops.lean ====
section
/-! SUPPORT. What each shared operation can do, said once: the check, the caches, and how a cycle begins and ends. -/

namespace Sys2Proof.Machine

/-! ## Addresses and lines -/

theorem off_congr {s t : State} (h : t.loadBase = s.loadBase) (a : Word) : t.off a = s.off a := by
  simp [State.off, h]

theorem index_congr {s t : State} (hc : t.cfg = s.cfg) (h : t.loadBase = s.loadBase) (a : Word) :
    t.index a = s.index a := by
  simp [State.index, State.off, hc, h]

theorem tag_congr {s t : State} (hc : t.cfg = s.cfg) (h : t.loadBase = s.loadBase) (a : Word) : t.tag a = s.tag a := by
  simp [State.tag, State.off, hc, h]

theorem inRange_congr {s t : State} (hc : t.cfg = s.cfg) (h : t.loadBase = s.loadBase) (a : Word) :
    t.InRange a ↔ s.InRange a := by
  simp [State.InRange, State.off, hc, h]

@[simp] theorem setLineAt_index (s : State) (c : CacheId) (a b : Word) (l : Line) :
    (s.setLineAt c a l).index b = s.index b := by
  simp [State.index]

@[simp] theorem afterRead_index (s : State) (c : CacheId) (a b : Word) : (s.afterRead c a).index b = s.index b := by
  simp [State.index]

@[simp] theorem afterRead_tag (s : State) (c : CacheId) (a b : Word) : (s.afterRead c a).tag b = s.tag b := by
  simp [State.tag]

@[simp] theorem dcWrite_index (s : State) (a v b : Word) : (s.dcWrite a v).index b = s.index b := by
  simp [State.index]

@[simp] theorem dcWrite_tag (s : State) (a v b : Word) : (s.dcWrite a v).tag b = s.tag b := by
  simp [State.tag]

theorem lines_pos (cfg : Config) : 0 < cfg.lines := Nat.two_pow_pos _

theorem index_lt (s : State) (a : Word) : s.index a < s.cfg.lines := Nat.mod_lt _ (lines_pos _)

/-- An offset is its tag times L plus its index (R55, R59). -/
theorem tag_mul_add_index (s : State) (a : Word) : s.tag a * s.cfg.lines + s.index a = s.off a := by
  rw [State.tag, State.index, Nat.mul_comm]
  exact Nat.div_add_mod _ _

/-- Offsets name addresses one to one (R51). -/
theorem off_injective (s : State) {a b : Word} (h : s.off a = s.off b) : a = b := by
  have : a - s.loadBase = b - s.loadBase := BitVec.eq_of_toNat_eq h
  exact sub_left_injective this

theorem lines_setLines_self (s : State) (c : CacheId) (l : Lines) : (s.setLines c l).lines c = l := by
  cases c <;> rfl

theorem lines_setLines_of_ne (s : State) {c d : CacheId} (l : Lines) (h : d ≠ c) :
    (s.setLines c l).lines d = s.lines d := by
  cases c <;> cases d <;> first | rfl | exact absurd rfl h

@[simp] theorem line_setLineAt_self (s : State) (c : CacheId) (a : Word) (l : Line) :
    ((s.setLineAt c a l).lines c).line (s.index a) = l := by
  simp [State.setLineAt, lines_setLines_self]

theorem line_setLineAt_of_ne (s : State) (c : CacheId) (a : Word) (l : Line) {i : Nat} (h : i ≠ s.index a) :
    ((s.setLineAt c a l).lines c).line i = (s.lines c).line i := by
  simp [State.setLineAt, lines_setLines_self, Lines.line_setLine_of_ne _ _ h]

theorem lines_setLineAt_of_ne (s : State) {c d : CacheId} (a : Word) (l : Line) (h : d ≠ c) :
    (s.setLineAt c a l).lines d = s.lines d :=
  lines_setLines_of_ne s _ h

@[simp] theorem lineAt_setLineAt_self (s : State) (c : CacheId) (a : Word) (l : Line) :
    (s.setLineAt c a l).lineAt c a = l := by
  rw [State.lineAt, setLineAt_index, line_setLineAt_self]

/-! ## The kind of an access -/

theorem accessKind_eq_hit_iff (s : State) (c : CacheId) (a : Word) :
    s.accessKind c a = .hit ↔ (s.lineAt c a).valid = true ∧ (s.lineAt c a).tag = s.tag a := by
  unfold State.accessKind
  split
  · next h => simp [h]
  · next h => split <;> simp_all

theorem accessKind_eq_coldMiss_iff (s : State) (c : CacheId) (a : Word) :
    s.accessKind c a = .coldMiss ↔ (s.lineAt c a).valid = false := by
  unfold State.accessKind
  split
  · next h => simp [h]
  · next h => split <;> simp_all

theorem accessKind_eq_conflictMiss_iff (s : State) (c : CacheId) (a : Word) :
    s.accessKind c a = .conflictMiss ↔ (s.lineAt c a).valid = true ∧ (s.lineAt c a).tag ≠ s.tag a := by
  unfold State.accessKind
  split
  · next h => simp [h]
  · next h => split <;> simp_all

theorem victim_eq_some_iff (s : State) (c : CacheId) (a : Word) (o : Nat) :
    s.victim c a = some o ↔
      s.accessKind c a = .conflictMiss ∧ (s.lineAt c a).dirty = true ∧ s.lineOffset c a = o := by
  unfold State.victim
  split
  · next h => exact ⟨fun e => ⟨h.1, h.2, Option.some.inj e⟩, fun e => congrArg some e.2.2⟩
  · next h => exact ⟨fun e => absurd e (by simp), fun e => absurd ⟨e.1, e.2.1⟩ h⟩

/-- A line that holds `a` was installed for the offset of `a` (R59). -/
theorem lineOffset_eq_off_iff (s : State) (c : CacheId) (a : Word) :
    s.lineOffset c a = s.off a ↔ (s.lineAt c a).tag = s.tag a := by
  rw [State.lineOffset, ← tag_mul_add_index s a]
  constructor
  · intro h
    exact Nat.eq_of_mul_eq_mul_right (lines_pos s.cfg) (Nat.add_right_cancel h)
  · intro h
    rw [h]

/-- An access never writes back the address it is made to. -/
theorem victim_ne_off (s : State) (c : CacheId) (a : Word) : s.victim c a ≠ some (s.off a) := by
  intro h
  obtain ⟨hk, -, ho⟩ := (victim_eq_some_iff s c a _).mp h
  exact ((accessKind_eq_conflictMiss_iff s c a).mp hk).2 ((lineOffset_eq_off_iff s c a).mp ho)

/-! ## The write-back -/

theorem writeBack_memory (s : State) (c : CacheId) (a : Word) : MemoryAfterAccess c a s (s.writeBack c a) := by
  intro o
  unfold State.writeBack
  split
  · next p hp =>
    simp only [setLineAt_mem, Memory.read_write, hp, Option.some.injEq]
    exact if_congr eq_comm rfl rfl
  · next h => simp [h]

theorem writeBack_otherLines (s : State) (c : CacheId) (a : Word) {i : Nat} (h : i ≠ s.index a) :
    ((s.writeBack c a).lines c).line i = (s.lines c).line i := by
  unfold State.writeBack
  split
  · rw [line_setLineAt_of_ne]
    · cases c <;> rfl
    · simpa [State.index, State.off] using h
  · rfl

theorem writeBack_otherCache (s : State) {c d : CacheId} (a : Word) (h : d ≠ c) :
    (s.writeBack c a).lines d = s.lines d := by
  unfold State.writeBack
  split
  · rw [lines_setLineAt_of_ne _ _ _ h]
    cases d <;> rfl
  · rfl

theorem writeBack_line (s : State) (c : CacheId) (a : Word) :
    ((s.writeBack c a).lines c).line (s.index a) =
      { s.lineAt c a with dirty := (s.lineAt c a).dirty && !(decide (s.accessKind c a = .conflictMiss)) } := by
  unfold State.writeBack
  split
  · next p hp =>
    obtain ⟨hk, hd, -⟩ := (victim_eq_some_iff s c a p).mp hp
    refine (line_setLineAt_self ({ s with mem := _ }) c a _).trans ?_
    simp [hk]
  · next h =>
    have hno : ¬ (s.accessKind c a = .conflictMiss ∧ (s.lineAt c a).dirty = true) := by
      intro hh
      unfold State.victim at h
      rw [if_pos hh] at h
      exact absurd h (by simp)
    change s.lineAt c a = _
    by_cases hk : s.accessKind c a = .conflictMiss
    · have hd : (s.lineAt c a).dirty = false := by simpa [hk] using hno
      cases hl : s.lineAt c a
      simp_all
    · cases hl : s.lineAt c a
      simp [hk]

@[simp] theorem lines_emit (s : State) (e : Event) (c : CacheId) : (s.emit e).lines c = s.lines c := by
  cases c <;> rfl

/-! ## Cache reads and writes -/

/-- All that a cache read does (R56, R61). -/
theorem afterRead_effect (s : State) (c : CacheId) (a : Word) : ReadEffect c a s (s.afterRead c a) := by
  have hidx : ((s.writeBack c a).emit (s.accessEvent c .read a)).index a = s.index a := by
    simp [State.index]
  have hline := writeBack_line s c a
  refine ⟨fun o => ?_, ?_, fun i hi => ?_, fun d hd => ?_, afterRead_trace s c a⟩
  · have := writeBack_memory s c a o
    unfold State.afterRead
    dsimp only
    split <;> simpa using this
  · unfold State.afterRead
    dsimp only
    split
    · next hk =>
      simp only [lines_emit, hline, hk]
      cases hl : s.lineAt c a
      simp
    · next hk =>
      rw [← hidx, line_setLineAt_self]
      have hmem : ((s.writeBack c a).emit (s.accessEvent c .read a)).memRead a = s.memRead a := by
        simp [State.memRead, writeBack_memory s c a _, victim_ne_off]
      have hat : ((s.writeBack c a).emit (s.accessEvent c .read a)).lineAt c a =
          { s.lineAt c a with dirty := (s.lineAt c a).dirty && !(decide (s.accessKind c a = .conflictMiss)) } := by
        rw [State.lineAt, hidx, lines_emit, hline]
      rw [hmem, hat]
      cases hkk : s.accessKind c a <;> simp_all
  · unfold State.afterRead
    dsimp only
    split
    · simpa using writeBack_otherLines s c a hi
    · rw [line_setLineAt_of_ne _ _ _ _ (by rwa [hidx]), lines_emit, writeBack_otherLines s c a hi]
  · unfold State.afterRead
    dsimp only
    split
    · simpa using writeBack_otherCache s a hd
    · rw [lines_setLineAt_of_ne _ _ _ hd, lines_emit, writeBack_otherCache s a hd]

/-- The word that a cache read returns is the view of its path. -/
theorem readWord_eq_view (s : State) (c : CacheId) (a : Word) : s.readWord c a = s.view c a := by
  have h := (afterRead_effect s c a).line
  rw [State.readWord, State.lineAt, afterRead_index, h, State.view]
  split <;> rfl

/-- All that a data-cache write does (R57, R61). -/
theorem dcWrite_effect (s : State) (a v : Word) : WriteEffect a v s (s.dcWrite a v) := by
  have hidx : ((s.writeBack .dc a).emit (s.accessEvent .dc .write a)).index a = s.index a := by
    simp [State.index]
  refine ⟨fun o => ?_, ?_, fun i hi => ?_, ?_, dcWrite_trace s a v⟩
  · simpa [State.dcWrite] using writeBack_memory s .dc a o
  · rw [State.dcWrite, ← hidx, line_setLineAt_self]
  · rw [State.dcWrite, line_setLineAt_of_ne _ _ _ _ (by rwa [hidx]), lines_emit, writeBack_otherLines s .dc a hi]
  · change (s.dcWrite a v).lines .ic = s.lines .ic
    rw [State.dcWrite, lines_setLineAt_of_ne _ _ _ (by decide), lines_emit,
      writeBack_otherCache s a (by decide)]

/-! ## The check, and the flow of phases -/

theorem check_of_inRange {s : State} {a : Word} (h : s.InRange a) : s.check a = .go s := if_pos h

theorem check_of_not_inRange {s : State} {a : Word} (h : ¬ s.InRange a) : s.check a = .outOfRange a s := if_neg h

@[simp] theorem Flow.andThen_go (s : State) (k : State → Flow) : (Flow.go s).andThen k = k s := rfl

@[simp] theorem Flow.andThen_hold (s : State) (k : State → Flow) : (Flow.hold s).andThen k = .hold s := rfl

@[simp] theorem Flow.andThen_outOfRange (a : Word) (s : State) (k : State → Flow) :
    (Flow.outOfRange a s).andThen k = .outOfRange a s := rfl

/-- A checked data-cache read hands on its data-cache view (R52, R56). -/
theorem readThen_of_inRange {s : State} {a : Word} (h : s.InRange a) (k : Word → State → Flow) :
    s.readThen a k = k (s.viewD a) (s.afterRead .dc a) := by
  rw [State.readThen, check_of_inRange h, Flow.andThen_go, readWord_eq_view]

theorem readThen_of_not_inRange {s : State} {a : Word} (h : ¬ s.InRange a) (k : Word → State → Flow) :
    s.readThen a k = .outOfRange a s := by
  rw [State.readThen, check_of_not_inRange h, Flow.andThen_outOfRange]

/-- A fault looks at what came before it for the console alone (R208). -/
theorem takeFault_of_console {start now : State} (h : now.console = start.console) (a : Word) :
    takeFault start now a = takeFault start start a := by
  rw [takeFault, h]
  rfl

/-- The end of a cycle always answers a next state. -/
theorem endCycle_isNext (start : State) (f : Flow) : ∃ t, endCycle start f = .next t := by
  cases f <;> exact ⟨_, rfl⟩

/-! ## What the reads of memory depend on -/

/-- Two states with the same storage agree on every path of R69. -/
theorem sameReads_of {s t : State} (hc : t.cfg = s.cfg) (hb : t.loadBase = s.loadBase) (hm : t.mem = s.mem)
    (hi : t.ic = s.ic) (hd : t.dc = s.dc) : SameReads s t := by
  obtain ⟨⟩ := s
  obtain ⟨⟩ := t
  dsimp only at hc hb hm hi hd
  subst hc hb hm hi hd
  exact fun a => ⟨rfl, rfl, rfl⟩

/-- FETCH from an address in memory (R122). -/
theorem fetch_of_inRange {s : State} (h : s.InRange s.pc) :
    s.fetch = .go { ({ s with mar := s.pc, pc := s.pc + 1 } : State).afterRead .ic s.pc with ir := s.viewI s.pc } := by
  rw [State.fetch, check_of_inRange h, Flow.andThen_go]
  dsimp only
  rw [readWord_eq_view]
  rfl

theorem fetch_of_not_inRange {s : State} (h : ¬ s.InRange s.pc) : s.fetch = .outOfRange s.pc s := by
  rw [State.fetch, check_of_not_inRange h, Flow.andThen_outOfRange]

/-- Memory after reset has the canonical form. -/
theorem reset_mem_wf : State.reset.mem.wf State.reset.cfg.memWords := Memory.wf.reset _

end Sys2Proof.Machine
end

