-- ==== Sys2Proof/Laws/Phases.lean ====
section
/-! SUPPORT. What the shared phases can do, said once: each lemma gives the flow of a phase, or the outcome of all the
phases of a family, from whether its addresses are in memory. -/

namespace Sys2Proof.Machine

/-! ## One phase -/

@[simp] theorem Flow.phase_go (s : State) (p : Phase) (body : State → Flow) :
    (Flow.go s).phase p body = body (s.setPhase p) := rfl

@[simp] theorem Flow.phase_hold (s : State) (p : Phase) (body : State → Flow) :
    (Flow.hold s).phase p body = .hold s := rfl

@[simp] theorem Flow.phase_outOfRange (a : Word) (s : State) (p : Phase) (body : State → Flow) :
    (Flow.outOfRange a s).phase p body = .outOfRange a s := rfl

/-- EVAL_ADDR of LDI and STI with its pointer in memory (R124). -/
theorem evalIndirect_of_inRange {s : State} {off : BitVec 9} (h : s.InRange (s.pcPlus off)) :
    s.evalIndirect off =
      .go ((({ s with mar := s.pcPlus off } : State).afterRead .dc (s.pcPlus off)).latchEa
        (s.viewD (s.pcPlus off))) := by
  have h1 : ({ s with mar := s.pcPlus off } : State).InRange (s.pcPlus off) := h
  rw [State.evalIndirect]
  dsimp only
  rw [readThen_of_inRange h1]
  rfl

theorem evalIndirect_of_not_inRange {s : State} {off : BitVec 9} (h : ¬ s.InRange (s.pcPlus off)) :
    s.evalIndirect off = .outOfRange (s.pcPlus off) { s with mar := s.pcPlus off } := by
  have h1 : ¬ ({ s with mar := s.pcPlus off } : State).InRange (s.pcPlus off) := h
  rw [State.evalIndirect]
  dsimp only
  rw [readThen_of_not_inRange h1]

/-- FETCH_OPERANDS of a load whose address is in memory (R125). -/
theorem fetchLoad_of_inRange {s : State} (h : s.InRange s.latch.ea) :
    s.fetchLoad =
      .go { ({ s with mar := s.latch.ea } : State).afterRead .dc s.latch.ea with mdr := s.viewD s.latch.ea } := by
  have h1 : ({ s with mar := s.latch.ea } : State).InRange s.latch.ea := h
  rw [State.fetchLoad]
  dsimp only
  rw [readThen_of_inRange h1]
  rfl

theorem fetchLoad_of_not_inRange {s : State} (h : ¬ s.InRange s.latch.ea) :
    s.fetchLoad = .outOfRange s.latch.ea { s with mar := s.latch.ea } := by
  have h1 : ¬ ({ s with mar := s.latch.ea } : State).InRange s.latch.ea := h
  rw [State.fetchLoad]
  dsimp only
  rw [readThen_of_not_inRange h1]

/-- STORE of a store whose address is in memory (R127). -/
theorem commitStore_of_inRange {s : State} (h : s.InRange s.mar) : s.commitStore = .go (s.dcWrite s.mar s.mdr) := by
  rw [State.commitStore, check_of_inRange h, Flow.andThen_go]

theorem commitStore_of_not_inRange {s : State} (h : ¬ s.InRange s.mar) : s.commitStore = .outOfRange s.mar s := by
  rw [State.commitStore, check_of_not_inRange h, Flow.andThen_outOfRange]

/-! ## The phase latch

The other updates do not see which phase runs, so the phases of a cycle collapse to the last one. -/

@[simp] theorem writeBack_setPhase (s : State) (p : Phase) (c : CacheId) (a : Word) :
    (s.setPhase p).writeBack c a = (s.writeBack c a).setPhase p := by
  unfold State.writeBack
  rw [show (s.setPhase p).victim c a = s.victim c a by cases c <;> rfl]
  cases s.victim c a <;> cases c <;> rfl

@[simp] theorem afterRead_setPhase (s : State) (p : Phase) (c : CacheId) (a : Word) :
    (s.setPhase p).afterRead c a = (s.afterRead c a).setPhase p := by
  unfold State.afterRead
  rw [writeBack_setPhase, show (s.setPhase p).accessKind c a = s.accessKind c a by cases c <;> rfl,
    show (s.setPhase p).accessEvent c .read a = s.accessEvent c .read a by cases c <;> rfl]
  dsimp only
  split <;> cases c <;> rfl

@[simp] theorem dcWrite_setPhase (s : State) (p : Phase) (a v : Word) :
    (s.setPhase p).dcWrite a v = (s.dcWrite a v).setPhase p := by
  unfold State.dcWrite
  rw [writeBack_setPhase]
  rfl

@[simp] theorem setReg_setPhase (s : State) (p : Phase) (r : Reg) (v : Word) :
    (s.setPhase p).setReg r v = (s.setReg r v).setPhase p := rfl

@[simp] theorem setcc_setPhase (s : State) (p : Phase) (v : Word) :
    (s.setPhase p).setcc v = (s.setcc v).setPhase p := rfl

@[simp] theorem latchOperands_setPhase (s : State) (p : Phase) (a b : Word) :
    (s.setPhase p).latchOperands a b = (s.latchOperands a b).setPhase p := rfl

@[simp] theorem latchOperandA_setPhase (s : State) (p : Phase) (a : Word) :
    (s.setPhase p).latchOperandA a = (s.latchOperandA a).setPhase p := rfl

@[simp] theorem executeAlu_setPhase (s : State) (p : Phase) (op : AluOp) :
    (s.setPhase p).executeAlu op = (s.executeAlu op).setPhase p := rfl

@[simp] theorem storeResult_setPhase (s : State) (p : Phase) (dr : Reg) :
    (s.setPhase p).storeResult dr = (s.storeResult dr).setPhase p := rfl

/-- STORE adds nothing but its phase where an instruction has no action there. -/
@[simp] theorem endCycle_phase_store (start : State) (f : Flow) : endCycle start (f.phase .store .go) = endCycle start f := by
  cases f <;> rfl

/-! ## All phases of a family -/

/-- An instruction that acts in EVAL_ADDR alone (BR). -/
theorem runPhases_evalAddr_only (s : State) (f : State → State) :
    s.runPhases { evalAddr := fun s => .go (f s) } = .next ((f (s.setPhase .evalAddr)).setPhase .done) := rfl

/-- An instruction that acts in EXECUTE alone (JMP, JSR, JSRR, PUSH, POP). -/
theorem runPhases_execute_only (s : State) (f : State → Flow) :
    s.runPhases { execute := f } = endCycle s (f (s.setPhase .execute)) :=
  endCycle_phase_store s (f (s.setPhase .execute))

/-- An instruction that acts in STORE alone (LEA). -/
theorem runPhases_store_only (s : State) (f : State → Flow) :
    s.runPhases { store := f } = endCycle s (f (s.setPhase .store)) := rfl

/-- A TRAP ends as its service does, in EXECUTE (R126). -/
theorem runPhases_trap (s : State) (v : BitVec 8) (service : State → Flow) :
    s.runPhases (trapPhases v service) = endCycle s (service ((s.evalVector v).setPhase .execute)) :=
  endCycle_phase_store s (service ((s.evalVector v).setPhase .execute))

/-- A service that a held cycle goes on with (R226). -/
theorem resumePhases_trap (s : State) (v : BitVec 8) (service : State → Flow) :
    s.resumePhases (trapPhases v service) = endCycle s (service (s.setPhase .execute)) :=
  endCycle_phase_store s (service (s.setPhase .execute))

/-- The phases after an EVAL_ADDR that has left `u`. -/
theorem runPhases_of_evalAddr_go {s u : State} {ph : Phases} (he : ph.evalAddr (s.setPhase .evalAddr) = .go u) :
    s.runPhases ph =
      endCycle s ((ph.fetchOperands (u.setPhase .fetchOperands)).andThen fun s => s.fromExecute ph) := by
  unfold State.runPhases State.fromEvalAddr
  rw [Flow.phase_go, he, Flow.phase_go]

/-- An operate instruction completes, with the operands that `latchOperands` has latched (R125 to R127). -/
theorem runPhases_operate (s u : State) (op : AluOp) (dr : Reg) (latchOperands : State → State)
    (h : latchOperands (s.setPhase .fetchOperands) = u.setPhase .fetchOperands) :
    s.runPhases (operatePhases op dr latchOperands) = .next (((u.executeAlu op).storeResult dr).setPhase .done) := by
  have h1 : s.runPhases (operatePhases op dr latchOperands) =
      .next (((((latchOperands (s.setPhase .fetchOperands)).setPhase .execute).executeAlu op).setPhase .store
        |>.storeResult dr).setPhase .done) := rfl
  rw [h1, h, setPhase_setPhase, executeAlu_setPhase, setPhase_setPhase, storeResult_setPhase, setPhase_setPhase]

/-- A cycle whose EVAL_ADDR fails its check takes the fault there (R129). -/
theorem runPhases_of_evalAddr_outOfRange {s u : State} {ph : Phases} {a : Word}
    (he : ph.evalAddr (s.setPhase .evalAddr) = .outOfRange a u) : s.runPhases ph = .next (takeFault s u a) := by
  unfold State.runPhases State.fromEvalAddr
  rw [Flow.phase_go, he]
  rfl

/-- FETCH_OPERANDS of a load, the phase apart (R125). -/
theorem fetchLoad_setPhase {s : State} (p : Phase) (h : s.InRange s.latch.ea) :
    (s.setPhase p).fetchLoad =
      .go (({ ({ s with mar := s.latch.ea } : State).afterRead .dc s.latch.ea with
        mdr := s.viewD s.latch.ea } : State).setPhase p) :=
  (fetchLoad_of_inRange (s := s.setPhase p) h).trans
    (congrArg (fun x : State => Flow.go { x with mdr := s.viewD s.latch.ea })
      (afterRead_setPhase { s with mar := s.latch.ea } p .dc s.latch.ea))

/-- The phases of a load after FETCH_OPERANDS has left `u` (R127). -/
theorem fromExecute_load (s u : State) (dr : Reg) (evalAddr : State → Flow) :
    endCycle s ((u.setPhase .fetchOperands).fromExecute (loadPhases dr evalAddr)) =
      .next ((u.storeLoad dr).setPhase .done) := by
  have h : (u.setPhase .store).storeLoad dr = (u.storeLoad dr).setPhase .store := rfl
  change Host.Outcome.next (((u.setPhase .store).storeLoad dr).setPhase .done) = _
  rw [h, setPhase_setPhase]

/-- A load whose EVAL_ADDR leaves `u`, the phase apart, with an address in memory (R125, R127). -/
theorem runPhases_load_of_inRange {s u : State} {dr : Reg} {evalAddr : State → Flow}
    (he : evalAddr (s.setPhase .evalAddr) = .go (u.setPhase .evalAddr)) (h : u.InRange u.latch.ea) :
    s.runPhases (loadPhases dr evalAddr) =
      .next (({ ({ u with mar := u.latch.ea } : State).afterRead .dc u.latch.ea with
        mdr := u.viewD u.latch.ea } : State).storeLoad dr |>.setPhase .done) := by
  have h3 : (loadPhases dr evalAddr).fetchOperands ((u.setPhase .evalAddr).setPhase .fetchOperands) = _ :=
    fetchLoad_setPhase (s := u) .fetchOperands h
  rw [runPhases_of_evalAddr_go (ph := loadPhases dr evalAddr) he, h3, Flow.andThen_go]
  exact fromExecute_load s _ dr evalAddr

theorem runPhases_load_of_not_inRange {s u : State} {dr : Reg} {evalAddr : State → Flow}
    (he : evalAddr (s.setPhase .evalAddr) = .go (u.setPhase .evalAddr)) (h : ¬ u.InRange u.latch.ea) :
    s.runPhases (loadPhases dr evalAddr) = .next (takeFault s u u.latch.ea) := by
  have h1 : ¬ (u.setPhase .fetchOperands).InRange (u.setPhase .fetchOperands).latch.ea := h
  rw [runPhases_of_evalAddr_go (ph := loadPhases dr evalAddr) he]
  exact congrArg (fun f : Flow => endCycle s (f.andThen fun s => s.fromExecute (loadPhases dr evalAddr)))
    (fetchLoad_of_not_inRange h1)

/-- A store whose EVAL_ADDR leaves `u`, the phase apart, with an address in memory (R125, R127). -/
theorem runPhases_store_of_inRange {s u : State} {sr : Reg} {evalAddr : State → Flow}
    (he : evalAddr (s.setPhase .evalAddr) = .go (u.setPhase .evalAddr)) (h : u.InRange u.latch.ea) :
    s.runPhases (storePhases sr evalAddr) =
      .next (((u.stageStore sr).dcWrite u.latch.ea (u.reg sr)).setPhase .done) := by
  rw [runPhases_of_evalAddr_go (ph := storePhases sr evalAddr) he]
  refine (congrArg (endCycle s) (commitStore_of_inRange (s := (u.stageStore sr).setPhase .store) h)).trans ?_
  rw [dcWrite_setPhase]
  rfl

theorem runPhases_store_of_not_inRange {s u : State} {sr : Reg} {evalAddr : State → Flow}
    (he : evalAddr (s.setPhase .evalAddr) = .go (u.setPhase .evalAddr)) (h : ¬ u.InRange u.latch.ea) :
    s.runPhases (storePhases sr evalAddr) = .next (takeFault s u u.latch.ea) := by
  rw [runPhases_of_evalAddr_go (ph := storePhases sr evalAddr) he]
  exact congrArg (endCycle s) (commitStore_of_not_inRange (s := (u.stageStore sr).setPhase .store) h)

/-! ## The services -/

/-- The service of GETC waits where there is no input (R182). -/
theorem getcService_of_nil {s : State} (h : s.console.input = []) : s.getcService = .hold s := by
  rw [State.getcService, h]

/-- The service of GETC takes the first byte of its input (R182). -/
theorem getcService_of_cons {s : State} {b : Byte} {bs : List Byte} (h : s.console.input = b :: bs) :
    s.getcService = .go ((s.dropInput.setReg 0 (zext b)).setccIfAll (zext b)) := by
  rw [State.getcService, h]

end Sys2Proof.Machine
end

