-- ==== Sys2Proof/Laws/Cycle.lean ====
section
/-! SUPPORT. What a cycle and a step can do, said once: later proofs take a step apart with these lemmas and unfold
neither `step` nor `newCycle`. -/

namespace Sys2Proof.Machine

/-- Every meaning runs the phases of its instruction. -/
theorem exec_eq_runPhases (i : Instr) (s : State) : ∃ ph, exec i s = s.runPhases ph := by
  cases i <;> simp only [exec, execAddReg, execAddImm, execAndReg, execAndImm, execNot, execBr, execJmp, execJsr,
    execJsrr, execLd, execLdi, execLdr, execLea, execSt, execSti, execStr, execGetc, execOut, execPuts, execHalt,
    execTrap, execPush, execPop, execInvalid] <;> exact ⟨_, rfl⟩

/-- Every instruction answers a next state from every state. -/
theorem exec_isNext (i : Instr) (s : State) : ∃ t, exec i s = .next t := by
  obtain ⟨ph, h⟩ := exec_eq_runPhases i s
  rw [h]
  exact endCycle_isNext s _

/-- The rest of a held cycle answers a next state. -/
theorem resumePhases_isNext (s : State) (ph : Phases) : ∃ t, s.resumePhases ph = .next t := endCycle_isNext s _

/-- How `t` follows from the end `u` of an instruction's phases, in a cycle begun in `start` (R120, R208). -/
def Settles (start u t : State) : Prop :=
  (∃ a, u.fault = some (.outOfRange a) ∧ t = takeFault start u a) ∨ (u.fault = none ∧ t = u.endOfCycle)

theorem settle_cases {start u t : State} (h : settle start (.next u) = .next t) : Settles start u t := by
  unfold settle at h
  dsimp only at h
  split at h
  · next a ha => exact .inl ⟨a, ha, (Host.Outcome.next.inj h).symm⟩
  · next ha => exact .inr ⟨ha, (Host.Outcome.next.inj h).symm⟩

theorem settle_isNext (start u : State) : ∃ t, settle start (.next u) = .next t := by
  unfold settle
  dsimp only
  split <;> exact ⟨_, rfl⟩

/-- The state after FETCH from an address in memory (R122). -/
def State.fetched (s : State) : State :=
  { ({ s with mar := s.pc, pc := s.pc + 1 } : State).afterRead .ic s.pc with ir := s.viewI s.pc }

theorem fetch_eq_fetched {s : State} (h : s.InRange s.pc) : s.fetch = .go s.fetched := fetch_of_inRange h

/-- A new cycle: the fetch faults, or the fetched instruction runs to its end. -/
theorem newCycle_cases {s t : State} (h : s.newCycle = .next t) :
    (¬ s.InRange s.pc ∧ t = takeFault s s s.pc) ∨
    (s.InRange s.pc ∧ ∃ u, exec (decode (s.viewI s.pc)) s.fetched.latchDecode = .next u ∧ Settles s u t) := by
  unfold State.newCycle at h
  by_cases hr : s.InRange s.pc
  · rw [fetch_eq_fetched hr] at h
    dsimp only at h
    obtain ⟨u, hu⟩ := exec_isNext (decode s.fetched.ir) s.fetched.latchDecode
    rw [hu] at h
    exact .inr ⟨hr, u, hu, settle_cases h⟩
  · rw [fetch_of_not_inRange hr] at h
    exact .inl ⟨hr, (Host.Outcome.next.inj h).symm⟩

/-- The status tests of R121 pass. -/
structure State.Running (s : State) : Prop where
  loaded : s.loaded = true
  noFault : s.fault = none
  notHalted : s.halted = false

/-- Everything that a step can do: a status test ends it with the state unchanged, it begins a cycle, or it goes on
with the GETC or PUTS that holds the cycle in EXECUTE. -/
theorem step_cases {s t : State} (h : step s = .next t) :
    (¬ s.Running ∧ t = s) ∨
    (s.Running ∧ s.latch.phase = .fetch ∧ s.newCycle = .next t) ∨
    (s.Running ∧ s.latch.phase = .execute ∧
      ∃ ph u, ((decode s.ir = .getc ∧ ph = getcPhases) ∨ (decode s.ir = .puts ∧ ph = putsPhases)) ∧
        s.resumePhases ph = .next u ∧ Settles s u t) := by
  unfold step at h
  split at h
  · next hl => exact .inl ⟨fun hr => absurd (hl.symm.trans hr.loaded) (by decide), (Host.Outcome.next.inj h).symm⟩
  split at h
  · next hf => exact .inl ⟨fun hr => hf hr.noFault, (Host.Outcome.next.inj h).symm⟩
  split at h
  · next hh => exact .inl ⟨fun hr => absurd (hh.symm.trans hr.notHalted) (by decide), (Host.Outcome.next.inj h).symm⟩
  next hl hf hh =>
  have hr : s.Running := ⟨by simpa using hl, by simpa using hf, by simpa using hh⟩
  split at h
  · next hp => exact .inr (.inl ⟨hr, hp, h⟩)
  · next hp =>
    unfold State.resumeCycle at h
    split at h
    · next hd =>
      obtain ⟨u, hu⟩ := resumePhases_isNext s getcPhases
      rw [hu] at h
      exact .inr (.inr ⟨hr, hp, getcPhases, u, .inl ⟨hd, rfl⟩, hu, settle_cases h⟩)
    · next hd =>
      obtain ⟨u, hu⟩ := resumePhases_isNext s putsPhases
      rw [hu] at h
      exact .inr (.inr ⟨hr, hp, putsPhases, u, .inr ⟨hd, rfl⟩, hu, settle_cases h⟩)
    · exact absurd h (by simp)
  all_goals exact absurd h (by simp)

/-- A running state at FETCH begins a cycle. -/
theorem step_of_fetch {s : State} (h : s.Running) (hp : s.latch.phase = .fetch) : step s = s.newCycle := by
  unfold step
  rw [if_neg (by simp [h.loaded]), if_neg (by simp [h.noFault]), if_neg (by simp [h.notHalted]), hp]

/-- A running state whose cycle a service holds goes on with the service. -/
theorem step_of_held {s : State} (h : s.Running) (hp : s.latch.phase = .execute) : step s = s.resumeCycle := by
  unfold step
  rw [if_neg (by simp [h.loaded]), if_neg (by simp [h.noFault]), if_neg (by simp [h.notHalted]), hp]

/-- A state that is not running steps to itself (R121). -/
theorem step_of_not_running {s : State} (h : ¬ s.Running) : step s = .next s := by
  unfold step
  split
  · rfl
  split
  · rfl
  split
  · rfl
  next hl hf hh => exact absurd ⟨by simpa using hl, by simpa using hf, by simpa using hh⟩ h

end Sys2Proof.Machine
end

