-- ==== Sys2Proof/Laws/Meanings.lean ====
section
/-! SUPPORT. What each meaning answers, said once: later proofs cite these lemmas and unfold no meaning and no phase.
The phases collapse to the last one, DONE, or EXECUTE where the cycle goes no further. -/

namespace Sys2Proof.Machine

/-! ## ADD, AND, NOT -/

theorem exec_addReg (dr sr1 sr2 : Reg) (s : State) :
    exec (.addReg dr sr1 sr2) s =
      .next ((((s.latchOperands (s.reg sr1) (s.reg sr2)).executeAlu .add).storeResult dr).setPhase .done) :=
  runPhases_operate s (s.latchOperands (s.reg sr1) (s.reg sr2)) .add dr (fun s => s.latchOperands (s.reg sr1) (s.reg sr2)) rfl

theorem exec_addImm (dr sr1 : Reg) (imm5 : BitVec 5) (s : State) :
    exec (.addImm dr sr1 imm5) s =
      .next ((((s.latchOperands (s.reg sr1) (sext imm5)).executeAlu .add).storeResult dr).setPhase .done) :=
  runPhases_operate s (s.latchOperands (s.reg sr1) (sext imm5)) .add dr (fun s => s.latchOperands (s.reg sr1) (sext imm5)) rfl

theorem exec_andReg (dr sr1 sr2 : Reg) (s : State) :
    exec (.andReg dr sr1 sr2) s =
      .next ((((s.latchOperands (s.reg sr1) (s.reg sr2)).executeAlu .and).storeResult dr).setPhase .done) :=
  runPhases_operate s (s.latchOperands (s.reg sr1) (s.reg sr2)) .and dr (fun s => s.latchOperands (s.reg sr1) (s.reg sr2)) rfl

theorem exec_andImm (dr sr1 : Reg) (imm5 : BitVec 5) (s : State) :
    exec (.andImm dr sr1 imm5) s =
      .next ((((s.latchOperands (s.reg sr1) (sext imm5)).executeAlu .and).storeResult dr).setPhase .done) :=
  runPhases_operate s (s.latchOperands (s.reg sr1) (sext imm5)) .and dr (fun s => s.latchOperands (s.reg sr1) (sext imm5)) rfl

theorem exec_notOp (dr sr : Reg) (s : State) :
    exec (.notOp dr sr) s =
      .next ((((s.latchOperandA (s.reg sr)).executeAlu .not).storeResult dr).setPhase .done) :=
  runPhases_operate s (s.latchOperandA (s.reg sr)) .not dr (fun s => s.latchOperandA (s.reg sr)) rfl

/-! ## Control transfer -/

theorem exec_br (nzp : BitVec 3) (off : BitVec 9) (s : State) :
    exec (.br nzp off) s =
      .next ((if branchEnable s.cc nzp then { s with pc := s.pcPlus off } else s).setPhase .done) := by
  refine (runPhases_evalAddr_only s fun s => if branchEnable s.cc nzp then { s with pc := s.pcPlus off } else s).trans ?_
  rw [setPhase_cc]
  cases branchEnable s.cc nzp <;> rfl

theorem exec_jmp (baseR : Reg) (s : State) :
    exec (.jmp baseR) s = .next (({ s with pc := s.reg baseR } : State).setPhase .done) :=
  runPhases_execute_only s fun s => .go { s with pc := s.reg baseR }

theorem exec_jsr (off : BitVec 11) (s : State) :
    exec (.jsr off) s = .next (({ s.link with pc := s.pcPlus off } : State).setPhase .done) :=
  runPhases_execute_only s fun s => .go { s.link with pc := s.pcPlus off }

theorem exec_jsrr (baseR : Reg) (s : State) :
    exec (.jsrr baseR) s =
      .next (({ s.link with pc := bif s.cfg.jsrrReadsBaseFirst then s.reg baseR else s.link.reg baseR } : State).setPhase
        .done) :=
  runPhases_execute_only s fun s =>
    .go { s.link with pc := bif s.cfg.jsrrReadsBaseFirst then s.reg baseR else s.link.reg baseR }

theorem exec_invalid (s : State) : exec .invalid s = .next (s.setPhase .done) :=
  runPhases_execute_only s .go

/-! ## Loads and stores -/

/-- What a load of `x[dr]` leaves from the address `a`, in the state that forming the address has left. -/
def State.loadedFrom (s : State) (dr : Reg) (a : Word) : State :=
  ({ ({ s with mar := a } : State).afterRead .dc a with mdr := s.viewD a } : State).storeLoad dr |>.setPhase .done

/-- What a store of `x[sr]` leaves at the address `a`, in the state that forming the address has left. -/
def State.storedAt (s : State) (sr : Reg) (a : Word) : State :=
  (({ s with mar := a, mdr := s.reg sr } : State).dcWrite a (s.reg sr)).setPhase .done

/-- The state after the pointer at `p` has been read and latched, the phase apart (R124). -/
def State.pointerRead (s : State) (p : Word) : State :=
  (({ s with mar := p } : State).afterRead .dc p).latchEa (s.viewD p)

theorem exec_ld_of_inRange {s : State} (dr : Reg) {off : BitVec 9} (h : s.InRange (s.pcPlus off)) :
    exec (.ld dr off) s = .next ((s.latchEa (s.pcPlus off)).loadedFrom dr (s.pcPlus off)) :=
  runPhases_load_of_inRange (u := s.latchEa (s.pcPlus off)) rfl h

theorem exec_ld_of_not_inRange {s : State} (dr : Reg) {off : BitVec 9} (h : ¬ s.InRange (s.pcPlus off)) :
    exec (.ld dr off) s = .next (takeFault s s (s.pcPlus off)) :=
  runPhases_load_of_not_inRange (u := s.latchEa (s.pcPlus off)) rfl h

theorem exec_ldr_of_inRange {s : State} (dr : Reg) {baseR : Reg} {off : BitVec 6} (h : s.InRange (s.basePlus baseR off)) :
    exec (.ldr dr baseR off) s = .next ((s.latchEa (s.basePlus baseR off)).loadedFrom dr (s.basePlus baseR off)) :=
  runPhases_load_of_inRange (u := s.latchEa (s.basePlus baseR off)) rfl h

theorem exec_ldr_of_not_inRange {s : State} (dr : Reg) {baseR : Reg} {off : BitVec 6}
    (h : ¬ s.InRange (s.basePlus baseR off)) :
    exec (.ldr dr baseR off) s = .next (takeFault s s (s.basePlus baseR off)) :=
  runPhases_load_of_not_inRange (u := s.latchEa (s.basePlus baseR off)) rfl h

theorem exec_st_of_inRange {s : State} (sr : Reg) {off : BitVec 9} (h : s.InRange (s.pcPlus off)) :
    exec (.st sr off) s = .next ((s.latchEa (s.pcPlus off)).storedAt sr (s.pcPlus off)) :=
  runPhases_store_of_inRange (u := s.latchEa (s.pcPlus off)) rfl h

theorem exec_st_of_not_inRange {s : State} (sr : Reg) {off : BitVec 9} (h : ¬ s.InRange (s.pcPlus off)) :
    exec (.st sr off) s = .next (takeFault s s (s.pcPlus off)) :=
  runPhases_store_of_not_inRange (u := s.latchEa (s.pcPlus off)) rfl h

theorem exec_str_of_inRange {s : State} (sr : Reg) {baseR : Reg} {off : BitVec 6} (h : s.InRange (s.basePlus baseR off)) :
    exec (.str sr baseR off) s = .next ((s.latchEa (s.basePlus baseR off)).storedAt sr (s.basePlus baseR off)) :=
  runPhases_store_of_inRange (u := s.latchEa (s.basePlus baseR off)) rfl h

theorem exec_str_of_not_inRange {s : State} (sr : Reg) {baseR : Reg} {off : BitVec 6}
    (h : ¬ s.InRange (s.basePlus baseR off)) :
    exec (.str sr baseR off) s = .next (takeFault s s (s.basePlus baseR off)) :=
  runPhases_store_of_not_inRange (u := s.latchEa (s.basePlus baseR off)) rfl h

/-- EVAL_ADDR of LDI and STI, in its phase. -/
theorem evalIndirect_setPhase {s : State} {off : BitVec 9} (h : s.InRange (s.pcPlus off)) :
    (s.setPhase .evalAddr).evalIndirect off = .go ((s.pointerRead (s.pcPlus off)).setPhase .evalAddr) := by
  have h1 : (s.setPhase .evalAddr).InRange ((s.setPhase .evalAddr).pcPlus off) := h
  have h2 : ({ s.setPhase .evalAddr with mar := s.pcPlus off } : State).afterRead .dc (s.pcPlus off) =
      (({ s with mar := s.pcPlus off } : State).afterRead .dc (s.pcPlus off)).setPhase .evalAddr :=
    afterRead_setPhase { s with mar := s.pcPlus off } .evalAddr .dc (s.pcPlus off)
  refine (evalIndirect_of_inRange h1).trans ?_
  rw [show (s.setPhase .evalAddr).pcPlus off = s.pcPlus off from rfl, h2]
  rfl

theorem evalIndirect_setPhase_outOfRange {s : State} {off : BitVec 9} (h : ¬ s.InRange (s.pcPlus off)) :
    (s.setPhase .evalAddr).evalIndirect off =
      .outOfRange (s.pcPlus off) (({ s with mar := s.pcPlus off } : State).setPhase .evalAddr) :=
  evalIndirect_of_not_inRange (s := s.setPhase .evalAddr) h

@[simp] theorem pointerRead_ea (s : State) (p : Word) : (s.pointerRead p).latch.ea = s.viewD p := rfl

theorem pointerRead_inRange (s : State) (p a : Word) : (s.pointerRead p).InRange a ↔ s.InRange a :=
  inRange_congr (by simp [State.pointerRead]) (by simp [State.pointerRead]) a

@[simp] theorem pointerRead_console (s : State) (p : Word) : (s.pointerRead p).console = s.console := by
  simp [State.pointerRead]

theorem exec_ldi_of_inRange {s : State} (dr : Reg) {off : BitVec 9} (h : s.InRange (s.pcPlus off))
    (h2 : s.InRange (s.viewD (s.pcPlus off))) :
    exec (.ldi dr off) s = .next ((s.pointerRead (s.pcPlus off)).loadedFrom dr (s.viewD (s.pcPlus off))) :=
  runPhases_load_of_inRange (evalIndirect_setPhase h) ((pointerRead_inRange s _ _).mpr h2)

theorem exec_ldi_of_target_not_inRange {s : State} (dr : Reg) {off : BitVec 9} (h : s.InRange (s.pcPlus off))
    (h2 : ¬ s.InRange (s.viewD (s.pcPlus off))) :
    exec (.ldi dr off) s = .next (takeFault s s (s.viewD (s.pcPlus off))) :=
  (runPhases_load_of_not_inRange (evalIndirect_setPhase h) fun e => h2 ((pointerRead_inRange s _ _).mp e)).trans
    (congrArg Host.Outcome.next (takeFault_of_console (pointerRead_console s _) _))

theorem exec_ldi_of_pointer_not_inRange {s : State} (dr : Reg) {off : BitVec 9} (h : ¬ s.InRange (s.pcPlus off)) :
    exec (.ldi dr off) s = .next (takeFault s s (s.pcPlus off)) := by
  have h1 := runPhases_of_evalAddr_outOfRange (ph := loadPhases dr fun s => s.evalIndirect off)
    (evalIndirect_setPhase_outOfRange h)
  exact h1

theorem exec_sti_of_inRange {s : State} (sr : Reg) {off : BitVec 9} (h : s.InRange (s.pcPlus off))
    (h2 : s.InRange (s.viewD (s.pcPlus off))) :
    exec (.sti sr off) s = .next ((s.pointerRead (s.pcPlus off)).storedAt sr (s.viewD (s.pcPlus off))) :=
  runPhases_store_of_inRange (evalIndirect_setPhase h) ((pointerRead_inRange s _ _).mpr h2)

theorem exec_sti_of_target_not_inRange {s : State} (sr : Reg) {off : BitVec 9} (h : s.InRange (s.pcPlus off))
    (h2 : ¬ s.InRange (s.viewD (s.pcPlus off))) :
    exec (.sti sr off) s = .next (takeFault s s (s.viewD (s.pcPlus off))) :=
  (runPhases_store_of_not_inRange (evalIndirect_setPhase h) fun e => h2 ((pointerRead_inRange s _ _).mp e)).trans
    (congrArg Host.Outcome.next (takeFault_of_console (pointerRead_console s _) _))

theorem exec_sti_of_pointer_not_inRange {s : State} (sr : Reg) {off : BitVec 9} (h : ¬ s.InRange (s.pcPlus off)) :
    exec (.sti sr off) s = .next (takeFault s s (s.pcPlus off)) := by
  have h1 := runPhases_of_evalAddr_outOfRange (ph := storePhases sr fun s => s.evalIndirect off)
    (evalIndirect_setPhase_outOfRange h)
  exact h1

theorem exec_lea (dr : Reg) (off : BitVec 9) (s : State) :
    exec (.lea dr off) s = .next (((s.setReg dr (s.pcPlus off)).setcc (s.pcPlus off)).setPhase .done) := by
  refine (runPhases_store_only s fun s => .go ((s.setReg dr (s.pcPlus off)).setcc (s.pcPlus off))).trans ?_
  rw [show (s.setPhase .store).pcPlus off = s.pcPlus off from rfl, setReg_setPhase, setcc_setPhase]
  rfl

/-! ## Traps -/

theorem exec_getc_of_nil {s : State} (h : s.console.input = []) :
    exec .getc s = .next ((s.evalVector 0x20#8).setPhase .execute) :=
  (runPhases_trap s 0x20#8 State.getcService).trans (congrArg (endCycle s) (getcService_of_nil
    (s := (s.evalVector 0x20#8).setPhase .execute) h))

theorem exec_getc_of_cons {s : State} {b : Byte} {bs : List Byte} (h : s.console.input = b :: bs) :
    exec .getc s =
      .next ((((s.evalVector 0x20#8).dropInput.setReg 0 (zext b)).setccIfAll (zext b)).setPhase .done) :=
  (runPhases_trap s 0x20#8 State.getcService).trans (congrArg (endCycle s) (getcService_of_cons
    (s := (s.evalVector 0x20#8).setPhase .execute) h))

theorem exec_out (s : State) :
    exec .out s = .next (((s.evalVector 0x21#8).consoleOut ((s.reg 0).setWidth 8)).setPhase .done) :=
  runPhases_trap s 0x21#8 fun s => .go (s.consoleOut ((s.reg 0).setWidth 8))

theorem exec_puts (s : State) :
    exec .puts s = endCycle s (putsLoop 131072 (s.reg 0) ((s.evalVector 0x22#8).setPhase .execute)) :=
  runPhases_trap s 0x22#8 State.putsService

theorem exec_halt (s : State) :
    exec .halt s = .next (({ s.evalVector 0x25#8 with halted := true } : State).setPhase .execute) :=
  runPhases_trap s 0x25#8 fun s => .hold { s with halted := true }

theorem exec_trap (v : BitVec 8) (s : State) : exec (.trap v) s = .next ((s.evalVector v).setPhase .done) :=
  runPhases_trap s v .go

/-! ## PUSH and POP -/

theorem exec_push_of_inRange {s : State} (sr : Reg) (h : s.InRange (s.reg 6 - 1)) :
    exec (.push sr) s =
      .next ((((s.setReg 6 (s.reg 6 - 1)).memWrite (s.reg 6 - 1) (if sr = 6 then s.reg 6 - 1 else s.reg sr)).setccIfAll
        (s.reg 6 - 1)).setPhase .done) := by
  have h6 : ((s.setPhase .execute).setReg 6 (s.reg 6 - 1)).reg 6 = s.reg 6 - 1 := reg_setReg_self _ _ _
  have hr : ((s.setPhase .execute).setReg 6 (s.reg 6 - 1)).reg sr = if sr = 6 then s.reg 6 - 1 else s.reg sr :=
    reg_setReg _ _ _ _
  have h1 : ((s.setPhase .execute).setReg 6 (s.reg 6 - 1)).InRange (s.reg 6 - 1) := h
  have hf : (s.setPhase .execute).pushWord sr = .go ((((s.setReg 6 (s.reg 6 - 1)).memWrite (s.reg 6 - 1)
      (if sr = 6 then s.reg 6 - 1 else s.reg sr)).setccIfAll (s.reg 6 - 1)).setPhase .execute) := by
    unfold State.pushWord
    dsimp only [spReg, setPhase_reg]
    rw [h6, check_of_inRange h1, Flow.andThen_go, h6, hr]
    rfl
  refine (runPhases_execute_only s fun s => s.pushWord sr).trans ?_
  rw [hf]
  rfl

theorem exec_push_of_not_inRange {s : State} (sr : Reg) (h : ¬ s.InRange (s.reg 6 - 1)) :
    exec (.push sr) s = .next (takeFault s s (s.reg 6 - 1)) := by
  have h6 : ((s.setPhase .execute).setReg 6 (s.reg 6 - 1)).reg 6 = s.reg 6 - 1 := reg_setReg_self _ _ _
  have h1 : ¬ ((s.setPhase .execute).setReg 6 (s.reg 6 - 1)).InRange (s.reg 6 - 1) := h
  have hf : (s.setPhase .execute).pushWord sr =
      .outOfRange (s.reg 6 - 1) ((s.setPhase .execute).setReg 6 (s.reg 6 - 1)) := by
    unfold State.pushWord
    dsimp only [spReg, setPhase_reg]
    rw [h6, check_of_not_inRange h1, Flow.andThen_outOfRange]
  refine (runPhases_execute_only s fun s => s.pushWord sr).trans ?_
  rw [hf]
  rfl

/-- What POP leaves: `x[dr]` is written before R6 is read and incremented. -/
def State.popped (s : State) (dr : Reg) : State :=
  let s1 := s.setReg dr (s.memRead (s.reg 6))
  (s1.setReg 6 (s1.reg 6 + 1)).setccIfAll (s1.reg 6 + 1)

theorem exec_pop_of_inRange {s : State} (dr : Reg) (h : s.InRange (s.reg 6)) :
    exec (.pop dr) s = .next ((s.popped dr).setPhase .done) := by
  have hf : (s.setPhase .execute).popWord dr = .go ((s.popped dr).setPhase .execute) := by
    unfold State.popWord
    dsimp only [spReg, setPhase_reg]
    rw [check_of_inRange (s := s.setPhase .execute) (a := s.reg 6) h, Flow.andThen_go]
    rfl
  refine (runPhases_execute_only s fun s => s.popWord dr).trans ?_
  rw [hf]
  rfl

theorem exec_pop_of_not_inRange {s : State} (dr : Reg) (h : ¬ s.InRange (s.reg 6)) :
    exec (.pop dr) s = .next (takeFault s s (s.reg 6)) := by
  have hf : (s.setPhase .execute).popWord dr = .outOfRange (s.reg 6) (s.setPhase .execute) := by
    unfold State.popWord
    dsimp only [spReg, setPhase_reg]
    rw [check_of_not_inRange (s := s.setPhase .execute) (a := s.reg 6) h, Flow.andThen_outOfRange]
  refine (runPhases_execute_only s fun s => s.popWord dr).trans ?_
  rw [hf]
  rfl

end Sys2Proof.Machine
end

