-- ==== Sys2Proof/Laws/PerInstr.lean ====
section
/-! SUPPORT. The statements made once per instruction. `EncodedRow`: the row of an instruction
stands in the opcode table, and its encoding has its opcode (R92, R95, R96). -/

namespace Sys2Proof.Laws.EncodedRow

/-- The row of an instruction stands in the opcode table, and the encoding of the instruction has its opcode. -/
def Statement (i : Instr) : Prop :=
  i.WellFormed → i.row ∈ opcodeTable ∧ opField (encode i) = i.opcode

/-- A word whose top four bits are those of `op` has the opcode `op`. -/
theorem opField_eq {w : Word} {op : BitVec 4} (h3 : w.getLsbD 15 = op.getLsbD 3) (h2 : w.getLsbD 14 = op.getLsbD 2)
    (h1 : w.getLsbD 13 = op.getLsbD 1) (h0 : w.getLsbD 12 = op.getLsbD 0) : opField w = op := by
  unfold opField
  ext i hi
  have : i = 0 ∨ i = 1 ∨ i = 2 ∨ i = 3 := by omega
  rcases this with rfl | rfl | rfl | rfl <;> simp_all

theorem addReg (dr sr1 sr2 : Reg) : Statement (.addReg dr sr1 sr2) :=
  fun _ => ⟨by simp [opcodeTable, Instr.row], by
    apply opField_eq <;> (simp only [encode, BitVec.getLsbD_append]; rfl)⟩

theorem addImm (dr sr1 : Reg) (imm5 : BitVec 5) : Statement (.addImm dr sr1 imm5) :=
  fun _ => ⟨by simp [opcodeTable, Instr.row], by
    apply opField_eq <;> (simp only [encode, BitVec.getLsbD_append]; rfl)⟩

theorem andReg (dr sr1 sr2 : Reg) : Statement (.andReg dr sr1 sr2) :=
  fun _ => ⟨by simp [opcodeTable, Instr.row], by
    apply opField_eq <;> (simp only [encode, BitVec.getLsbD_append]; rfl)⟩

theorem andImm (dr sr1 : Reg) (imm5 : BitVec 5) : Statement (.andImm dr sr1 imm5) :=
  fun _ => ⟨by simp [opcodeTable, Instr.row], by
    apply opField_eq <;> (simp only [encode, BitVec.getLsbD_append]; rfl)⟩

theorem notOp (dr sr : Reg) : Statement (.notOp dr sr) :=
  fun _ => ⟨by simp [opcodeTable, Instr.row], by
    apply opField_eq <;> (simp only [encode, BitVec.getLsbD_append]; rfl)⟩

theorem br (nzp : BitVec 3) (off : BitVec 9) : Statement (.br nzp off) :=
  fun _ => ⟨by simp [opcodeTable, Instr.row], by
    apply opField_eq <;> (simp only [encode, BitVec.getLsbD_append]; rfl)⟩

theorem jmp (baseR : Reg) : Statement (.jmp baseR) :=
  fun _ => ⟨by simp [opcodeTable, Instr.row], by
    apply opField_eq <;> (simp only [encode, BitVec.getLsbD_append]; rfl)⟩

theorem jsr (off : BitVec 11) : Statement (.jsr off) :=
  fun _ => ⟨by simp [opcodeTable, Instr.row], by
    apply opField_eq <;> (simp only [encode, BitVec.getLsbD_append]; rfl)⟩

theorem jsrr (baseR : Reg) : Statement (.jsrr baseR) :=
  fun _ => ⟨by simp [opcodeTable, Instr.row], by
    apply opField_eq <;> (simp only [encode, BitVec.getLsbD_append]; rfl)⟩

theorem ld (dr : Reg) (off : BitVec 9) : Statement (.ld dr off) :=
  fun _ => ⟨by simp [opcodeTable, Instr.row], by
    apply opField_eq <;> (simp only [encode, BitVec.getLsbD_append]; rfl)⟩

theorem ldi (dr : Reg) (off : BitVec 9) : Statement (.ldi dr off) :=
  fun _ => ⟨by simp [opcodeTable, Instr.row], by
    apply opField_eq <;> (simp only [encode, BitVec.getLsbD_append]; rfl)⟩

theorem ldr (dr baseR : Reg) (off : BitVec 6) : Statement (.ldr dr baseR off) :=
  fun _ => ⟨by simp [opcodeTable, Instr.row], by
    apply opField_eq <;> (simp only [encode, BitVec.getLsbD_append]; rfl)⟩

theorem lea (dr : Reg) (off : BitVec 9) : Statement (.lea dr off) :=
  fun _ => ⟨by simp [opcodeTable, Instr.row], by
    apply opField_eq <;> (simp only [encode, BitVec.getLsbD_append]; rfl)⟩

theorem st (sr : Reg) (off : BitVec 9) : Statement (.st sr off) :=
  fun _ => ⟨by simp [opcodeTable, Instr.row], by
    apply opField_eq <;> (simp only [encode, BitVec.getLsbD_append]; rfl)⟩

theorem sti (sr : Reg) (off : BitVec 9) : Statement (.sti sr off) :=
  fun _ => ⟨by simp [opcodeTable, Instr.row], by
    apply opField_eq <;> (simp only [encode, BitVec.getLsbD_append]; rfl)⟩

theorem str (sr baseR : Reg) (off : BitVec 6) : Statement (.str sr baseR off) :=
  fun _ => ⟨by simp [opcodeTable, Instr.row], by
    apply opField_eq <;> (simp only [encode, BitVec.getLsbD_append]; rfl)⟩

theorem getc : Statement .getc :=
  fun _ => ⟨by simp [opcodeTable, Instr.row], by decide⟩

theorem out : Statement .out :=
  fun _ => ⟨by simp [opcodeTable, Instr.row], by decide⟩

theorem puts : Statement .puts :=
  fun _ => ⟨by simp [opcodeTable, Instr.row], by decide⟩

theorem halt : Statement .halt :=
  fun _ => ⟨by simp [opcodeTable, Instr.row], by decide⟩

theorem trap (v : BitVec 8) : Statement (.trap v) :=
  fun _ => ⟨by simp [opcodeTable, Instr.row], by
    apply opField_eq <;> (simp only [encode, BitVec.getLsbD_append]; rfl)⟩

theorem push (sr : Reg) : Statement (.push sr) :=
  fun _ => ⟨by simp [opcodeTable, Instr.row], by
    apply opField_eq <;> (simp only [encode, BitVec.getLsbD_append]; rfl)⟩

theorem pop (dr : Reg) : Statement (.pop dr) :=
  fun _ => ⟨by simp [opcodeTable, Instr.row], by
    apply opField_eq <;> (simp only [encode, BitVec.getLsbD_append]; rfl)⟩

theorem invalid : Statement .invalid :=
  fun _ => ⟨by simp [opcodeTable, Instr.row], by
    apply opField_eq <;> (simp only [encode, BitVec.getLsbD_append]; rfl)⟩

end Sys2Proof.Laws.EncodedRow
end

