-- ==== Sys2Proof/Tests/Slice0.lean ====
section
/-! SUPPORT. The model's own tests: the smoke test of well-formedness, a word of every row decoded, one or two steps of
every instruction (expected results from spec/95_test_vectors.md), and for every statement with hypotheses a concrete
state and operands that meet them. -/

namespace Sys2Proof.Tests

-- The tests are checked one after another: as tasks that all wait for the laws they would take a thread each.
set_option Elab.async false

open Sys2Proof.Machine

/-! ## Well-formedness and decoding

The words are written out from the patterns of R92; `_` separates the fields. -/

theorem test_wellFormed_refuses_a_service_vector : (Instr.trap 0x25#8).wellFormed = false := by decide

theorem test_wellFormed_accepts_other_vectors :
    (Instr.trap 0x1F#8).WellFormed ∧ (Instr.trap 0x23#8).WellFormed ∧ (Instr.trap 0x24#8).WellFormed ∧
    (Instr.trap 0x26#8).WellFormed := by decide

theorem test_decode_addReg : decode 0b0001_001_010_0_00_011#16 = .addReg 1 2 3 := by decide
theorem test_decode_addImm : decode 0b0001_001_010_1_10001#16 = .addImm 1 2 0b10001#5 := by decide
theorem test_decode_andReg : decode 0b0101_111_010_0_11_100#16 = .andReg 7 2 4 := by decide
theorem test_decode_andImm : decode 0b0101_001_110_1_01111#16 = .andImm 1 6 0b01111#5 := by decide
theorem test_decode_notOp : decode 0b1001_101_100_111111#16 = .notOp 5 4 := by decide
theorem test_decode_br : decode 0b0000_010_111111101#16 = .br 0b010#3 0b111111101#9 := by decide
theorem test_decode_jmp : decode 0b1100_000_010_000000#16 = .jmp 2 := by decide
theorem test_decode_jsr : decode 0b0100_1_10000000001#16 = .jsr 0b10000000001#11 := by decide
theorem test_decode_jsrr : decode 0b0100_0_00_011_000000#16 = .jsrr 3 := by decide
theorem test_decode_ld : decode 0b0010_010_100000011#16 = .ld 2 0b100000011#9 := by decide
theorem test_decode_ldi : decode 0b1010_011_000000010#16 = .ldi 3 0b000000010#9 := by decide
theorem test_decode_ldr : decode 0b0110_100_101_111110#16 = .ldr 4 5 0b111110#6 := by decide
theorem test_decode_lea : decode 0b1110_001_011111111#16 = .lea 1 0b011111111#9 := by decide
theorem test_decode_st : decode 0b0011_001_000000100#16 = .st 1 0b000000100#9 := by decide
theorem test_decode_sti : decode 0b1011_001_000000001#16 = .sti 1 0b000000001#9 := by decide
theorem test_decode_str : decode 0b0111_001_110_100000#16 = .str 1 6 0b100000#6 := by decide
theorem test_decode_getc : decode 0b1111_0000_00100000#16 = .getc := by decide
theorem test_decode_out : decode 0b1111_0000_00100001#16 = .out := by decide
theorem test_decode_puts : decode 0b1111_0000_00100010#16 = .puts := by decide
theorem test_decode_halt : decode 0b1111_1111_00100101#16 = .halt := by decide
theorem test_decode_trap : decode 0b1111_0000_00100011#16 = .trap 0b00100011#8 := by decide
theorem test_decode_push : decode 0b1101_001_111_0_11111#16 = .push 1 := by decide
theorem test_decode_pop : decode 0b1101_010_000_1_00000#16 = .pop 2 := by decide
theorem test_decode_invalid : decode 0b1000_111111111111#16 = .invalid := by decide

/-! ## One step of each instruction

`start` is the start state of the vectors: an image loaded at 0x3000 with L = 8 and MEM_WORDS = 0x1000. -/

/-- The core after a load of `words` at 0x3000. -/
def start (words : List Word) : State := State.reset.loadImage words 0x3000#16

/-- What `f` reads off the state after one step. -/
def after {α : Type} (s : State) (f : State → α) : Option α :=
  match step s with
  | .next t => some (f t)
  | .fault _ => none
  | .refused _ => none

/-- The data-cache events. -/
def dcEvents (t : State) : List (AccessOp × Word × AccessKind) :=
  (t.trace.filter fun e => e.cache = .dc).map fun e => (e.op, e.addr, e.kind)

/-- Vector 2.1. -/
theorem test_addReg_wraps : after (((start [0x1283#16]).setReg 2 0x7FFF#16).setReg 3 1) (fun t => (t.reg 1, t.cc, t.pc)) =
    some (0x8000#16, .n, 0x3001#16) := by decide +kernel

/-- Vector 2.4. -/
theorem test_addImm_sign_extends : after ((start [0x1030#16]).setReg 0 0x0010#16) (fun t => (t.reg 0, t.cc)) =
    some (0x0000#16, .z) := by decide +kernel

/-- Vector 2.8. -/
theorem test_andReg : after (((start [0x5042#16]).setReg 1 0xF0F0#16).setReg 2 0x0FF0#16) (fun t => (t.reg 0, t.cc)) =
    some (0x00F0#16, .p) := by decide +kernel

/-- Vector 2.10. -/
theorem test_andImm_sign_extends : after ((start [0x527F#16]).setReg 1 0x8001#16) (fun t => (t.reg 1, t.cc)) =
    some (0x8001#16, .n) := by decide +kernel

/-- Vector 2.14. -/
theorem test_not_ignores_filler : after ((start [0x9B00#16]).setReg 4 0x00FF#16) (fun t => (t.reg 5, t.cc)) =
    some (0xFF00#16, .n) := by decide +kernel

/-- Vector 3.1. -/
theorem test_ld : after ((start [0x2403#16]).memWrite 0x3004#16 0x8000#16) (fun t => (t.reg 2, t.cc, dcEvents t)) =
    some (0x8000#16, .n, [(.read, 0x3004#16, .coldMiss)]) := by decide +kernel

/-- Vector 3.4: the fault rolls the cycle back. -/
theorem test_ld_fault : after ((start [0x25FE#16]).setReg 2 0x1111#16) (fun t => (t.fault, t.pc, t.reg 2, t.ic ++ t.dc)) =
    some (some (.outOfRange 0x2FFF#16), 0x3000#16, 0x1111#16, []) := by decide +kernel

/-- Vector 3.8: pointer and target share a line. -/
theorem test_ldi_conflict : after (((start [0xA602#16]).memWrite 0x3003#16 0x300B#16).memWrite 0x300B#16 5)
    (fun t => (t.reg 3, dcEvents t)) =
    some (0x0005#16, [(.read, 0x3003#16, .coldMiss), (.read, 0x300B#16, .conflictMiss)]) := by decide +kernel

/-- Vector 3.9. -/
theorem test_ldi_fault : after ((start [0xA602#16]).memWrite 0x3003#16 0x1234#16) (fun t => (t.fault, t.dc)) =
    some (some (.outOfRange 0x1234#16), []) := by decide +kernel

/-- Vector 3.5. -/
theorem test_ldr : after (((start [0x697E#16]).setReg 5 0x3010#16).memWrite 0x300E#16 0x0042#16)
    (fun t => (t.reg 4, t.cc)) = some (0x0042#16, .p) := by decide +kernel

/-- Vector 3.6. -/
theorem test_ldr_wraps_then_checks : after ((start [0x6B41#16]).setReg 5 0xFFFF#16) (fun t => t.fault) =
    some (some (.outOfRange 0x0000#16)) := by decide +kernel

/-- Vector 3.12. -/
theorem test_lea_outside_memory : after (start [0xE100#16]) (fun t => (t.reg 0, t.cc, t.dc)) =
    some (0x2F01#16, .p, []) := by decide +kernel

/-- Vector 3.15. -/
theorem test_st : after { (start [0x3204#16]).setReg 1 0xBEEF#16 with cc := .n }
    (fun t => (t.cc, t.dc, t.memRead 0x3005#16)) =
    some (.n, [(5, { valid := true, dirty := true, tag := 0, word := 0xBEEF#16 })], 0x0000#16) := by decide +kernel

/-- Vector 3.16. -/
theorem test_sti : after (((start [0xB201#16]).setReg 1 0x1234#16).memWrite 0x3002#16 0x3100#16)
    (fun t => (t.dc.line 0, t.memRead 0x3100#16)) =
    some ({ valid := true, dirty := true, tag := 0x20, word := 0x1234#16 }, 0x0000#16) := by decide +kernel

/-- Vector 3.18. -/
theorem test_sti_fault : after (((start [0xB201#16]).setReg 1 0x1234#16).memWrite 0x3002#16 0x4000#16)
    (fun t => (t.fault, t.dc)) = some (some (.outOfRange 0x4000#16), []) := by decide +kernel

/-- Vector 3.17. -/
theorem test_str : after (((start [0x7380#16]).setReg 1 0x0042#16).setReg 6 0x3020#16) (fun t => t.dc) =
    some [(0, { valid := true, dirty := true, tag := 4, word := 0x0042#16 })] := by decide +kernel

/-- Vector 4.4. -/
theorem test_br_taken : after { start [0x0FFF#16] with cc := .n } (fun t => t.pc) = some 0x3000#16 := by decide +kernel

/-- Vector 4.6. -/
theorem test_br_not_taken : after (start [0x0205#16]) (fun t => t.pc) = some 0x3001#16 := by decide +kernel

/-- Vector 4.10. -/
theorem test_ret : after ((start [0xC1C0#16]).setReg 7 0x3005#16) (fun t => t.pc) = some 0x3005#16 := by decide +kernel

/-- Vector 4.12. -/
theorem test_jsr_backwards : after (start [0x4C00#16]) (fun t => (t.reg 7, t.pc, t.cc)) =
    some (0x3001#16, 0x2C01#16, .z) := by decide +kernel

/-- Vector 4.14. -/
theorem test_jsrr : after ((start [0x40C0#16]).setReg 3 0x3050#16) (fun t => (t.reg 7, t.pc)) =
    some (0x3001#16, 0x3050#16) := by decide +kernel

/-- Vector 4.15: the link is written before the target is read. -/
theorem test_jsrr_r7 : after ((start [0x41C0#16]).setReg 7 0x3050#16) (fun t => (t.reg 7, t.pc)) =
    some (0x3001#16, 0x3001#16) := by decide +kernel

/-- Vector 5.3. -/
theorem test_getc : after ((start [0xF020#16]).supplyInput [0x41#8]) (fun t => (t.reg 0, t.cc, t.console.input)) =
    some (0x0041#16, .z, []) := by decide +kernel

/-- Vector 5.4: the step does not complete. -/
theorem test_getc_waits : after (start [0xF020#16]) (fun t => (t.latch.phase, t.report)) = some (.execute, none) := by
  decide +kernel

/-- Vector 5.5. -/
theorem test_out : after ((start [0xF021#16]).setReg 0 0x1241#16) (fun t => (t.console.output, t.reg 0)) =
    some ([0x41#8], 0x1241#16) := by decide +kernel

/-- Vector 5.6. -/
theorem test_puts : after ((((start [0xF022#16]).setReg 0 0x3010#16).memWrite 0x3010#16 0x0048#16).memWrite 0x3011#16
    0x0069#16) (fun t => (t.console.output, t.dc.length)) = some ([0x48#8, 0x69#8], 3) := by decide +kernel

/-- Vector 5.9: the two bytes stay sent. -/
theorem test_puts_fault : after ((((start [0xF022#16]).setReg 0 0x3FFE#16).memWrite 0x3FFE#16 0x0041#16).memWrite
    0x3FFF#16 0x0042#16) (fun t => (t.fault, t.dc, t.console.output)) =
    some (some (.outOfRange 0x4000#16), [], [0x41#8, 0x42#8]) := by decide +kernel

/-- Vector 5.1. -/
theorem test_halt : after (start [0xF025#16]) (fun t => (t.halted, t.pc, t.report)) =
    some (true, 0x3001#16, some .halted) := by decide +kernel

/-- Vector 5.10. -/
theorem test_trap_unassigned : after (start [0xF023#16]) (fun t => (t.pc, t.regs, t.report)) =
    some (0x3001#16, Vector.replicate 8 0, some .continued) := by decide +kernel

/-- Vector 6.1. -/
theorem test_push : after (((start [0xD200#16]).setReg 1 0x1111#16).setReg 6 0x4000#16)
    (fun t => (t.reg 6, t.memRead 0x3FFF#16, t.dc)) = some (0x3FFF#16, 0x1111#16, []) := by decide +kernel

/-- Vector 6.3: the decremented R6 is pushed. -/
theorem test_push_r6 : after ((start [0xDC00#16]).setReg 6 0x3010#16) (fun t => (t.reg 6, t.memRead 0x300F#16)) =
    some (0x300F#16, 0x300F#16) := by decide +kernel

/-- Vector 6.5. -/
theorem test_pop : after (((start [0xD420#16]).setReg 6 0x3FFF#16).memWrite 0x3FFF#16 0x1111#16)
    (fun t => (t.reg 2, t.reg 6, t.cc)) = some (0x1111#16, 0x4000#16, .z) := by decide +kernel

/-- Vector 6.6: the popped R6 is incremented. -/
theorem test_pop_r6 : after (((start [0xDC20#16]).setReg 6 0x3010#16).memWrite 0x3010#16 0x3050#16) (fun t => t.reg 6) =
    some 0x3051#16 := by decide +kernel

/-- Vector 8.1. -/
theorem test_invalid : after { start [0x8000#16] with cc := .n } (fun t => (t.pc, t.cc, t.regs)) =
    some (0x3001#16, .n, Vector.replicate 8 0) := by decide +kernel

/-- The host's way to run one word first (vector 2.2). -/
theorem test_withFetchWord : after (State.reset.withFetchWord 16 0x127F) (fun t => (t.reg 1, t.cc, t.pc)) =
    some (0xFFFF#16, .n, 0x3001#16) := by decide +kernel

/-! ## Witnesses

For each statement of Certificates/Slice0/Obligations.lean that has hypotheses: a concrete state and operands that meet
them together, for each clause, at boundary values of its range. -/

/-- The outcome is a next state of which `p` holds. -/
def nextWith (o : Host.Outcome State Fault Refusal) (p : State → Bool) : Bool :=
  match o with
  | .next t => p t
  | .fault _ => false
  | .refused _ => false

theorem exists_of_nextWith {o : Host.Outcome State Fault Refusal} {p : State → Bool} (h : nextWith o p = true) :
    ∃ t, o = .next t ∧ p t = true := by
  cases o with
  | next t => exact ⟨t, rfl, h⟩
  | fault _ => exact absurd h Bool.false_ne_true
  | refused _ => exact absurd h Bool.false_ne_true

/-- A memory of one word and caches of one line: the least legal parameters. -/
def tiny : State := State.powerOn { resetConfig with lastOffset := 0, lineBits := 0 }

/-- A state in the middle of a run: listed memory, a clean line in each cache, a dirty line, breakpoints. -/
def worked : State :=
  { start [0x3204#16, 0x0041#16] with
    pc := 0x3001#16, bp := [0x3000#16, 0x3FFF#16],
    ic := [(0, { valid := true, dirty := false, tag := 0, word := 0x3204#16 })],
    dc := [(0, { valid := true, dirty := false, tag := 1, word := 0x0000#16 }),
           (5, { valid := true, dirty := true, tag := 511, word := 0xBEEF#16 })] }

theorem worked_inv : worked.Inv where
  mem_wf := by decide +kernel
  lines_wf := fun c => by cases c <;> decide +kernel
  lines_installed := fun c => by cases c <;> decide +kernel
  ic_clean := by decide +kernel
  bp_set := by decide +kernel
  phase_ok := .inl rfl

theorem start_ready (w : Word) : (start [w]).Ready := ⟨rfl, rfl, rfl, rfl, by
  change (0x3000#16 - 0x3000#16).toNat < resetConfig.memWords
  decide⟩

theorem witness_DecodeOfEncodeIsIdentity :
    (Instr.trap 0x00#8).WellFormed ∧ (Instr.trap 0xFF#8).WellFormed ∧ (Instr.addImm 7 0 0x1F#5).WellFormed := by decide

theorem witness_SetccFollowsTheSign :
    (0x8000#16).toInt < 0 ∧ (0xFFFF#16).toInt < 0 ∧ (0x0000#16).toInt = 0 ∧ 0 < (0x0001#16).toInt ∧
    0 < (0x7FFF#16).toInt := by decide

theorem witness_LoadResetsTheCore :
    tiny.BetweenCycles ∧ ([] : List Word).length ≤ tiny.cfg.memWords ∧ [0xFFFF#16].length ≤ tiny.cfg.memWords :=
  ⟨.inl rfl, by decide⟩

theorem witness_LoadPlacesTheImage :
    tiny.BetweenCycles ∧ [0xFFFF#16].length ≤ tiny.cfg.memWords ∧ 0 < [0xFFFF#16].length ∧ [0xFFFF#16].length ≤ 1 :=
  ⟨.inl rfl, by decide⟩

theorem witness_TooLargeLoadChangesNothing :
    tiny.BetweenCycles ∧ tiny.cfg.memWords < [0x0001#16, 0x0002#16].length := ⟨.inl rfl, by decide⟩

theorem witness_StepKeepsTheInvariant : worked.Inv ∧ ∃ t, step worked = .next t ∧ t ≠ worked :=
  ⟨worked_inv, (exists_of_nextWith (p := fun t => t.pc = 0x3002#16) (by decide +kernel)).imp
    fun _ h => ⟨h.1, fun e => absurd (e ▸ h.2) (by decide)⟩⟩

theorem witness_StepAlwaysAnswersANextState : worked.Inv := worked_inv

/-- A GETC that waits for a byte. -/
def waiting : State :=
  { start [0xF020#16] with pc := 0x3001#16, ir := 0xF020#16, latch := { Latches.reset with phase := .execute } }

theorem waiting_inCycle : ¬ waiting.BetweenCycles := by
  unfold State.BetweenCycles
  decide

theorem witness_HostOperationsKeepTheInvariant :
    (worked.Inv ∧ (∃ t, worked.load [0x0001#16] 0xFFFF#16 = some (t, .ok)) ∧
      (∃ t, worked.poke 0x3FFF#16 1 = some (t, .ok)) ∧ (∃ t, worked.setBreakpoint 0xFFFF#16 = some (t, .ok)) ∧
      ∃ t, worked.clearBreakpoint 0x3000#16 = some (t, .ok)) ∧
    (tiny.bp.Pairwise (· < ·) ∧ tiny.bp.length ≤ 4 ∧ ∃ t, tiny.load [0x0001#16] 0xFFFF#16 = some (t, .ok)) ∧
    ¬ waiting.BetweenCycles ∧ worked.BetweenCycles :=
  ⟨⟨worked_inv, ⟨_, rfl⟩, ⟨_, rfl⟩, ⟨_, rfl⟩, ⟨_, rfl⟩⟩, ⟨by decide, by decide, _, rfl⟩, waiting_inCycle, .inr (.inr (.inr rfl))⟩

/-- The end of the phases after DECODE of the instruction at `pc`. -/
def cycleEnd (s : State) (p : State → Bool) : Bool :=
  match s.fetch with
  | .go s1 => nextWith (exec (decode (s.viewI s.pc)) s1.latchDecode) p
  | .hold _ => false
  | .outOfRange _ _ => false

theorem exists_of_cycleEnd {s : State} {p : State → Bool} (h : cycleEnd s p = true) :
    ∃ s1, s.fetch = .go s1 ∧ ∃ t, exec (decode (s.viewI s.pc)) s1.latchDecode = .next t ∧ p t = true := by
  unfold cycleEnd at h
  split at h
  · next s1 h1 => exact ⟨s1, h1, exists_of_nextWith h⟩
  · exact absurd h Bool.false_ne_true
  · exact absurd h Bool.false_ne_true

/-- The three ends of the decoded instruction: ADD completes, HALT ends in EXECUTE, LD #-2 faults at 0x2FFF. -/
theorem witness_StepRunsTheDecodedInstruction :
    ((start [0x1021#16]).Ready ∧ ∃ s1, (start [0x1021#16]).fetch = .go s1 ∧ ∃ t,
      exec (decode ((start [0x1021#16]).viewI (start [0x1021#16]).pc)) s1.latchDecode = .next t ∧
      decide (t.fault = none ∧ t.latch.phase = .done) = true) ∧
    ((start [0xF025#16]).Ready ∧ ∃ s1, (start [0xF025#16]).fetch = .go s1 ∧ ∃ t,
      exec (decode ((start [0xF025#16]).viewI (start [0xF025#16]).pc)) s1.latchDecode = .next t ∧
      decide (t.fault = none ∧ t.latch.phase = .execute) = true) ∧
    ((start [0x25FE#16]).Ready ∧ ∃ s1, (start [0x25FE#16]).fetch = .go s1 ∧ ∃ t,
      exec (decode ((start [0x25FE#16]).viewI (start [0x25FE#16]).pc)) s1.latchDecode = .next t ∧
      decide (t.fault = some (.outOfRange 0x2FFF#16)) = true) :=
  ⟨⟨start_ready _, exists_of_cycleEnd (p := fun t => t.fault = none ∧ t.latch.phase = .done) (by decide +kernel)⟩,
   ⟨start_ready _, exists_of_cycleEnd (p := fun t => t.fault = none ∧ t.latch.phase = .execute) (by decide +kernel)⟩,
   ⟨start_ready _, exists_of_cycleEnd (p := fun t => t.fault = some (.outOfRange 0x2FFF#16)) (by decide +kernel)⟩⟩

/-- Just past memory and just below it. -/
theorem witness_FetchOutsideMemoryFaults :
    (start []).loaded = true ∧ (start []).fault = none ∧
    (start []).halted = false ∧ (start []).latch.phase = .fetch ∧
    ¬ ({ start [] with pc := 0x4000#16 } : State).InRange 0x4000#16 ∧
    ¬ ({ start [] with pc := 0x2FFF#16 } : State).InRange 0x2FFF#16 := by decide +kernel

theorem witness_StatusTestsComeFirst :
    tiny.loaded = false ∧
    (({ start [] with fault := some (.outOfRange 0x2FFF#16), halted := true } : State).loaded = true) ∧
    ({ start [] with halted := true } : State).loaded = true ∧ ({ start [] with halted := true } : State).fault = none := by
  decide

theorem witness_FaultsArePrecise :
    (start [0x25FE#16]).fault = none ∧ ∃ t, step (start [0x25FE#16]) = .next t ∧
      decide (t.fault = some (.outOfRange 0x2FFF#16)) = true :=
  ⟨rfl, exists_of_nextWith (p := fun t => t.fault = some (.outOfRange 0x2FFF#16)) (by decide +kernel)⟩

theorem witness_OnlyListedChecksFault :
    (start []).fault = none ∧ ∃ t, exec (.ldi 3 0x1FF#9) (start []) = .next t ∧
      decide (t.fault = some (.outOfRange 0x2FFF#16)) = true :=
  ⟨rfl, exists_of_nextWith (p := fun t => t.fault = some (.outOfRange 0x2FFF#16)) (by decide +kernel)⟩

theorem witness_TraceAndConsoleOnlyGrow :
    ∃ t, step ((start [0xF020#16]).supplyInput [0x41#8]) = .next t ∧ decide (t.trace.length = 1) = true :=
  exists_of_nextWith (p := fun t => t.trace.length = 1) (by decide +kernel)

theorem witness_OnlyListedRegistersAreWritten :
    ∃ t, exec (.pop 2) (((start []).setReg 6 0x3FFF#16).memWrite 0x3FFF#16 1) = .next t ∧
      decide (t.reg 2 ≠ (start []).reg 2 ∧ t.reg 6 ≠ 0x3FFF#16) = true :=
  exists_of_nextWith (p := fun t => t.reg 2 ≠ (start []).reg 2 ∧ t.reg 6 ≠ 0x3FFF#16) (by decide +kernel)

theorem witness_OnlyControlTransfersWritePc :
    (∃ t, exec (.br 0b010#3 0x1FF#9) (start []) = .next t ∧ decide (t.pc ≠ (start []).pc) = true) ∧
    (∃ s1, (start [0x1021#16]).fetch = .go s1 ∧ ∃ t,
      exec (decode ((start [0x1021#16]).viewI (start [0x1021#16]).pc)) s1.latchDecode = .next t ∧ true = true) ∧
    (∃ t, tiny.load [0x0001#16] 0xFFFF#16 = some (t, .ok)) ∧ (start []).BetweenCycles :=
  ⟨exists_of_nextWith (p := fun t => t.pc ≠ (start []).pc) (by decide +kernel),
   exists_of_cycleEnd (p := fun _ => true) (by decide +kernel), ⟨_, rfl⟩, .inr (.inr (.inr rfl))⟩

theorem witness_OnlySevenInstructionsSetCC :
    (start []).cfg.ccOnAllRegWrites = false ∧ (start []).fault = none ∧
    (∃ t, exec (.lea 1 0x000#9) (start []) = .next t ∧ decide (t.fault = none) = true) ∧
    (Instr.lea 1 0x000#9).setsCC = some 1 ∧ (∃ t, exec .halt (start []) = .next t ∧ true = true) ∧
    Instr.halt.setsCC = none :=
  ⟨rfl, rfl, exists_of_nextWith (p := fun t => t.fault = none) (by decide +kernel), rfl,
   exists_of_nextWith (p := fun _ => true) (by decide +kernel), rfl⟩

theorem witness_StatusFieldsHaveTheirWriters :
    (∃ t, step (start [0xF025#16]) = .next t ∧ decide (t.halted ≠ (start [0xF025#16]).halted) = true) ∧
    (∃ t, step (start [0x25FE#16]) = .next t ∧ decide (t.fault ≠ (start [0x25FE#16]).fault) = true) :=
  ⟨exists_of_nextWith (p := fun t => t.halted ≠ (start [0xF025#16]).halted) (by decide +kernel),
   exists_of_nextWith (p := fun t => t.fault ≠ (start [0x25FE#16]).fault) (by decide +kernel)⟩

theorem witness_InstructionsNeverWriteTheInstructionCache :
    ∃ t, exec (.st 1 0x1FF#9) worked = .next t ∧ decide (t.dc ≠ worked.dc) = true :=
  exists_of_nextWith (p := fun t => t.dc ≠ worked.dc) (by decide +kernel)

/-- Two states that differ in `ir`, `mar`, `mdr` and a latch alone, at the start of a cycle that a GETC will hold; and two
such states in the cycle it holds, with the same `ir`. -/
theorem witness_TransientRegistersCarryNothing :
    (AlikeButTransient (start [0xF020#16])
        ({ (start [0xF020#16]).latchEa 5 with ir := 1, mar := 2, mdr := 3 } : State) ∧
      (start [0xF020#16]) ≠ ({ (start [0xF020#16]).latchEa 5 with ir := 1, mar := 2, mdr := 3 } : State) ∧
      (start [0xF020#16]).latch.phase = .fetch ∧
      ∃ t, step (start [0xF020#16]) = .next t ∧ decide (t.latch.phase = .execute) = true) ∧
    (AlikeButTransient waiting ({ waiting.latchEa 5 with mar := 2, mdr := 3 } : State) ∧
      ∃ t, step waiting = .next t ∧ decide (t.latch.phase = .execute) = true) :=
  ⟨⟨⟨rfl, fun h => absurd h (by decide)⟩, by decide +kernel, rfl,
      exists_of_nextWith (p := fun t => t.latch.phase = .execute) (by decide +kernel)⟩,
   ⟨rfl, fun _ => rfl⟩, exists_of_nextWith (p := fun t => t.latch.phase = .execute) (by decide +kernel)⟩

theorem witness_AccessDelayDoesNotMatter :
    ∃ t, step (start [0x1021#16]) = .next t ∧ decide (t.reg 0 = 1) = true :=
  exists_of_nextWith (p := fun t => t.reg 0 = 1) (by decide +kernel)

/-- The first and the last address of memory, and those just outside it, for both forms; `pc` is 0x3000. -/
theorem witness_DirectLoadsReadThroughTheDataCache :
    (start []).InRange ((start []).pc + (0x000#9).signExtend 16) ∧
    ({ start [] with pc := 0x3FFF#16 } : State).InRange (0x3FFF#16 + (0x000#9).signExtend 16) ∧
    ¬ ({ start [] with pc := 0x3FFF#16 } : State).InRange (0x3FFF#16 + (0x001#9).signExtend 16) ∧
    ¬ (start []).InRange ((start []).pc + (0x1FF#9).signExtend 16) ∧
    ((start []).setReg 5 0x3FE0#16).InRange (((start []).setReg 5 0x3FE0#16).reg 5 + (0x1F#6).signExtend 16) ∧
    ¬ ((start []).setReg 5 0x3FE1#16).InRange (((start []).setReg 5 0x3FE1#16).reg 5 + (0x1F#6).signExtend 16) ∧
    ¬ ((start []).setReg 5 0x301F#16).InRange (((start []).setReg 5 0x301F#16).reg 5 + (0x20#6).signExtend 16) := by
  decide +kernel

/-- A pointer outside memory, a pointer to outside memory, and a pointer to the last address; `pc` is 0x3000. -/
theorem witness_LdiLoadsThroughItsPointer :
    ¬ (start []).InRange ((start []).pc + (0x1FF#9).signExtend 16) ∧
    ((start [0x4000#16]).InRange ((start [0x4000#16]).pc + (0x000#9).signExtend 16) ∧
      ¬ (start [0x4000#16]).InRange ((start [0x4000#16]).viewD ((start [0x4000#16]).pc + (0x000#9).signExtend 16))) ∧
    ((start [0x3FFF#16]).InRange ((start [0x3FFF#16]).pc + (0x000#9).signExtend 16) ∧
      (start [0x3FFF#16]).InRange ((start [0x3FFF#16]).viewD ((start [0x3FFF#16]).pc + (0x000#9).signExtend 16))) := by
  decide +kernel

/-- The addresses of a store are formed as those of a load. -/
theorem witness_DirectStoresWriteTheDataCache :
    ({ start [] with pc := 0x3FFF#16 } : State).InRange (0x3FFF#16 + (0x000#9).signExtend 16) ∧
    ¬ ({ start [] with pc := 0x3FFF#16 } : State).InRange (0x3FFF#16 + (0x001#9).signExtend 16) ∧
    ((start []).setReg 6 0x3020#16).InRange (((start []).setReg 6 0x3020#16).reg 6 + (0x20#6).signExtend 16) ∧
    ¬ ((start []).setReg 6 0x301F#16).InRange (((start []).setReg 6 0x301F#16).reg 6 + (0x20#6).signExtend 16) := by
  decide +kernel

theorem witness_StiStoresThroughItsPointer :
    ¬ (start []).InRange ((start []).pc + (0x100#9).signExtend 16) ∧
    ((start [0x2FFF#16]).InRange ((start [0x2FFF#16]).pc + (0x000#9).signExtend 16) ∧
      ¬ (start [0x2FFF#16]).InRange ((start [0x2FFF#16]).viewD ((start [0x2FFF#16]).pc + (0x000#9).signExtend 16))) ∧
    ((start [0x3000#16]).InRange ((start [0x3000#16]).pc + (0x000#9).signExtend 16) ∧
      (start [0x3000#16]).InRange ((start [0x3000#16]).viewD ((start [0x3000#16]).pc + (0x000#9).signExtend 16))) := by
  decide +kernel

/-- An access to 0x3000 evicts the clean line of `worked` that holds 0x3008, and no other. -/
theorem witness_DataCacheViewsFollowAccesses :
    (0x3008#16 ≠ 0x3000#16 ∧ worked.EvictsClean .dc 0x3000#16 0x3008#16) ∧
    (0x3001#16 ≠ 0x3000#16 ∧ ¬ worked.EvictsClean .dc 0x3000#16 0x3001#16) :=
  ⟨⟨by decide, by decide, by decide, by decide⟩, by decide, fun h => absurd h.2.2 (by decide)⟩

/-- A fetch of 0x3008 evicts the line of `worked` that holds 0x3000. -/
theorem witness_TheThreePathsAreSeparate :
    0x3001#16 ≠ 0x3000#16 ∧ worked.EvictsClean .ic 0x3008#16 0x3000#16 ∧
    ¬ worked.EvictsClean .ic 0x3008#16 0x3001#16 :=
  ⟨by decide, ⟨by decide, by decide, by decide⟩, fun h => absurd h.2.2 (by decide)⟩

theorem witness_StoredWordsAreReadBackAndWrittenBack :
    worked.index 0x3FF8#16 = worked.index 0x3000#16 ∧ 0x3FF8#16 ≠ 0x3000#16 := by decide

theorem witness_BrBranchesOnTheConditionCode :
    ((start []).cc.bits &&& 0b010#3 ≠ 0) ∧ ((start []).cc.bits &&& 0b101#3 = 0) := by decide

theorem witness_JsrrLinksThenJumps : (6 : Reg) ≠ 7 ∧ (7 : Reg) = 7 ∧ (6 : Reg) ≠ linkReg := by decide

theorem witness_GetcTakesOneByte : ((start []).supplyInput [0xFF#8]).console.input = 0xFF#8 :: [] := rfl

theorem witness_GetcWaitsForTheHost :
    (start []).console.input = [] ∧
    ∃ s : State, s.console.input = [] ∧ s.loaded = true ∧ s.fault = none ∧ s.halted = false ∧
      s.latch.phase = .execute ∧ decode s.ir = .getc :=
  ⟨rfl, waiting, rfl, rfl, rfl, rfl, rfl, by decide⟩

/-- The string "A" at 0x3FFE, with and without a terminator at the last address. -/
def lettered (last : Word) : State :=
  (((start []).setReg 0 0x3FFE#16).memWrite 0x3FFE#16 0x0041#16).memWrite 0x3FFF#16 last

/-- The state in a cycle that a PUTS holds in EXECUTE. -/
def heldPuts (s : State) : State := { s with ir := 0xF022#16, latch := { s.latch with phase := .execute } }

/-- The conditions of a step from a held PUTS. -/
theorem heldPuts_holds (s : State) (h : s.loaded = true) (hf : s.fault = none) (hh : s.halted = false) :
    (heldPuts s).loaded = true ∧ (heldPuts s).fault = none ∧ (heldPuts s).halted = false ∧
    (heldPuts s).latch.phase = .execute ∧ decode (heldPuts s).ir = .puts :=
  ⟨h, hf, hh, rfl, (by decide : decode 0xF022#16 = .puts)⟩

/-- A held PUTS meets the clauses of a PUTS that begins as well. -/
theorem witness_PutsSendsUntilItEnds_terminator :
    ((heldPuts (lettered 0)).loaded = true ∧ (heldPuts (lettered 0)).fault = none ∧
      (heldPuts (lettered 0)).halted = false ∧ (heldPuts (lettered 0)).latch.phase = .execute ∧
      decode (heldPuts (lettered 0)).ir = .puts) ∧
    ∃ u, PutsSends ((heldPuts (lettered 0)).reg 0) (heldPuts (lettered 0)) [0x41#8] 0x3FFF#16 u ∧
      [0x41#8].length < 131072 ∧ u.InRange 0x3FFF#16 ∧ u.viewD 0x3FFF#16 = 0x0000#16 :=
  ⟨heldPuts_holds _ rfl rfl rfl, _, .char (by decide +kernel) (by decide +kernel) (.none _ _), by decide, by decide +kernel, by decide +kernel⟩

theorem witness_PutsSendsUntilItEnds_fault :
    ((heldPuts (lettered 0x0042#16)).loaded = true ∧ (heldPuts (lettered 0x0042#16)).fault = none ∧
      (heldPuts (lettered 0x0042#16)).halted = false ∧ (heldPuts (lettered 0x0042#16)).latch.phase = .execute ∧
      decode (heldPuts (lettered 0x0042#16)).ir = .puts) ∧
    ∃ u, PutsSends ((heldPuts (lettered 0x0042#16)).reg 0) (heldPuts (lettered 0x0042#16)) [0x41#8, 0x42#8] 0x4000#16 u ∧
      [0x41#8, 0x42#8].length < 131072 ∧ ¬ u.InRange 0x4000#16 :=
  ⟨heldPuts_holds _ rfl rfl rfl, _, .char (by decide +kernel) (by decide +kernel) (.char (by decide +kernel) (by decide +kernel) (.none _ _)),
    by decide, by decide +kernel⟩

/-- A memory of 65536 words, each 1, with one-line caches. -/
def ones : State :=
  { State.reset with
    cfg := { resetConfig with lastOffset := 0xFFFF#16, lineBits := 0 }, mem := imageFrom 0 (List.replicate 65536 1) }

theorem read_ones (n o k : Nat) (h1 : o ≤ k) (h2 : k < o + n) :
    Memory.read (imageFrom o (List.replicate n 1)) k = 1 := by
  induction n generalizing o with
  | zero => omega
  | succ n ih =>
    rw [List.replicate_succ, imageFrom, if_neg (by decide), Memory.read, sparseGet]
    split
    · rfl
    · exact ih (o + 1) (by omega) (by omega)

/-- Every word is 1, in memory and in the data cache, and no line is dirty. -/
structure AllOnes (s : State) : Prop where
  size : s.cfg.memWords = 65536
  clean : ∀ i, ((s.lines .dc).line i).dirty = false
  memory : ∀ k, k < 65536 → s.mem.read k = 1
  cached : ∀ i, ((s.lines .dc).line i).valid = true → ((s.lines .dc).line i).word = 1

theorem AllOnes.view {s : State} (h : AllOnes s) (a : Word) : s.viewD a = 1 := by
  rw [State.viewD, State.view]
  split
  · next hk => exact h.cached _ ((accessKind_eq_hit_iff s .dc a).mp hk).1
  · exact h.memory _ (BitVec.isLt _)

theorem AllOnes.afterRead {s : State} (h : AllOnes s) (a : Word) : AllOnes (s.afterRead .dc a) := by
  have e := afterRead_effect s .dc a
  have hv : s.victim .dc a = none := by
    unfold State.victim
    rw [if_neg]
    exact fun c => absurd ((h.clean _).symm.trans c.2) Bool.false_ne_true
  refine ⟨by simpa using h.size, fun i => ?_, fun k hk => ?_, fun i hi => ?_⟩
  · by_cases hx : i = s.index a
    · rw [hx, e.line]
      split
      · exact h.clean _
      · change (_ && ((s.lines .dc).line (s.index a)).dirty) = false
        rw [h.clean, Bool.and_false]
    · rw [e.otherLines i hx]
      exact h.clean i
  · rw [e.memory, hv, if_neg (by simp)]
    exact h.memory k hk
  · by_cases hx : i = s.index a
    · rw [hx, e.line] at hi ⊢
      split
      · next hk => rw [if_pos hk] at hi; exact h.cached _ hi
      · exact h.memory _ (BitVec.isLt _)
    · rw [e.otherLines i hx] at hi ⊢
      exact h.cached i hi

theorem AllOnes.sends (n : Nat) {s : State} (h : AllOnes s) (a : Word) :
    ∃ u b bytes, PutsSends a s bytes b u ∧ bytes.length = n := by
  induction n generalizing s a with
  | zero => exact ⟨s, a, [], .none a s, rfl⟩
  | succ n ih =>
    obtain ⟨u, b, bytes, hs, hl⟩ := ih (h.afterRead a) (a + 1)
    refine ⟨u, b, _, .char ?_ ?_ hs, congrArg (· + 1) hl⟩
    · change (a - s.loadBase).toNat < s.cfg.memWords
      rw [h.size]
      exact BitVec.isLt _
    · rw [h.view]
      decide

theorem ones_allOnes : AllOnes (heldPuts ones) where
  size := rfl
  clean := fun _ => rfl
  memory := fun k hk => read_ones 65536 0 k (Nat.zero_le k) (by omega)
  cached := fun _ hv => absurd (show Line.reset.valid = true from hv) Bool.false_ne_true

theorem witness_PutsSendsUntilItEnds_hold :
    ((heldPuts ones).loaded = true ∧ (heldPuts ones).fault = none ∧ (heldPuts ones).halted = false ∧
      (heldPuts ones).latch.phase = .execute ∧ decode (heldPuts ones).ir = .puts) ∧
    ∃ u b bytes, PutsSends ((heldPuts ones).reg 0) (heldPuts ones) bytes b u ∧ bytes.length = 131072 :=
  ⟨heldPuts_holds _ rfl rfl rfl, ones_allOnes.sends 131072 _⟩

/-- The string "Hi" at 0x3000; nothing is cached. -/
theorem witness_PutsSendsAString :
    ∃ s : State, s.DataCacheCurrent ∧ [0x0048#16, 0x0069#16].length < 65536 ∧
      (∀ k, (h : k < [0x0048#16, 0x0069#16].length) → [0x0048#16, 0x0069#16][k] ≠ 0x0000#16 ∧
        s.InRange (s.reg 0 + BitVec.ofNat 16 k) ∧
        s.viewD (s.reg 0 + BitVec.ofNat 16 k) = [0x0048#16, 0x0069#16][k]) ∧
      s.InRange (s.reg 0 + BitVec.ofNat 16 2) ∧ s.viewD (s.reg 0 + BitVec.ofNat 16 2) = 0x0000#16 :=
  ⟨(start [0x0048#16, 0x0069#16]).setReg 0 0x3000#16,
    fun _ h => absurd h (by rw [accessKind_eq_hit_iff]; exact fun e => absurd e.1 Bool.false_ne_true),
    by decide, by decide +kernel, by decide +kernel, by decide +kernel⟩

theorem witness_UnassignedVectorsDoNothing :
    0x1F#8 ≠ 0x20#8 ∧ 0x23#8 ≠ 0x22#8 ∧ 0x24#8 ≠ 0x25#8 ∧ 0x26#8 ≠ 0x25#8 ∧
    (0xFF#8 ≠ 0x20#8 ∧ 0xFF#8 ≠ 0x21#8 ∧ 0xFF#8 ≠ 0x22#8 ∧ 0xFF#8 ≠ 0x25#8) := by decide

theorem witness_InvalidOpcodeDoesNothing :
    (start [0x8FFF#16]).Inv ∧ (start [0x8FFF#16]).Ready ∧
    ((start [0x8FFF#16]).viewI (start [0x8FFF#16]).pc).extractLsb' 12 4 = 0x8#4 :=
  ⟨⟨by decide +kernel, fun c => by cases c <;> decide +kernel, fun c => by cases c <;> decide +kernel,
      by decide +kernel, by decide +kernel, .inl rfl⟩, start_ready _, by decide +kernel⟩

/-- R6 one past memory pushes at the last address; R6 at the first address of memory faults. -/
theorem witness_PushWritesRawMemory :
    ((start []).setReg 6 0x4000#16).InRange (((start []).setReg 6 0x4000#16).reg 6 - 1) ∧
    ¬ ((start []).setReg 6 0x3000#16).InRange (((start []).setReg 6 0x3000#16).reg 6 - 1) := by decide +kernel

theorem witness_PopReadsRawMemory :
    ((start []).setReg 6 0x3FFF#16).InRange (((start []).setReg 6 0x3FFF#16).reg 6) ∧
    ¬ ((start []).setReg 6 0x4000#16).InRange (((start []).setReg 6 0x4000#16).reg 6) := by decide +kernel

theorem witness_PopUndoesPush :
    (1 : Reg) ≠ 6 ∧ (2 : Reg) ≠ 6 ∧ ((start []).setReg 6 0x3001#16).InRange (((start []).setReg 6 0x3001#16).reg 6 - 1) := by
  decide +kernel

theorem witness_PeekAndPokeAreRaw :
    tiny.loaded = false ∧
    (start []).latch.phase = .fetch ∧
    ((start []).loaded = true ∧ ¬ (start []).InRange 0x4000#16 ∧ ¬ (start []).InRange 0x2FFF#16) ∧
    ((start []).loaded = true ∧ (start []).InRange 0x3000#16 ∧ (start []).InRange 0x3FFF#16) ∧
    (0 ≤ (0x3001#16 - 0x3000#16).toNat ∧ 1 ≤ (0x3001#16 - 0x3000#16).toNat) := by decide +kernel

theorem witness_BreakpointsAreASet :
    (worked.latch.phase = .fetch ∧ (start []).latch.phase = .fetch) ∧ 0x3FFF#16 ∈ worked.bp ∧ 0x3001#16 ∉ worked.bp ∧ worked.bp.length ≠ 4 ∧
    (0x3004#16 ∉ ({ start [] with bp := [0x3000#16, 0x3001#16, 0x3002#16, 0x3003#16] } : State).bp ∧
      ({ start [] with bp := [0x3000#16, 0x3001#16, 0x3002#16, 0x3003#16] } : State).bp.length = 4) := by decide

/-- What `run_until` returns within `n` steps. -/
def runResult (n : Nat) (s : State) : Option RunOutcome := (runUntil n s).map fun x => x.2

/-- Each test before a cycle; each end of the cycle: a fault, a HALT, a breakpoint, none, and a cycle that a GETC holds,
which then goes on; and each result of `run_until`, where the run to a HALT passes one completed cycle. -/
theorem witness_RunUntilStopsWhereItSays :
    (tiny.loaded = false ∧ ({ start [] with fault := some (.outOfRange 0x2FFF#16) } : State).loaded = true ∧
      ({ start [] with halted := true } : State).fault = none ∧
      ¬ ({ start [] with pc := 0x4000#16 } : State).InRange 0x4000#16) ∧
    ((start [0x25FE#16]).Ready ∧ nextWith (step (start [0x25FE#16])) fun t => t.fault = some (.outOfRange 0x2FFF#16)) ∧
    ((start [0xF025#16]).Ready ∧ nextWith (step (start [0xF025#16])) fun t => t.fault = none ∧ t.halted = true) ∧
    ((start [0x1021#16]).Ready ∧ nextWith (step (start [0x1021#16])) fun t =>
      t.fault = none ∧ t.halted = false ∧ t.latch.phase = .fetch ∧ t.pc = 0x3001#16) ∧
    ((start [0xF020#16]).Ready ∧ nextWith (step (start [0xF020#16])) fun t =>
      t.loaded ∧ t.fault = none ∧ t.halted = false ∧ t.latch.phase = .execute) ∧
    (¬ (waiting.supplyInput [0x41#8]).BetweenCycles ∧ nextWith (step (waiting.supplyInput [0x41#8])) fun t => t.latch.phase = .fetch) ∧
    runResult 1 tiny = some .noProgramLoaded ∧ runResult 3 (start [0x1021#16, 0xF025#16]) = some .halted ∧
    runResult 2 (start [0x25FE#16]) = some (.fault (.outOfRange 0x2FFF#16)) ∧
    runResult 1 { start [] with pc := 0x4000#16 } = some .endOfMemory ∧
    runResult 2 { start [0x1021#16] with bp := [0x3001#16] } = some (.breakpointHit 0x3001#16) :=
  ⟨by decide +kernel, ⟨start_ready _, by decide +kernel⟩, ⟨start_ready _, by decide +kernel⟩,
   ⟨start_ready _, by decide +kernel⟩, ⟨start_ready _, by decide +kernel⟩, ⟨waiting_inCycle, by decide +kernel⟩,
   by decide +kernel⟩

theorem witness_RunUntilNeedsNoMoreSteps :
    3 ≤ 4 ∧ runResult 3 (start [0x1021#16, 0xF025#16]) = some .halted := by decide +kernel

end Sys2Proof.Tests
end

section
/-! PROOFS. Facts about the model's operations that more than one statement needs: the extension of fields (R11), the
end of a cycle, and the step that goes on with a service which holds the cycle in EXECUTE. -/

namespace Sys2Proof.Machine

/-! ## Extension -/

/-- Sign extension keeps the signed value of a field that fits a word (R11). -/
theorem sext_toInt {n : Nat} (v : BitVec n) (h : n ≤ 16) : (sext v).toInt = v.toInt :=
  BitVec.toInt_signExtend_of_le h

/-- Zero extension keeps the unsigned value of a field that fits a word (R11). -/
theorem zext_toNat {n : Nat} (v : BitVec n) (h : n ≤ 16) : (zext v).toNat = v.toNat :=
  BitVec.toNat_setWidth_of_le h

/-! ## The end of a cycle -/

@[simp] theorem endOfCycle_setPhase_done (s : State) : (s.setPhase .done).endOfCycle = s.setPhase .fetch := rfl

@[simp] theorem endOfCycle_setPhase_execute (s : State) : (s.setPhase .execute).endOfCycle = s.setPhase .execute := rfl

/-- A cycle in which no fault is taken ends as `endOfCycle` says (R120). -/
theorem settle_of_noFault {start u : State} (h : u.fault = none) : settle start (.next u) = .next u.endOfCycle := by
  unfold settle
  dsimp only
  rw [h]

/-- A cycle whose instruction has taken a fault is rolled back (R208). -/
theorem settle_of_outOfRange {start u : State} {a : Word} (h : u.fault = some (.outOfRange a)) :
    settle start (.next u) = .next (takeFault start u a) := by
  unfold settle
  dsimp only
  rw [h]

/-- A step that has left `t`, as the host sees it (R216). -/
theorem hostStep_of_step {s t : State} {o : StepOutcome} (h : step s = .next t) (hr : t.report = some o) :
    s.hostStep = some (t, o) := by
  unfold State.hostStep
  rw [h]
  dsimp only
  rw [hr, Option.map_some]

/-- A running state at FETCH has returned Continue (R128). -/
theorem report_of_running {s : State} (h : s.Running) (hp : s.latch.phase = .fetch) : s.report = some .continued := by
  unfold State.report
  rw [if_neg (by simp [h.loaded]), h.noFault]
  dsimp only
  rw [if_neg (by simp [h.notHalted]), if_pos hp]

/-! ## The phases of a meaning -/

/-- The phases that the meaning of an instruction runs, whatever the state. -/
def phasesOf (i : Instr) : Phases :=
  match i with
  | .addReg dr sr1 sr2 => operatePhases .add dr fun s => s.latchOperands (s.reg sr1) (s.reg sr2)
  | .addImm dr sr1 imm5 => operatePhases .add dr fun s => s.latchOperands (s.reg sr1) (sext imm5)
  | .andReg dr sr1 sr2 => operatePhases .and dr fun s => s.latchOperands (s.reg sr1) (s.reg sr2)
  | .andImm dr sr1 imm5 => operatePhases .and dr fun s => s.latchOperands (s.reg sr1) (sext imm5)
  | .notOp dr sr => operatePhases .not dr fun s => s.latchOperandA (s.reg sr)
  | .br nzp off => { evalAddr := fun s => .go (if branchEnable s.cc nzp then { s with pc := s.pcPlus off } else s) }
  | .jmp baseR => { execute := fun s => .go { s with pc := s.reg baseR } }
  | .jsr off => { execute := fun s => .go { s.link with pc := s.pcPlus off } }
  | .jsrr baseR =>
    { execute := fun s =>
        .go { s.link with pc := bif s.cfg.jsrrReadsBaseFirst then s.reg baseR else s.link.reg baseR } }
  | .ld dr off => loadPhases dr fun s => .go (s.latchEa (s.pcPlus off))
  | .ldi dr off => loadPhases dr fun s => s.evalIndirect off
  | .ldr dr baseR off => loadPhases dr fun s => .go (s.latchEa (s.basePlus baseR off))
  | .lea dr off => { store := fun s => .go ((s.setReg dr (s.pcPlus off)).setcc (s.pcPlus off)) }
  | .st sr off => storePhases sr fun s => .go (s.latchEa (s.pcPlus off))
  | .sti sr off => storePhases sr fun s => s.evalIndirect off
  | .str sr baseR off => storePhases sr fun s => .go (s.latchEa (s.basePlus baseR off))
  | .getc => getcPhases
  | .out => trapPhases 0x21#8 fun s => .go (s.consoleOut ((s.reg 0).setWidth 8))
  | .puts => putsPhases
  | .halt => trapPhases 0x25#8 fun s => .hold { s with halted := true }
  | .trap v => trapPhases v .go
  | .push sr => { execute := fun s => s.pushWord sr }
  | .pop dr => { execute := fun s => s.popWord dr }
  | .invalid => {}

/-- A fact about `phasesOf` is a fact about the meaning; `exec_eq_runPhases` leaves open that the phases are those of
every state. -/
theorem exec_eq_runPhases_phasesOf (i : Instr) (s : State) : exec i s = s.runPhases (phasesOf i) := by
  cases i <;> rfl

/-! ## A cycle that a service holds -/

/-- `ph` are the phases of the service that holds the cycle of `s`, GETC or PUTS. -/
def State.HeldPhases (s : State) (ph : Phases) : Prop :=
  (decode s.ir = .getc ∧ ph = getcPhases) ∨ (decode s.ir = .puts ∧ ph = putsPhases)

theorem resumeCycle_of_held {s : State} {ph : Phases} (h : s.HeldPhases ph) :
    s.resumeCycle = settle s (s.resumePhases ph) := by
  unfold State.resumeCycle
  obtain ⟨hd, rfl⟩ | ⟨hd, rfl⟩ := h <;> rw [hd]

/-- What the byte `b` of the input leaves where GETC has taken it, the phase apart (R182). -/
def State.takeByte (s : State) (b : Byte) : State := (s.dropInput.setReg 0 (zext b)).setccIfAll (zext b)

/-- A held GETC goes on waiting where there is no input (R182). -/
theorem step_held_getc_of_nil {s : State} (hr : s.Running) (hp : s.latch.phase = .execute) (hd : decode s.ir = .getc)
    (h : s.console.input = []) : step s = .next (s.setPhase .execute) := by
  have hs : (s.setPhase .execute).getcService = .hold (s.setPhase .execute) := getcService_of_nil h
  have hf : (s.setPhase .execute).fault = none := hr.noFault
  rw [step_of_held hr hp, resumeCycle_of_held (.inl ⟨hd, rfl⟩), getcPhases, resumePhases_trap, hs, endCycle,
    settle_of_noFault hf, endOfCycle_setPhase_execute]

/-- A held GETC takes the first byte of its input and ends its cycle (R182, R226). -/
theorem step_held_getc_of_cons {s : State} {b : Byte} {bs : List Byte} (hr : s.Running)
    (hp : s.latch.phase = .execute) (hd : decode s.ir = .getc) (h : s.console.input = b :: bs) :
    step s = .next ((s.takeByte b).setPhase .fetch) := by
  have hs : (s.setPhase .execute).getcService = .go ((s.takeByte b).setPhase .execute) := getcService_of_cons h
  have hf : ((s.takeByte b).setPhase .done).fault = none := hr.noFault
  rw [step_of_held hr hp, resumeCycle_of_held (.inl ⟨hd, rfl⟩), getcPhases, resumePhases_trap, hs, endCycle,
    setPhase_setPhase, settle_of_noFault hf, endOfCycle_setPhase_done]

end Sys2Proof.Machine
end

section
/-! PROOFS. ACCESS_DELAY (R8, R241): every operation of the model, from the check of an address to a whole cycle,
commutes with a change of it. -/

namespace Sys2Proof.Machine

/-- The flow with another ACCESS_DELAY in its state. -/
def Flow.withDelay (f : Flow) (d : Nat) : Flow :=
  match f with
  | .go s => .go (s.withDelay d)
  | .hold s => .hold (s.withDelay d)
  | .outOfRange a s => .outOfRange a (s.withDelay d)

/-- The outcome with another ACCESS_DELAY in its state. -/
def outcomeWithDelay (d : Nat) (out : Host.Outcome State Fault Refusal) : Host.Outcome State Fault Refusal :=
  match out with
  | .next s => .next (s.withDelay d)
  | .fault r => .fault r
  | .refused r => .refused r

/-- What a phase does commutes with a change of ACCESS_DELAY. -/
def IgnoresDelay (body : State → Flow) : Prop :=
  ∀ (s : State) (d : Nat), body (s.withDelay d) = (body s).withDelay d

/-- Every phase commutes with a change of ACCESS_DELAY; a phase without an action does so by itself. -/
structure Phases.IgnoreDelay (ph : Phases) : Prop where
  evalAddr : IgnoresDelay ph.evalAddr := by exact fun _ _ => rfl
  fetchOperands : IgnoresDelay ph.fetchOperands := by exact fun _ _ => rfl
  execute : IgnoresDelay ph.execute := by exact fun _ _ => rfl
  store : IgnoresDelay ph.store := by exact fun _ _ => rfl

/-! ## The caches -/

theorem view_withDelay (s : State) (d : Nat) (c : CacheId) (a : Word) : (s.withDelay d).view c a = s.view c a := by
  cases c <;> rfl

theorem writeBack_withDelay (s : State) (d : Nat) (c : CacheId) (a : Word) :
    (s.withDelay d).writeBack c a = (s.writeBack c a).withDelay d := by
  have hv : (s.withDelay d).victim c a = s.victim c a := by cases c <;> rfl
  unfold State.writeBack
  rw [hv]
  cases s.victim c a with
  | none => rfl
  | some o => cases c <;> rfl

theorem afterRead_withDelay (s : State) (d : Nat) (c : CacheId) (a : Word) :
    (s.withDelay d).afterRead c a = (s.afterRead c a).withDelay d := by
  have hk : (s.withDelay d).accessKind c a = s.accessKind c a := by cases c <;> rfl
  have he : (s.withDelay d).accessEvent c .read a = s.accessEvent c .read a := by cases c <;> rfl
  unfold State.afterRead
  rw [writeBack_withDelay, hk, he]
  dsimp only
  split
  · rfl
  · cases c <;> rfl

theorem dcWrite_withDelay (s : State) (d : Nat) (a v : Word) :
    (s.withDelay d).dcWrite a v = (s.dcWrite a v).withDelay d := by
  unfold State.dcWrite
  rw [writeBack_withDelay]
  rfl

/-! ## Checks and the flow of phases -/

theorem check_withDelay (s : State) (d : Nat) (a : Word) : (s.withDelay d).check a = (s.check a).withDelay d := by
  by_cases h : s.InRange a
  · exact (check_of_inRange (s := s.withDelay d) h).trans (congrArg (·.withDelay d) (check_of_inRange h)).symm
  · exact (check_of_not_inRange (s := s.withDelay d) h).trans (congrArg (·.withDelay d) (check_of_not_inRange h)).symm

theorem andThen_withDelay {k : State → Flow} (hk : IgnoresDelay k) (f : Flow) (d : Nat) :
    (f.withDelay d).andThen k = (f.andThen k).withDelay d := by
  cases f with
  | go s => exact hk s d
  | hold s => rfl
  | outOfRange a s => rfl

theorem phase_withDelay {body : State → Flow} (hb : IgnoresDelay body) (f : Flow) (p : Phase) (d : Nat) :
    (f.withDelay d).phase p body = (f.phase p body).withDelay d :=
  andThen_withDelay (fun s d => hb (s.setPhase p) d) f d

theorem checkThen_withDelay {k : State → Flow} (hk : IgnoresDelay k) (s : State) (d : Nat) (a : Word) :
    ((s.withDelay d).check a).andThen k = ((s.check a).andThen k).withDelay d := by
  rw [check_withDelay, andThen_withDelay hk]

theorem readThen_withDelay {k : Word → State → Flow} (hk : ∀ w, IgnoresDelay (k w)) (s : State) (d : Nat) (a : Word) :
    (s.withDelay d).readThen a k = (s.readThen a k).withDelay d := by
  refine checkThen_withDelay (fun s d => ?_) s d a
  rw [readWord_eq_view, readWord_eq_view, view_withDelay, afterRead_withDelay]
  exact hk _ _ d

/-! ## The phases of the instructions -/

theorem evalIndirect_ignoresDelay (off : BitVec 9) : IgnoresDelay fun s => s.evalIndirect off :=
  fun s d => readThen_withDelay (k := fun pointer s2 => .go (s2.latchEa pointer)) (fun _ _ _ => rfl)
    { s with mar := s.pcPlus off } d (s.pcPlus off)

theorem fetchLoad_ignoresDelay : IgnoresDelay State.fetchLoad :=
  fun s d => readThen_withDelay (k := fun w s2 => .go { s2 with mdr := w }) (fun _ _ _ => rfl)
    { s with mar := s.latch.ea } d s.latch.ea

theorem commitStore_ignoresDelay : IgnoresDelay State.commitStore :=
  fun s d => checkThen_withDelay (k := fun s => .go (s.dcWrite s.mar s.mdr))
    (fun s d => congrArg Flow.go (dcWrite_withDelay s d s.mar s.mdr)) s d s.mar

theorem pushWord_ignoresDelay (sr : Reg) : IgnoresDelay fun s => s.pushWord sr :=
  fun s d => checkThen_withDelay (fun _ _ => rfl) (s.setReg spReg (s.reg spReg - 1)) d _

theorem popWord_ignoresDelay (dr : Reg) : IgnoresDelay fun s => s.popWord dr :=
  fun s d => checkThen_withDelay (fun _ _ => rfl) s d (s.reg spReg)

theorem branch_ignoresDelay (nzp : BitVec 3) (off : BitVec 9) :
    IgnoresDelay fun s => .go (if branchEnable s.cc nzp then { s with pc := s.pcPlus off } else s) := by
  intro s d
  have hb : branchEnable (s.withDelay d).cc nzp = branchEnable s.cc nzp := rfl
  dsimp only
  rw [hb]
  split <;> rfl

theorem getcService_ignoresDelay : IgnoresDelay State.getcService := by
  intro s d
  cases h : s.console.input with
  | nil => rw [getcService_of_nil h, getcService_of_nil (s := s.withDelay d) h]; rfl
  | cons b bs => rw [getcService_of_cons h, getcService_of_cons (s := s.withDelay d) h]; rfl

theorem putsLoop_ignoresDelay (n : Nat) (a : Word) : IgnoresDelay (putsLoop n a) := by
  induction n generalizing a with
  | zero => exact fun _ _ => rfl
  | succ n ih =>
    intro s d
    refine readThen_withDelay (fun w s d => ?_) s d a
    split
    · rfl
    · exact ih (a + 1) (s.consoleOut (w.setWidth 8)) d

theorem operatePhases_ignoreDelay {op : AluOp} {dr : Reg} {latchOperands : State → State}
    (h : ∀ (s : State) (d : Nat), latchOperands (s.withDelay d) = (latchOperands s).withDelay d) :
    (operatePhases op dr latchOperands).IgnoreDelay where
  fetchOperands s d := congrArg Flow.go (h s d)

theorem loadPhases_ignoreDelay {dr : Reg} {evalAddr : State → Flow} (h : IgnoresDelay evalAddr) :
    (loadPhases dr evalAddr).IgnoreDelay where
  evalAddr := h
  fetchOperands := fetchLoad_ignoresDelay

theorem storePhases_ignoreDelay {sr : Reg} {evalAddr : State → Flow} (h : IgnoresDelay evalAddr) :
    (storePhases sr evalAddr).IgnoreDelay where
  evalAddr := h
  store := commitStore_ignoresDelay

theorem trapPhases_ignoreDelay {v : BitVec 8} {service : State → Flow} (h : IgnoresDelay service) :
    (trapPhases v service).IgnoreDelay where
  execute := h

theorem getcPhases_ignoreDelay : getcPhases.IgnoreDelay := trapPhases_ignoreDelay getcService_ignoresDelay

theorem putsPhases_ignoreDelay : putsPhases.IgnoreDelay :=
  trapPhases_ignoreDelay fun s d => putsLoop_ignoresDelay 131072 (s.reg 0) s d

/-! ## Cycles -/

theorem endCycle_withDelay (start : State) (f : Flow) (d : Nat) :
    endCycle (start.withDelay d) (f.withDelay d) = outcomeWithDelay d (endCycle start f) := by
  cases f <;> rfl

theorem fromExecute_ignoresDelay {ph : Phases} (h : ph.IgnoreDelay) : IgnoresDelay fun s => s.fromExecute ph := by
  intro s d
  change (((Flow.go s).withDelay d).phase .execute ph.execute).phase .store ph.store = _
  rw [phase_withDelay h.execute, phase_withDelay h.store]
  rfl

theorem fromEvalAddr_ignoresDelay {ph : Phases} (h : ph.IgnoreDelay) : IgnoresDelay fun s => s.fromEvalAddr ph := by
  intro s d
  change ((((Flow.go s).withDelay d).phase .evalAddr ph.evalAddr).phase .fetchOperands ph.fetchOperands).andThen _ = _
  rw [phase_withDelay h.evalAddr, phase_withDelay h.fetchOperands, andThen_withDelay (fromExecute_ignoresDelay h)]
  rfl

theorem runPhases_withDelay {ph : Phases} (h : ph.IgnoreDelay) (s : State) (d : Nat) :
    (s.withDelay d).runPhases ph = outcomeWithDelay d (s.runPhases ph) :=
  (congrArg (endCycle (s.withDelay d)) (fromEvalAddr_ignoresDelay h s d)).trans (endCycle_withDelay s _ d)

theorem resumePhases_withDelay {ph : Phases} (h : ph.IgnoreDelay) (s : State) (d : Nat) :
    (s.withDelay d).resumePhases ph = outcomeWithDelay d (s.resumePhases ph) :=
  (congrArg (endCycle (s.withDelay d)) (fromExecute_ignoresDelay h s d)).trans (endCycle_withDelay s _ d)

theorem phasesOf_ignoreDelay (i : Instr) : (phasesOf i).IgnoreDelay := by
  cases i with
  | addReg | addImm | andReg | andImm | notOp => exact operatePhases_ignoreDelay fun _ _ => rfl
  | br nzp off => exact { evalAddr := branch_ignoresDelay nzp off }
  | jmp | jsr | jsrr | lea | invalid => exact {}
  | ld | ldr => exact loadPhases_ignoreDelay fun _ _ => rfl
  | ldi dr off => exact loadPhases_ignoreDelay (evalIndirect_ignoresDelay off)
  | st | str => exact storePhases_ignoreDelay fun _ _ => rfl
  | sti sr off => exact storePhases_ignoreDelay (evalIndirect_ignoresDelay off)
  | getc => exact getcPhases_ignoreDelay
  | puts => exact putsPhases_ignoreDelay
  | out | halt | trap => exact trapPhases_ignoreDelay fun _ _ => rfl
  | push sr => exact { execute := pushWord_ignoresDelay sr }
  | pop dr => exact { execute := popWord_ignoresDelay dr }

/-- No meaning depends on ACCESS_DELAY. -/
theorem exec_withDelay (i : Instr) (s : State) (d : Nat) : exec i (s.withDelay d) = outcomeWithDelay d (exec i s) := by
  rw [exec_eq_runPhases_phasesOf, exec_eq_runPhases_phasesOf, runPhases_withDelay (phasesOf_ignoreDelay i)]

theorem settle_withDelay (start : State) (out : Host.Outcome State Fault Refusal) (d : Nat) :
    settle (start.withDelay d) (outcomeWithDelay d out) = outcomeWithDelay d (settle start out) := by
  cases out with
  | next u =>
    cases h : u.fault with
    | none =>
      have he : (u.withDelay d).endOfCycle = u.endOfCycle.withDelay d := by
        unfold State.endOfCycle
        exact (apply_ite (·.withDelay d) (u.latch.phase = .done) (u.setPhase .fetch) u).symm
      rw [outcomeWithDelay, settle_of_noFault (u := u.withDelay d) h, settle_of_noFault h, he]
      rfl
    | some r =>
      obtain ⟨a⟩ := r
      rw [outcomeWithDelay, settle_of_outOfRange (u := u.withDelay d) h, settle_of_outOfRange h]
      rfl
  | fault r => rfl
  | refused r => rfl

theorem fetched_withDelay (s : State) (d : Nat) : (s.withDelay d).fetched = s.fetched.withDelay d :=
  congrArg (fun x : State => { x with ir := s.viewI s.pc })
    (afterRead_withDelay { s with mar := s.pc, pc := s.pc + 1 } d .ic s.pc)

theorem newCycle_withDelay (s : State) (d : Nat) :
    (s.withDelay d).newCycle = outcomeWithDelay d s.newCycle := by
  unfold State.newCycle
  by_cases h : s.InRange s.pc
  · rw [fetch_eq_fetched h, fetch_eq_fetched (s := s.withDelay d) h, fetched_withDelay]
    dsimp only
    rw [← settle_withDelay, ← exec_withDelay]
    rfl
  · rw [fetch_of_not_inRange h, fetch_of_not_inRange (s := s.withDelay d) h]
    rfl

theorem resumeCycle_withDelay {s : State} {ph : Phases} (h : s.HeldPhases ph) (d : Nat) :
    (s.withDelay d).resumeCycle = outcomeWithDelay d s.resumeCycle := by
  have hph : ph.IgnoreDelay := by
    obtain ⟨-, rfl⟩ | ⟨-, rfl⟩ := h
    · exact getcPhases_ignoreDelay
    · exact putsPhases_ignoreDelay
  rw [resumeCycle_of_held h, resumeCycle_of_held (s := s.withDelay d) h, resumePhases_withDelay hph, settle_withDelay]

theorem running_withDelay (s : State) (d : Nat) : (s.withDelay d).Running ↔ s.Running :=
  ⟨fun h => ⟨h.loaded, h.noFault, h.notHalted⟩, fun h => ⟨h.loaded, h.noFault, h.notHalted⟩⟩

end Sys2Proof.Machine
end

section
/-! PROOFS. The statements settled: O27, O46 and O6. -/

namespace Sys2Proof.Proofs

open Machine

/-- Settles O27, along the three things that a step can do: it changes nothing, begins a cycle, or goes on with the one
that a service holds. -/
theorem accessDelayDoesNotMatter : Obligations.AccessDelayDoesNotMatter := by
  unfold Obligations.AccessDelayDoesNotMatter
  intro s t d h
  obtain ⟨hr, rfl⟩ | ⟨hr, hp, hc⟩ | ⟨hr, hp, ph, -, hph, -⟩ := step_cases h
  · exact step_of_not_running fun e => hr ((running_withDelay t d).mp e)
  · rw [step_of_fetch ((running_withDelay s d).mpr hr) hp, newCycle_withDelay, hc]
    rfl
  · rw [step_of_held hr hp] at h
    rw [step_of_held ((running_withDelay s d).mpr hr) hp, resumeCycle_withDelay hph, h]
    rfl

/-- Settles O46: GETC waits at its first step and at every later one, until a byte is there to take. -/
theorem getcWaitsForTheHost : Obligations.GetcWaitsForTheHost := by
  unfold Obligations.GetcWaitsForTheHost
  intro s hin
  refine ⟨⟨_, exec_getc_of_nil hin, rfl, rfl⟩, fun hl hf hh hp hd => ?_⟩
  have hr : s.Running := ⟨hl, hf, hh⟩
  refine ⟨⟨_, step_held_getc_of_nil hr hp hd hin, rfl, rfl⟩, fun b rest => ?_⟩
  have hin' : (s.supplyInput (b :: rest)).console.input = b :: rest := congrArg (· ++ b :: rest) hin
  have hr' : (s.supplyInput (b :: rest)).Running := ⟨hl, hf, hh⟩
  have hstep := step_held_getc_of_cons hr' hp hd hin'
  have h0 : ((s.supplyInput (b :: rest)).takeByte b).reg 0 = zext b := reg_setReg_self _ 0 (zext b)
  refine ⟨((s.supplyInput (b :: rest)).takeByte b).setPhase .fetch,
    hostStep_of_step hstep (report_of_running ⟨hl, hf, hh⟩ rfl), ?_, ?_, ?_, ?_, rfl, ?_, rfl⟩
  · rw [setPhase_reg, h0, zext_toNat b (by decide)]
  · exact fun q hq => reg_setReg_of_ne _ _ hq
  · rw [setPhase_reg, h0]
    rfl
  · exact congrArg (fun i : List Byte => { input := i.tail, output := s.console.output : Console }) hin'
  · exact sameReads_of rfl rfl rfl rfl rfl

/-- Settles O6: each of the fields fits a word. -/
theorem extensionKeepsTheValue : Obligations.ExtensionKeepsTheValue := by
  unfold Obligations.ExtensionKeepsTheValue
  exact ⟨fun v => sext_toInt v (by decide), fun v => sext_toInt v (by decide), fun v => sext_toInt v (by decide),
    fun v => sext_toInt v (by decide), fun v => zext_toNat v (by decide)⟩

end Sys2Proof.Proofs
end

section
/-! PROOFS. The part of the invariant that speaks of what is stored: canonical memory and caches, installed lines, a
clean instruction cache and a legal breakpoint set (R35 to R38, R58 to R60). Each operation on memory and caches keeps it. -/

namespace Sys2Proof.Machine

/-- The invariant without the phase. -/
structure State.StorageOk (s : State) : Prop where
  mem_wf : s.mem.wf s.cfg.memWords
  lines_wf : ∀ c, (s.lines c).wf s.cfg.lines
  lines_installed : ∀ c, ∀ e ∈ s.lines c, e.2.valid = true ∧ e.2.tag * s.cfg.lines + e.1 < s.cfg.memWords
  ic_clean : ∀ e ∈ s.lines .ic, e.2.dirty = false
  bp_set : s.bp.Pairwise (· < ·) ∧ s.bp.length ≤ 4

theorem State.Inv.storageOk {s : State} (h : s.Inv) : s.StorageOk :=
  ⟨h.mem_wf, h.lines_wf, h.lines_installed, h.ic_clean, h.bp_set⟩

theorem State.StorageOk.inv {s : State} (h : s.StorageOk)
    (hp : s.latch.phase = .fetch ∨ (s.latch.phase = .execute ∧ (s.halted = true ∨ s.HeldByService))) : s.Inv :=
  ⟨h.mem_wf, h.lines_wf, h.lines_installed, h.ic_clean, h.bp_set, hp⟩

/-- The storage invariant depends on the parameters, memory, the caches and the breakpoints alone. -/
theorem State.StorageOk.congr {s t : State} (h : s.StorageOk) (hc : t.cfg = s.cfg) (hm : t.mem = s.mem)
    (hl : ∀ c, t.lines c = s.lines c) (hb : t.bp = s.bp) : t.StorageOk where
  mem_wf := by rw [hm, hc]; exact h.mem_wf
  lines_wf c := by rw [hl, hc]; exact h.lines_wf c
  lines_installed c := by rw [hl, hc]; exact h.lines_installed c
  ic_clean := by rw [hl]; exact h.ic_clean
  bp_set := by rw [hb]; exact h.bp_set

/-! ## Main memory -/

/-- A word written inside memory keeps the storage invariant. -/
theorem State.StorageOk.writeMem {s : State} (h : s.StorageOk) {o : Nat} (ho : o < s.cfg.memWords) (v : Word) :
    State.StorageOk { s with mem := s.mem.write o v } :=
  ⟨h.mem_wf.write ho v, h.lines_wf, h.lines_installed, h.ic_clean, h.bp_set⟩

theorem State.StorageOk.memWrite {s : State} (h : s.StorageOk) {a : Word} (ha : s.InRange a) (v : Word) :
    (s.memWrite a v).StorageOk :=
  h.writeMem ha v

/-! ## Cache lines -/

/-- A cache with one line replaced lists that line or lines it listed before. -/
theorem mem_setLine {ls : Lines} {i : Nat} {l : Line} {e : Nat × Line} (h : e ∈ ls.setLine i l) :
    e = (i, l) ∨ e ∈ ls := by
  unfold Lines.setLine sparseSet at h
  split at h
  · exact .inr (mem_sparseErase h).1
  · exact (mem_sparseInsert h).imp_right fun h => (mem_sparseErase h).1

/-- A valid line was installed for an offset in memory (R59, R60). -/
theorem State.StorageOk.lineOffset_lt {s : State} (h : s.StorageOk) {c : CacheId} {a : Word}
    (hv : (s.lineAt c a).valid = true) : s.lineOffset c a < s.cfg.memWords := by
  obtain hr | hm := Lines.line_eq_reset_or_mem (s.lines c) (s.index a)
  · exact absurd (hr ▸ hv : Line.reset.valid = true) (by decide)
  · exact (h.lines_installed c _ hm).2

/-- No line of the instruction cache is dirty, listed or not (R58). -/
theorem State.StorageOk.ic_lineAt_clean {s : State} (h : s.StorageOk) (a : Word) : (s.lineAt .ic a).dirty = false := by
  obtain hr | hm := Lines.line_eq_reset_or_mem (s.lines .ic) (s.index a)
  · exact (congrArg Line.dirty hr : (s.lineAt .ic a).dirty = _)
  · exact h.ic_clean _ hm

/-- A line installed for an offset in memory, clean in the instruction cache, keeps the storage invariant. -/
theorem State.StorageOk.setLineAt {s : State} (h : s.StorageOk) {c : CacheId} {a : Word} {l : Line}
    (hv : l.valid = true) (hi : l.tag * s.cfg.lines + s.index a < s.cfg.memWords) (hd : c = .ic → l.dirty = false) :
    (s.setLineAt c a l).StorageOk where
  mem_wf := by rw [setLineAt_mem, setLineAt_cfg]; exact h.mem_wf
  lines_wf d := by
    rw [setLineAt_cfg]
    by_cases hdc : d = c
    · rw [hdc, State.setLineAt, lines_setLines_self]
      exact (h.lines_wf c).setLine (index_lt s a) l
    · rw [lines_setLineAt_of_ne s a l hdc]
      exact h.lines_wf d
  lines_installed d e he := by
    rw [setLineAt_cfg]
    by_cases hdc : d = c
    · rw [hdc, State.setLineAt, lines_setLines_self] at he
      obtain rfl | he := mem_setLine he
      · exact ⟨hv, hi⟩
      · exact h.lines_installed c e he
    · rw [lines_setLineAt_of_ne s a l hdc] at he
      exact h.lines_installed d e he
  ic_clean e he := by
    cases c with
    | ic =>
      obtain rfl | he := mem_setLine he
      · exact hd rfl
      · exact h.ic_clean e he
    | dc => exact h.ic_clean e he
  bp_set := by rw [setLineAt_bp]; exact h.bp_set

/-! ## Cache accesses -/

theorem State.StorageOk.writeBack {s : State} (h : s.StorageOk) (c : CacheId) (a : Word) :
    (s.writeBack c a).StorageOk := by
  unfold State.writeBack
  split
  · next o ho =>
    obtain ⟨hk, -, rfl⟩ := (victim_eq_some_iff s c a o).mp ho
    have hv := ((accessKind_eq_conflictMiss_iff s c a).mp hk).1
    have ho := h.lineOffset_lt hv
    exact (h.writeMem ho (s.lineAt c a).word).setLineAt hv ho fun _ => rfl
  · exact h

theorem State.StorageOk.emit {s : State} (h : s.StorageOk) (e : Event) : (s.emit e).StorageOk :=
  h.congr rfl rfl (lines_emit s e) rfl

/-- An address in memory is the offset that its own tag and index give (R55, R59). -/
theorem tag_mul_add_index_lt {s : State} {a : Word} (h : s.InRange a) :
    s.tag a * s.cfg.lines + s.index a < s.cfg.memWords := by
  rw [tag_mul_add_index]
  exact h

/-- A cache read of an address in memory keeps the storage invariant. -/
theorem State.StorageOk.afterRead {s : State} (h : s.StorageOk) (c : CacheId) {a : Word} (ha : s.InRange a) :
    (s.afterRead c a).StorageOk := by
  have h1 := (h.writeBack c a).emit (s.accessEvent c .read a)
  unfold State.afterRead
  dsimp only
  split
  · exact h1
  · refine h1.setLineAt rfl ?_ fun hc => ?_
    · simpa [State.index] using tag_mul_add_index_lt ha
    · subst hc
      exact h1.ic_lineAt_clean a

/-- A data-cache write to an address in memory keeps the storage invariant. -/
theorem State.StorageOk.dcWrite {s : State} (h : s.StorageOk) {a : Word} (ha : s.InRange a) (v : Word) :
    (s.dcWrite a v).StorageOk := by
  refine ((h.writeBack .dc a).emit (s.accessEvent .dc .write a)).setLineAt rfl ?_ fun hc => absurd hc (by decide)
  simpa [State.index] using tag_mul_add_index_lt ha

end Sys2Proof.Machine
end

section
/-! PROOFS. What the phases of an instruction after DECODE can do, said once for all instructions: `exec_effect`. The
statements about steps and about single fields of the state are read off it. -/

namespace Sys2Proof.Machine

/-! ## What every step keeps, and what memory accesses and console output keep -/

/-- From `s` to `t` nothing happens that no step can do: the parameters, the program's place and the breakpoints are
kept, the trace and the output only grow, and the storage invariant is kept. -/
structure Advances (s t : State) : Prop where
  cfg : t.cfg = s.cfg := by simp
  loaded : t.loaded = s.loaded := by simp
  loadBase : t.loadBase = s.loadBase := by simp
  bp : t.bp = s.bp := by simp
  trace : s.trace <+: t.trace := by simp
  output : s.console.output <+: t.console.output := by simp
  storage : s.StorageOk → t.StorageOk := by exact fun h => h.congr rfl rfl (fun _ => rfl) rfl

theorem Advances.refl (s : State) : Advances s s where

theorem Advances.trans {s t u : State} (h : Advances s t) (k : Advances t u) : Advances s u where
  cfg := k.cfg.trans h.cfg
  loaded := k.loaded.trans h.loaded
  loadBase := k.loadBase.trans h.loadBase
  bp := k.bp.trans h.bp
  trace := h.trace.trans k.trace
  output := h.output.trans k.output
  storage := k.storage ∘ h.storage

theorem Advances.inRange {s t : State} (h : Advances s t) (a : Word) : t.InRange a ↔ s.InRange a :=
  inRange_congr h.cfg h.loadBase a

/-- A fault keeps no more of what has happened than the bytes sent (R208). -/
theorem Advances.takeFault {s t : State} (h : Advances s t) (a : Word) : Advances s (takeFault s t a) where
  output := h.output

/-- From `s` to `t` there are data-cache accesses and bytes sent; but for those `mar`, `mdr` and the latches
alone differ. -/
structure AccessFrame (s t : State) : Prop extends Advances s t where
  regs : t.regs = s.regs := by simp
  pc : t.pc = s.pc := by simp
  cc : t.cc = s.cc := by simp
  ir : t.ir = s.ir := by simp
  halted : t.halted = s.halted := by simp
  fault : t.fault = s.fault := by simp
  input : t.console.input = s.console.input := by simp

theorem AccessFrame.refl (s : State) : AccessFrame s s where

theorem AccessFrame.trans {s t u : State} (h : AccessFrame s t) (k : AccessFrame t u) : AccessFrame s u where
  toAdvances := h.toAdvances.trans k.toAdvances
  regs := k.regs.trans h.regs
  pc := k.pc.trans h.pc
  cc := k.cc.trans h.cc
  ir := k.ir.trans h.ir
  halted := k.halted.trans h.halted
  fault := k.fault.trans h.fault
  input := k.input.trans h.input

/-- `mar`, `mdr` and the latches are part of no fact of the frame. -/
theorem accessFrame_staged (s : State) (mar mdr : Word) (l : Latches) :
    AccessFrame s { s with mar := mar, mdr := mdr, latch := l } where

theorem AccessFrame.setPhase {s t : State} (h : AccessFrame s t) (p : Phase) : AccessFrame s (t.setPhase p) :=
  h.trans (accessFrame_staged t t.mar t.mdr _)

theorem accessFrame_afterRead {s : State} {a : Word} (ha : s.InRange a) : AccessFrame s (s.afterRead .dc a) where
  storage h := h.afterRead .dc ha

theorem accessFrame_dcWrite {s : State} {a : Word} (ha : s.InRange a) (v : Word) : AccessFrame s (s.dcWrite a v) where
  storage h := h.dcWrite ha v

theorem accessFrame_consoleOut (s : State) (b : Byte) : AccessFrame s (s.consoleOut b) where

/-- The pointer of an LDI or STI, read and latched (R124). -/
theorem accessFrame_pointerRead {s : State} {p : Word} (h : s.InRange p) : AccessFrame s (s.pointerRead p) :=
  ((accessFrame_staged s p s.mdr s.latch).trans (accessFrame_afterRead h)).trans (accessFrame_staged _ _ _ _)

/-! ## The loop of PUTS -/

/-- The state in which a flow ends, whichever way. -/
def Flow.state : Flow → State
  | .go s => s
  | .hold s => s
  | .outOfRange _ s => s

/-- What cache reads and sent bytes keep, the loop of PUTS keeps (R184). -/
theorem putsLoop_keeps {P : State → Prop} (hread : ∀ u a, u.InRange a → P u → P (u.afterRead .dc a))
    (hsend : ∀ u b, P u → P (u.consoleOut b)) (n : Nat) (a : Word) {s : State} (h : P s) :
    P (putsLoop n a s).state := by
  induction n generalizing a s with
  | zero => exact h
  | succ n ih =>
    unfold putsLoop
    by_cases ha : s.InRange a
    · rw [readThen_of_inRange ha]
      split
      · exact hread s a ha h
      · exact ih (a + 1) (hsend _ _ (hread s a ha h))
    · rw [readThen_of_not_inRange ha]
      exact h

theorem putsLoop_accessFrame (n : Nat) (a : Word) (s : State) : AccessFrame s (putsLoop n a s).state :=
  putsLoop_keeps (fun _ _ hb h => h.trans (accessFrame_afterRead hb))
    (fun _ _ h => h.trans (accessFrame_consoleOut _ _)) n a (.refl s)

theorem putsLoop_latch (n : Nat) (a : Word) (s : State) : (putsLoop n a s).state.latch = s.latch :=
  putsLoop_keeps (P := fun u => u.latch = s.latch) (fun _ _ _ h => (afterRead_latch _ _ _).trans h)
    (fun _ _ h => h) n a rfl

/-- After a word in memory that is not the terminator, PUTS goes on with the next one (R184). -/
theorem putsLoop_inRange_cases {s : State} {a : Word} (ha : s.InRange a) (n : Nat) :
    putsLoop (n + 1) a s = .go (s.afterRead .dc a) ∨
    putsLoop (n + 1) a s = putsLoop n (a + 1) ((s.afterRead .dc a).consoleOut ((s.viewD a).setWidth 8)) := by
  rw [putsLoop, readThen_of_inRange ha]
  split
  · exact .inl rfl
  · exact .inr rfl

theorem putsStep_inRange (s : State) (a b : Word) (v : Byte) :
    ((s.afterRead .dc a).consoleOut v).InRange b ↔ s.InRange b :=
  inRange_congr (by simp) (by simp) b

/-- PUTS takes a fault only at an address outside memory (R129). -/
theorem putsLoop_outOfRange {n : Nat} {a b : Word} {s t : State} (h : putsLoop n a s = .outOfRange b t) :
    ¬ s.InRange b := by
  induction n generalizing a s with
  | zero => exact absurd h (by simp [putsLoop])
  | succ n ih =>
    by_cases ha : s.InRange a
    · obtain hgo | hrest := putsLoop_inRange_cases ha n
      · exact absurd (hgo.symm.trans h) (by simp)
      · exact fun hb => ih (hrest.symm.trans h) ((putsStep_inRange s a b _).mpr hb)
    · rw [putsLoop, readThen_of_not_inRange ha] at h
      obtain ⟨rfl, -⟩ := Flow.outOfRange.inj h
      exact ha

/-- A PUTS that is still running after `n` characters has read each of their addresses in memory. -/
theorem putsLoop_hold {n : Nat} {a : Word} {s t : State} (h : putsLoop n a s = .hold t) (k : Nat) (hk : k < n) :
    s.InRange (a + BitVec.ofNat 16 k) := by
  induction n generalizing a s k with
  | zero => exact absurd hk (Nat.not_lt_zero k)
  | succ n ih =>
    by_cases ha : s.InRange a
    · obtain hgo | hrest := putsLoop_inRange_cases ha n
      · exact absurd (hgo.symm.trans h) (by simp)
      · cases k with
        | zero => simpa using ha
        | succ k =>
          have hb := (putsStep_inRange s a _ _).mp (ih (hrest.symm.trans h) k (by omega))
          rwa [show a + 1 + BitVec.ofNat 16 k = a + BitVec.ofNat 16 (k + 1) by
            rw [BitVec.ofNat_add, BitVec.add_assoc, BitVec.add_comm 1]
            rfl] at hb
    · rw [putsLoop, readThen_of_not_inRange ha] at h
      exact absurd h (by simp)

/-- Memory that has a word at every address has 65536 words (R8, R51). -/
theorem memWords_eq_of_all_inRange {s : State} (h : ∀ b, s.InRange b) : s.cfg.memWords = 65536 := by
  have hlast : s.off (s.loadBase + 0xFFFF#16) < s.cfg.memWords := h _
  have hoff : s.off (s.loadBase + 0xFFFF#16) = 65535 := by
    rw [State.off, add_sub_cancel_left]
    rfl
  have hle : s.cfg.memWords ≤ 65536 := s.cfg.lastOffset.isLt
  omega

/-- Only in a memory of 65536 words is a PUTS held after 131072 characters (log entry 10). -/
theorem memWords_of_putsLoop_hold {a : Word} {s t : State} (h : putsLoop 131072 a s = .hold t) :
    s.cfg.memWords = 65536 := by
  refine memWords_eq_of_all_inRange fun b => ?_
  have hb := putsLoop_hold h (b - a).toNat (by have := (b - a).isLt; omega)
  rwa [BitVec.ofNat_toNat, BitVec.setWidth_eq, BitVec.add_comm, BitVec.sub_add_cancel] at hb

end Sys2Proof.Machine
end

section
/-! PROOFS. The effect of the phases of every instruction, and of a step. -/

namespace Sys2Proof.Machine

/-- What the phases of `i` after DECODE can do from `s` to `t`: which registers, flags and status fields they write, how
they end, and what they leave alone (R22, R24, R28, R34, R120). -/
structure ExecEffect (i : Instr) (s t : State) : Prop extends Advances s t where
  ir : t.ir = s.ir := by simp
  regs : ∀ r, r ∉ i.registersWritten → t.reg r = s.reg r := by exact fun _ _ => rfl
  pc : t.pc ≠ s.pc → i.transfersControl = true ∧ ∀ nzp off, i = .br nzp off → s.cc.bits &&& nzp ≠ 0 := by
    exact fun h => absurd rfl h
  ccKept : s.cfg.ccOnAllRegWrites = false → i.setsCC = none → t.cc = s.cc := by exact fun _ _ => rfl
  ccSet : ∀ dr, i.setsCC = some dr → t.fault = none → t.cc = ccOf (t.reg dr) := by
    simp [Instr.setsCC]
  input : t.console.input = s.console.input ∨ ∃ b, s.console.input = b :: t.console.input := by exact .inl rfl
  halted : t.halted = s.halted ∨ (t.halted = true ∧ i = .halt) := by exact .inl rfl
  fault : t.fault = s.fault ∨ ∃ a, t.fault = some (.outOfRange a) ∧ ¬ s.InRange a := by exact .inl rfl
  phase : t.fault = none → t.latch.phase = .done ∨
    (t.latch.phase = .execute ∧ (t.halted = true ∨ i = .getc ∨ (i = .puts ∧ s.cfg.memWords = 65536))) := by
    exact fun _ => .inl rfl

/-! ## The shapes that instructions share -/

/-- An instruction that writes no register, flag or status field. -/
theorem AccessFrame.effect {i : Instr} {s t : State} (h : AccessFrame s t) (hcc : i.setsCC = none)
    (hp : t.latch.phase = .done ∨ (t.latch.phase = .execute ∧ i = .puts ∧ s.cfg.memWords = 65536)) :
    ExecEffect i s t where
  toAdvances := h.toAdvances
  ir := h.ir
  regs r _ := reg_congr h.regs r
  pc hpc := absurd h.pc hpc
  ccKept _ _ := h.cc
  ccSet _ hdr := absurd (hdr.symm.trans hcc) (by simp)
  input := .inl h.input
  halted := .inl h.halted
  fault := .inl h.fault
  phase _ := hp.imp_right fun ⟨he, hi⟩ => ⟨he, .inr (.inr hi)⟩

/-- The instruction that ends with its result `v` in `x[dr]` and the condition code, in the state `u` that its memory
accesses have left. -/
theorem AccessFrame.resultEffect {i : Instr} {s u : State} (h : AccessFrame s u) {dr : Reg}
    (hr : i.registersWritten = [dr]) (hcc : i.setsCC = some dr) (v : Word) :
    ExecEffect i s (((u.setReg dr v).setcc v).setPhase .done) where
  toAdvances := h.toAdvances.trans {}
  ir := h.ir
  regs r hn := by
    rw [hr, List.mem_singleton] at hn
    exact (reg_setReg_of_ne u v hn).trans (reg_congr h.regs r)
  pc hpc := absurd h.pc hpc
  ccKept _ hn := absurd (hcc.symm.trans hn) (by simp)
  ccSet q hq _ := by
    obtain rfl : dr = q := Option.some.inj (hcc.symm.trans hq)
    exact congrArg ccOf (reg_setReg_self u dr v).symm
  input := .inl h.input
  halted := .inl h.halted
  fault := .inl h.fault

/-- The instruction whose check of `a` fails after the accesses that have led to `u` (R208). -/
theorem AccessFrame.faultEffect {s u : State} (h : AccessFrame s u) (i : Instr) {a : Word} (ha : ¬ s.InRange a) :
    ExecEffect i s (takeFault s u a) where
  toAdvances := h.toAdvances.takeFault a
  ccSet _ _ hf := absurd hf (by simp)
  input := .inl h.input
  fault := .inr ⟨a, rfl, ha⟩
  phase hf := absurd hf (by simp)

/-- The operate instructions (R141 to R145), from the latched operands. -/
theorem operate_effect {i : Instr} {s u : State} (h : AccessFrame s u) (op : AluOp) {dr : Reg}
    (hr : i.registersWritten = [dr]) (hcc : i.setsCC = some dr) :
    ExecEffect i s (((u.executeAlu op).storeResult dr).setPhase .done) :=
  let v := alu op u.latch.opA u.latch.opB
  (h.trans (accessFrame_staged u u.mar u.mdr { u.latch with result := v })).resultEffect hr hcc v

/-- A load whose address is formed in `u` (R150 to R152). -/
theorem loadedFrom_effect {i : Instr} {s u : State} (h : AccessFrame s u) {dr : Reg} {a : Word} (ha : u.InRange a)
    (hr : i.registersWritten = [dr]) (hcc : i.setsCC = some dr) : ExecEffect i s (u.loadedFrom dr a) :=
  have hread := (accessFrame_staged u a u.mdr u.latch).trans (accessFrame_afterRead ha)
  ((h.trans hread).trans (accessFrame_staged _ _ (u.viewD a) _)).resultEffect hr hcc (u.viewD a)

/-- A store whose address is formed in `u` (R154 to R156). -/
theorem storedAt_effect {i : Instr} {s u : State} (h : AccessFrame s u) {sr : Reg} {a : Word} (ha : u.InRange a)
    (hcc : i.setsCC = none) : ExecEffect i s (u.storedAt sr a) :=
  have hwrite := (accessFrame_staged u a (u.reg sr) u.latch).trans
    (accessFrame_dcWrite (s := { u with mar := a, mdr := u.reg sr }) ha (u.reg sr))
  ((h.trans hwrite).setPhase .done).effect hcc (.inl rfl)

/-- Registers, `pc`, the condition code and the latches are part of no fact of `Advances`. -/
theorem advances_registers (s : State) (regs : Vector Word 8) (pc : Word) (cc : CC) (l : Latches) :
    Advances s { s with regs := regs, pc := pc, cc := cc, latch := l } where

/-- JSR and JSRR, whatever the target (R172, R173). -/
theorem call_effect {i : Instr} (s : State) (target : Word) (hr : i.registersWritten = [7])
    (ht : i.transfersControl = true) (hbr : ∀ nzp off, i ≠ .br nzp off) (hcc : i.setsCC = none) :
    ExecEffect i s (({ s.link with pc := target } : State).setPhase .done) where
  toAdvances := advances_registers s _ target _ _
  ir := rfl
  regs r hn := by
    rw [hr, List.mem_singleton] at hn
    exact reg_setReg_of_ne s s.pc hn
  pc _ := ⟨ht, fun nzp off h => absurd h (hbr nzp off)⟩
  ccKept hcfg _ := (setccIfAll_cc (s.setReg linkReg s.pc) s.pc).trans (by simp [hcfg])
  ccSet _ h := absurd (h.symm.trans hcc) (by simp)

theorem br_effect (nzp : BitVec 3) (off : BitVec 9) (s : State) :
    ExecEffect (.br nzp off) s
      ((if branchEnable s.cc nzp then { s with pc := s.pcPlus off } else s).setPhase .done) := by
  split
  · next hb =>
    refine { pc := fun _ => ⟨rfl, fun n o h => ?_⟩ }
    obtain ⟨rfl, -⟩ := Instr.br.inj h
    simpa [branchEnable] using hb
  · exact {}

theorem push_effect {s : State} (sr : Reg) (v : Word) (h : s.InRange (s.reg 6 - 1)) :
    ExecEffect (.push sr) s
      ((((s.setReg 6 (s.reg 6 - 1)).memWrite (s.reg 6 - 1) v).setccIfAll (s.reg 6 - 1)).setPhase .done) where
  storage hs := (hs.memWrite h v).congr rfl rfl (fun _ => rfl) rfl
  regs r hn := reg_setReg_of_ne s _ (fun e => hn (List.mem_singleton.mpr e))
  ccKept hcfg _ := (setccIfAll_cc (s.setReg 6 (s.reg 6 - 1)) _).trans (by simp [hcfg])

theorem pop_effect (dr : Reg) (s : State) : ExecEffect (.pop dr) s ((s.popped dr).setPhase .done) where
  toAdvances := advances_registers s _ s.pc _ _
  ir := rfl
  regs r hn := by
    have hdr : r ≠ dr := fun e => hn (by simp [Instr.registersWritten, e])
    have h6 : r ≠ 6 := fun e => hn (by simp [Instr.registersWritten, e])
    exact (reg_setReg_of_ne (s.setReg dr _) _ h6).trans (reg_setReg_of_ne s _ hdr)
  ccKept hcfg _ := (setccIfAll_cc ((s.setReg dr _).setReg 6 _) _).trans (by simp [hcfg])

/-! ## The services, from whatever latches -/

/-- The service of GETC waits or takes one byte (R182). -/
theorem getcService_effect (s : State) {l : Latches} (hl : l.phase = .execute) :
    ∃ t, endCycle s (State.getcService { s with latch := l }) = .next t ∧ ExecEffect .getc s t := by
  cases h : s.console.input with
  | nil =>
    rw [getcService_of_nil (s := { s with latch := l }) h]
    exact ⟨_, rfl, { phase := fun _ => .inr ⟨hl, .inr (.inl rfl)⟩ }⟩
  | cons b bs =>
    rw [getcService_of_cons (s := { s with latch := l }) h]
    exact ⟨_, rfl, {
      regs := fun r hn => reg_setReg_of_ne _ _ fun e => hn (List.mem_singleton.mpr e)
      ccKept := fun hcfg _ => (setccIfAll_cc _ _).trans (by simp [hcfg])
      input := .inr ⟨b, by simp [h]⟩ }⟩

/-- The service of PUTS ends, is held, or takes a fault (R184). -/
theorem putsLoop_effect (s : State) (a : Word) {l : Latches} (hl : l.phase = .execute) :
    ∃ t, endCycle s (putsLoop 131072 a { s with latch := l }) = .next t ∧ ExecEffect .puts s t := by
  have hframe := (accessFrame_staged s s.mar s.mdr l).trans (putsLoop_accessFrame 131072 a { s with latch := l })
  have hlatch := putsLoop_latch 131072 a { s with latch := l }
  generalize hf : putsLoop 131072 a { s with latch := l } = f at hframe hlatch
  cases f with
  | go u => exact ⟨_, rfl, (hframe.setPhase .done).effect rfl (.inl rfl)⟩
  | hold u =>
    have hp : u.latch.phase = .execute := (congrArg Latches.phase hlatch).trans hl
    exact ⟨_, rfl, hframe.effect rfl (.inr ⟨hp, rfl, memWords_of_putsLoop_hold (s := { s with latch := l }) hf⟩)⟩
  | outOfRange b u => exact ⟨_, rfl, hframe.faultEffect _ (putsLoop_outOfRange (s := { s with latch := l }) hf)⟩

/-! ## Every instruction -/

/-- Every instruction answers a next state, with the effect that is listed for it. -/
theorem exec_effect (i : Instr) (s : State) : ∃ t, exec i s = .next t ∧ ExecEffect i s t := by
  have staged (l : Latches) : AccessFrame s { s with latch := l } := accessFrame_staged s s.mar s.mdr l
  cases i with
  | addReg dr sr1 sr2 => exact ⟨_, exec_addReg dr sr1 sr2 s, operate_effect (staged _) .add rfl rfl⟩
  | addImm dr sr1 imm5 => exact ⟨_, exec_addImm dr sr1 imm5 s, operate_effect (staged _) .add rfl rfl⟩
  | andReg dr sr1 sr2 => exact ⟨_, exec_andReg dr sr1 sr2 s, operate_effect (staged _) .and rfl rfl⟩
  | andImm dr sr1 imm5 => exact ⟨_, exec_andImm dr sr1 imm5 s, operate_effect (staged _) .and rfl rfl⟩
  | notOp dr sr => exact ⟨_, exec_notOp dr sr s, operate_effect (staged _) .not rfl rfl⟩
  | br nzp off => exact ⟨_, exec_br nzp off s, br_effect nzp off s⟩
  | jmp baseR => exact ⟨_, exec_jmp baseR s, { pc := fun _ => ⟨rfl, nofun⟩ }⟩
  | jsr off => exact ⟨_, exec_jsr off s, call_effect s _ rfl rfl nofun rfl⟩
  | jsrr baseR => exact ⟨_, exec_jsrr baseR s, call_effect s _ rfl rfl nofun rfl⟩
  | ld dr off =>
    by_cases h : s.InRange (s.pcPlus off)
    · exact ⟨_, exec_ld_of_inRange dr h, loadedFrom_effect (staged _) h rfl rfl⟩
    · exact ⟨_, exec_ld_of_not_inRange dr h, (AccessFrame.refl s).faultEffect _ h⟩
  | ldr dr baseR off =>
    by_cases h : s.InRange (s.basePlus baseR off)
    · exact ⟨_, exec_ldr_of_inRange dr h, loadedFrom_effect (staged _) h rfl rfl⟩
    · exact ⟨_, exec_ldr_of_not_inRange dr h, (AccessFrame.refl s).faultEffect _ h⟩
  | ldi dr off =>
    by_cases h : s.InRange (s.pcPlus off)
    · by_cases h2 : s.InRange (s.viewD (s.pcPlus off))
      · exact ⟨_, exec_ldi_of_inRange dr h h2,
          loadedFrom_effect (accessFrame_pointerRead h) ((pointerRead_inRange s _ _).mpr h2) rfl rfl⟩
      · exact ⟨_, exec_ldi_of_target_not_inRange dr h h2, (AccessFrame.refl s).faultEffect _ h2⟩
    · exact ⟨_, exec_ldi_of_pointer_not_inRange dr h, (AccessFrame.refl s).faultEffect _ h⟩
  | lea dr off => exact ⟨_, exec_lea dr off s, (AccessFrame.refl s).resultEffect rfl rfl _⟩
  | st sr off =>
    by_cases h : s.InRange (s.pcPlus off)
    · exact ⟨_, exec_st_of_inRange sr h, storedAt_effect (staged _) h rfl⟩
    · exact ⟨_, exec_st_of_not_inRange sr h, (AccessFrame.refl s).faultEffect _ h⟩
  | str sr baseR off =>
    by_cases h : s.InRange (s.basePlus baseR off)
    · exact ⟨_, exec_str_of_inRange sr h, storedAt_effect (staged _) h rfl⟩
    · exact ⟨_, exec_str_of_not_inRange sr h, (AccessFrame.refl s).faultEffect _ h⟩
  | sti sr off =>
    by_cases h : s.InRange (s.pcPlus off)
    · by_cases h2 : s.InRange (s.viewD (s.pcPlus off))
      · exact ⟨_, exec_sti_of_inRange sr h h2,
          storedAt_effect (accessFrame_pointerRead h) ((pointerRead_inRange s _ _).mpr h2) rfl⟩
      · exact ⟨_, exec_sti_of_target_not_inRange sr h h2, (AccessFrame.refl s).faultEffect _ h2⟩
    · exact ⟨_, exec_sti_of_pointer_not_inRange sr h, (AccessFrame.refl s).faultEffect _ h⟩
  | getc =>
    have hl : ((s.evalVector 0x20#8).setPhase .execute).latch.phase = .execute := rfl
    have he : exec .getc s = endCycle s _ := runPhases_trap s 0x20#8 State.getcService
    exact he ▸ getcService_effect s hl
  | out =>
    exact ⟨_, exec_out s, (((staged _).trans (accessFrame_consoleOut _ _)).setPhase .done).effect rfl (.inl rfl)⟩
  | puts =>
    have hl : ((s.evalVector 0x22#8).setPhase .execute).latch.phase = .execute := rfl
    exact exec_puts s ▸ putsLoop_effect s (s.reg 0) hl
  | halt => exact ⟨_, exec_halt s, { halted := .inr ⟨rfl, rfl⟩, phase := fun _ => .inr ⟨rfl, .inl rfl⟩ }⟩
  | trap v => exact ⟨_, exec_trap v s, (staged _).effect rfl (.inl rfl)⟩
  | push sr =>
    by_cases h : s.InRange (s.reg 6 - 1)
    · exact ⟨_, exec_push_of_inRange sr h, push_effect sr _ h⟩
    · exact ⟨_, exec_push_of_not_inRange sr h, (AccessFrame.refl s).faultEffect _ h⟩
  | pop dr =>
    by_cases h : s.InRange (s.reg 6)
    · exact ⟨_, exec_pop_of_inRange dr h, pop_effect dr s⟩
    · exact ⟨_, exec_pop_of_not_inRange dr h, (AccessFrame.refl s).faultEffect _ h⟩
  | invalid => exact ⟨_, exec_invalid s, (staged _).effect rfl (.inl rfl)⟩

theorem ExecEffect.of_exec {i : Instr} {s t : State} (h : exec i s = .next t) : ExecEffect i s t := by
  obtain ⟨u, hu, he⟩ := exec_effect i s
  obtain rfl := Host.Outcome.next.inj (hu.symm.trans h)
  exact he

/-- A cycle that a service holds goes on with the effect of the instruction in `ir` (R226). -/
theorem resumePhases_effect {s : State} {ph : Phases} (h : s.HeldPhases ph) :
    ∃ t, s.resumePhases ph = .next t ∧ ExecEffect (decode s.ir) s t := by
  have hl : (s.setPhase .execute).latch.phase = .execute := rfl
  obtain ⟨hd, rfl⟩ | ⟨hd, rfl⟩ := h
  · rw [hd, getcPhases, resumePhases_trap]
    exact getcService_effect s hl
  · rw [hd, putsPhases, resumePhases_trap]
    exact putsLoop_effect s (s.reg 0) hl

end Sys2Proof.Machine
end

section
/-! PROOFS. The effect of a step, from the effect of the instruction that it runs. -/

namespace Sys2Proof.Machine

/-- `s1` is the state in which a step from `s` comes to the phases after DECODE: FETCH and DECODE have led to it, or a
service holds the cycle. -/
inductive State.HandsOver (s : State) : State → Prop where
  | fetched : s.latch.phase = .fetch → s.InRange s.pc → s.HandsOver s.fetched.latchDecode
  | held : s.latch.phase = .execute → s.HandsOver s

/-- Everything that a step can do, in terms of the effect of an instruction. -/
theorem step_effect {s t : State} (h : step s = .next t) :
    (¬ s.Running ∧ t = s) ∨
    (s.Running ∧ s.latch.phase = .fetch ∧ ¬ s.InRange s.pc ∧ t = takeFault s s s.pc) ∨
    (s.Running ∧ ∃ s1 u, s.HandsOver s1 ∧ ExecEffect (decode s1.ir) s1 u ∧ Settles s u t) := by
  obtain hn | ⟨hr, hp, hc⟩ | ⟨hr, hp, ph, u, hph, hu, hs⟩ := step_cases h
  · exact .inl hn
  · obtain ⟨ha, rfl⟩ | ⟨ha, u, hu, hs⟩ := newCycle_cases hc
    · exact .inr (.inl ⟨hr, hp, ha, rfl⟩)
    · exact .inr (.inr ⟨hr, _, u, .fetched hp ha, .of_exec hu, hs⟩)
  · obtain ⟨v, hv, he⟩ := resumePhases_effect hph
    obtain rfl := Host.Outcome.next.inj (hv.symm.trans hu)
    exact .inr (.inr ⟨hr, s, v, .held hp, he, hs⟩)

/-! ## FETCH and DECODE -/

theorem fetched_advances {s : State} (h : s.InRange s.pc) : Advances s s.fetched where
  cfg := by simp [State.fetched]
  loaded := by simp [State.fetched]
  loadBase := by simp [State.fetched]
  bp := by simp [State.fetched]
  trace := by simp [State.fetched]
  output := by simp [State.fetched]
  storage hs :=
    have h0 : State.StorageOk { s with mar := s.pc, pc := s.pc + 1 } := hs.congr rfl rfl (fun _ => rfl) rfl
    (h0.afterRead .ic h).congr rfl rfl (fun _ => rfl) rfl

theorem fetched_console (s : State) : s.fetched.console = s.console := by simp [State.fetched]

theorem fetched_halted (s : State) : s.fetched.halted = s.halted := by simp [State.fetched]

theorem fetched_fault (s : State) : s.fetched.fault = s.fault := by simp [State.fetched]

theorem State.HandsOver.advances {s s1 : State} (h : s.HandsOver s1) : Advances s s1 := by
  cases h with
  | fetched _ ha => exact (fetched_advances ha).trans (accessFrame_staged _ _ _ _).toAdvances
  | held => exact .refl s

theorem State.HandsOver.console {s s1 : State} (h : s.HandsOver s1) : s1.console = s.console := by
  cases h with
  | fetched => exact fetched_console s
  | held => rfl

theorem State.HandsOver.halted {s s1 : State} (h : s.HandsOver s1) : s1.halted = s.halted := by
  cases h with
  | fetched => exact fetched_halted s
  | held => rfl

theorem State.HandsOver.fault {s s1 : State} (h : s.HandsOver s1) : s1.fault = s.fault := by
  cases h with
  | fetched => exact fetched_fault s
  | held => rfl

/-! ## The end of the cycle -/

theorem accessFrame_endOfCycle (s : State) : AccessFrame s s.endOfCycle := by
  unfold State.endOfCycle
  split
  · exact (AccessFrame.refl s).setPhase .fetch
  · exact .refl s

theorem Settles.advances {s u t : State} (h : Settles s u t) (hu : Advances s u) : Advances s t := by
  obtain ⟨a, -, rfl⟩ | ⟨-, rfl⟩ := h
  · exact hu.takeFault a
  · exact hu.trans (accessFrame_endOfCycle u).toAdvances

theorem Settles.input {s u t : State} (h : Settles s u t) : t.console.input = u.console.input := by
  obtain ⟨a, -, rfl⟩ | ⟨-, rfl⟩ := h
  · rfl
  · exact (accessFrame_endOfCycle u).input

/-- The end of a cycle keeps the fault that the phases have left. -/
theorem Settles.fault {s u t : State} (h : Settles s u t) : t.fault = u.fault := by
  obtain ⟨a, ha, rfl⟩ | ⟨-, rfl⟩ := h
  · exact ha.symm
  · exact (accessFrame_endOfCycle u).fault

/-! ## A step -/

theorem step_advances {s t : State} (h : step s = .next t) : Advances s t := by
  obtain ⟨-, rfl⟩ | ⟨-, -, -, rfl⟩ | ⟨-, s1, u, hh, he, hs⟩ := step_effect h
  · exact .refl t
  · exact (Advances.refl s).takeFault s.pc
  · exact hs.advances (hh.advances.trans he.toAdvances)

/-- A step takes at most one byte of the input (R182, R222). -/
theorem step_input {s t : State} (h : step s = .next t) :
    t.console.input = s.console.input ∨ ∃ b, s.console.input = b :: t.console.input := by
  obtain ⟨-, rfl⟩ | ⟨-, -, -, rfl⟩ | ⟨-, s1, u, hh, he, hs⟩ := step_effect h
  · exact .inl rfl
  · exact .inl rfl
  · rw [hs.input, ← hh.console]
    exact he.input

/-- A step sets `halted` by executing HALT alone (R34, R181). -/
theorem step_halted {s t : State} (h : step s = .next t) (hne : t.halted ≠ s.halted) :
    t.halted = true ∧ decode t.ir = .halt := by
  obtain ⟨-, rfl⟩ | ⟨-, -, -, rfl⟩ | ⟨-, s1, u, hh, he, ⟨a, -, rfl⟩ | ⟨-, rfl⟩⟩ := step_effect h
  · exact absurd rfl hne
  · exact absurd rfl hne
  · exact absurd rfl hne
  · have hend := accessFrame_endOfCycle u
    rw [hend.halted, ← hh.halted] at hne
    obtain hkept | ⟨hset, hi⟩ := he.halted
    · exact absurd hkept hne
    · exact ⟨hend.halted.trans hset, by rw [hend.ir, he.ir, hi]⟩

/-- A step sets `fault` where it is empty alone, to an address outside memory (R34, R201). -/
theorem step_fault {s t : State} (h : step s = .next t) (hne : t.fault ≠ s.fault) :
    s.fault = none ∧ ∃ a, t.fault = some (.outOfRange a) ∧ ¬ s.InRange a := by
  obtain ⟨-, rfl⟩ | ⟨hr, -, ha, rfl⟩ | ⟨hr, s1, u, hh, he, hs⟩ := step_effect h
  · exact absurd rfl hne
  · exact ⟨hr.noFault, s.pc, rfl, ha⟩
  · rw [hs.fault, ← hh.fault] at hne
    obtain hkept | ⟨a, hset, ha⟩ := he.fault
    · exact absurd hkept hne
    · exact ⟨hr.noFault, a, hs.fault.trans hset, fun e => ha ((hh.advances.inRange a).mpr e)⟩

/-- A step ends at FETCH, or in EXECUTE where HALT has ended the program or a service holds the cycle (R120). -/
theorem step_phase {s t : State} (h : s.Inv) (hst : step s = .next t) :
    t.latch.phase = .fetch ∨ (t.latch.phase = .execute ∧ (t.halted = true ∨ t.HeldByService)) := by
  obtain ⟨-, rfl⟩ | ⟨-, -, -, rfl⟩ | ⟨-, s1, u, hh, he, ⟨a, -, rfl⟩ | ⟨hf, rfl⟩⟩ := step_effect hst
  · exact h.phase_ok
  · exact h.phase_ok
  · exact h.phase_ok
  · unfold State.endOfCycle
    split
    · exact .inl rfl
    · next hdone =>
      obtain ⟨hp, hend⟩ := (he.phase hf).resolve_left hdone
      refine .inr ⟨hp, hend.imp_right fun hheld => ?_⟩
      rw [State.HeldByService, he.ir, he.cfg]
      exact hheld

end Sys2Proof.Machine
end

section
/-! PROOFS. The statements on steps and on the phases of instructions settled: O12, O20, O21, O23 and O24. -/

namespace Sys2Proof.Proofs

open Machine

/-- Settles O12: what is stored by `step_advances`, the phase by `step_phase`. -/
theorem stepKeepsTheInvariant : Obligations.StepKeepsTheInvariant := by
  unfold Obligations.StepKeepsTheInvariant
  intro s t h hst
  exact ((step_advances hst).storage h.storageOk).inv (step_phase h hst)

/-- Settles O20: the instruction of the step and the end of its cycle append alone (`step_advances`), and only GETC takes
a byte (`step_input`). -/
theorem traceAndConsoleOnlyGrow : Obligations.TraceAndConsoleOnlyGrow := by
  unfold Obligations.TraceAndConsoleOnlyGrow
  intro s t h
  have ha := step_advances h
  exact ⟨ha.trace, ha.output, step_input h⟩

/-- Settles O21, by the register clause of `exec_effect`. -/
theorem onlyListedRegistersAreWritten : Obligations.OnlyListedRegistersAreWritten := by
  unfold Obligations.OnlyListedRegistersAreWritten
  intro i s t r h hne
  by_contra hr
  exact hne ((ExecEffect.of_exec h).regs r hr)

/-- Settles O23, by the two condition-code clauses of `exec_effect`. -/
theorem onlySevenInstructionsSetCC : Obligations.OnlySevenInstructionsSetCC := by
  unfold Obligations.OnlySevenInstructionsSetCC
  intro i s t hcfg _ h
  have he := ExecEffect.of_exec h
  exact ⟨he.ccSet, he.ccKept hcfg⟩

/-- Settles O24: the fields without a writer by `step_advances`, `halted` and `fault` from the instruction of the
step. -/
theorem statusFieldsHaveTheirWriters : Obligations.StatusFieldsHaveTheirWriters := by
  unfold Obligations.StatusFieldsHaveTheirWriters
  intro s t h
  have ha := step_advances h
  exact ⟨ha.cfg, ha.loaded, ha.loadBase, ha.bp, step_halted h, step_fault h⟩

end Sys2Proof.Proofs
end

section
/-! PROOFS. The host's calls (R216 to R222, R228 to R233): when they can be made, and what a load and a change of the
breakpoints leave. -/

namespace Sys2Proof.Machine

/-! ## Calls between cycles -/

/-- A state between cycles has an outcome to report, and no other state has (R200, R228). -/
theorem report_isSome_iff (s : State) : s.report.isSome = true ↔ s.BetweenCycles := by
  unfold State.report State.BetweenCycles
  split
  · next hl => simp [hl]
  · next hl =>
    cases hf : s.fault with
    | some f => simp
    | none =>
      cases hh : s.halted with
      | true => simp
      | false => by_cases hp : s.latch.phase = .fetch <;> simp [hl, hp]

theorem hostCall_of_between {α : Type} {s : State} (h : s.BetweenCycles) (r : α) : s.hostCall r = some r := by
  obtain ⟨o, ho⟩ := Option.isSome_iff_exists.mp ((report_isSome_iff s).mpr h)
  unfold State.hostCall
  rw [ho]

theorem hostCall_of_not_between {α : Type} {s : State} (h : ¬ s.BetweenCycles) (r : α) : s.hostCall r = none := by
  unfold State.hostCall
  cases ho : s.report with
  | none => rfl
  | some o => exact absurd ((report_isSome_iff s).mp (by rw [ho]; rfl)) h

/-- A call that answers at all answers its result. -/
theorem eq_of_hostCall_eq_some {α : Type} {s : State} {r x : α} (h : s.hostCall r = some x) : r = x := by
  unfold State.hostCall at h
  split at h
  · exact Option.some.inj h
  · exact absurd h (by simp)

/-! ## Load -/

theorem load_of_between {s : State} (h : s.BetweenCycles) {words : List Word} (hw : words.length ≤ s.cfg.memWords)
    (start : Word) : s.load words start = some (s.loadImage words start, .ok) := by
  rw [State.load, hostCall_of_between h, if_neg (Nat.not_lt.mpr hw)]

/-- A load changes nothing, or leaves the state of R231 for an image that fits. -/
theorem load_cases {s t : State} {words : List Word} {start : Word} {r : LoadResult}
    (h : s.load words start = some (t, r)) :
    (t = s ∧ r = .imageTooLarge) ∨ (words.length ≤ s.cfg.memWords ∧ t = s.loadImage words start ∧ r = .ok) := by
  have h := eq_of_hostCall_eq_some h
  split at h
  · obtain ⟨rfl, rfl⟩ := Prod.mk.inj h
    exact .inl ⟨rfl, rfl⟩
  · next hw =>
    obtain ⟨rfl, rfl⟩ := Prod.mk.inj h
    exact .inr ⟨Nat.not_lt.mp hw, rfl, rfl⟩

theorem loadImage_of_load_ok {s t : State} {words : List Word} {start : Word}
    (h : s.load words start = some (t, .ok)) : words.length ≤ s.cfg.memWords ∧ t = s.loadImage words start := by
  obtain ⟨-, hr⟩ | ⟨hw, ht, -⟩ := load_cases h
  · exact absurd hr (by decide)
  · exact ⟨hw, ht⟩

/-- A load establishes the invariant from any legal set of breakpoints (R49, R231). -/
theorem loadImage_inv {s : State} (hb : s.bp.Pairwise (· < ·) ∧ s.bp.length ≤ 4) {words : List Word}
    (hw : words.length ≤ s.cfg.memWords) (start : Word) : (s.loadImage words start).Inv where
  mem_wf := Memory.wf.image words hw
  lines_wf c := by cases c <;> exact Lines.wf.reset _
  lines_installed c e he := by cases c <;> exact absurd he (List.not_mem_nil)
  ic_clean e he := absurd he (List.not_mem_nil)
  bp_set := hb
  phase_ok := .inl rfl

/-- A key that is not listed reads as the default. -/
theorem sparseGet_of_forall_ne {α : Type} (d : α) {m : List (Nat × α)} {k : Nat} (h : ∀ e ∈ m, e.1 ≠ k) :
    sparseGet d m k = d := by
  induction m with
  | nil => rfl
  | cons e m ih =>
    rw [sparseGet, if_neg (h e List.mem_cons_self)]
    exact ih fun f hf => h f (List.mem_cons_of_mem _ hf)

/-- Below its first offset an image has no word. -/
theorem read_imageFrom_of_lt {o k : Nat} (h : k < o) (ws : List Word) : Memory.read (imageFrom o ws) k = 0x0000#16 :=
  sparseGet_of_forall_ne _ fun _ he => Nat.ne_of_gt (Nat.lt_of_lt_of_le h (mem_imageFrom he).1)

/-- The words of an image stand from its first offset on, and 0x0000 after them (R47, R233). -/
theorem read_imageFrom (o k : Nat) (ws : List Word) :
    Memory.read (imageFrom o ws) (o + k) = ws.getD k 0x0000#16 := by
  induction ws generalizing o k with
  | nil => rfl
  | cons w ws ih =>
    cases k with
    | zero =>
      unfold imageFrom
      split
      · next hw => exact (read_imageFrom_of_lt (Nat.lt_succ_self o) ws).trans hw.symm
      · simp [Memory.read, sparseGet]
    | succ k =>
      have hrest : Memory.read (imageFrom (o + 1) ws) (o + (k + 1)) = ws.getD k 0x0000#16 := by
        rw [← ih (o + 1) k, Nat.add_assoc, Nat.add_comm 1 k]
      unfold imageFrom
      split
      · exact hrest
      · rw [Memory.read, sparseGet, if_neg (by omega)]
        exact hrest

/-- The offset of the `k`-th address from the start address on is `k` (R51). -/
theorem loadImage_off (s : State) (words : List Word) (start : Word) {k : Nat} (hk : k < 65536) :
    (s.loadImage words start).off (start + BitVec.ofNat 16 k) = k := by
  change (start + BitVec.ofNat 16 k - start).toNat = k
  rw [add_sub_cancel_left, BitVec.toNat_ofNat]
  exact Nat.mod_eq_of_lt hk

/-! ## Poke -/

theorem poke_cases {s t : State} {a w : Word} {r : PokeResult} (h : s.poke a w = some (t, r)) :
    t = s ∨ (s.InRange a ∧ t = s.memWrite a w) := by
  have h := eq_of_hostCall_eq_some h
  split at h
  · exact .inl (Prod.mk.inj h).1.symm
  · split at h
    · next ha => exact .inr ⟨ha, (Prod.mk.inj h).1.symm⟩
    · exact .inl (Prod.mk.inj h).1.symm

theorem inv_memWrite {s : State} (h : s.Inv) {a : Word} (ha : s.InRange a) (w : Word) : (s.memWrite a w).Inv :=
  (h.storageOk.memWrite ha w).inv h.phase_ok

/-! ## Breakpoints -/

theorem setBreakpoint_cases {s t : State} {a : Word} {r : SetResult} (h : s.setBreakpoint a = some (t, r)) :
    t = s ∨ (a ∉ s.bp ∧ s.bp.length ≠ 4 ∧ t = { s with bp := insertBreakpoint a s.bp }) := by
  have h := eq_of_hostCall_eq_some h
  split at h
  · exact .inl (Prod.mk.inj h).1.symm
  · next ha =>
    split at h
    · exact .inl (Prod.mk.inj h).1.symm
    · next hl => exact .inr ⟨ha, hl, (Prod.mk.inj h).1.symm⟩

theorem clearBreakpoint_cases {s t : State} {a : Word} {r : ClearResult} (h : s.clearBreakpoint a = some (t, r)) :
    t = s ∨ t = { s with bp := s.bp.filter (· ≠ a) } := by
  have h := eq_of_hostCall_eq_some h
  split at h
  · exact .inr (Prod.mk.inj h).1.symm
  · exact .inl (Prod.mk.inj h).1.symm

theorem length_insertBreakpoint (a : Word) (bs : List Word) : (insertBreakpoint a bs).length = bs.length + 1 := by
  induction bs with
  | nil => rfl
  | cons b bs ih =>
    unfold insertBreakpoint
    split
    · rfl
    · rw [List.length_cons, ih, List.length_cons]

theorem mem_insertBreakpoint {a c : Word} {bs : List Word} : c ∈ insertBreakpoint a bs ↔ c = a ∨ c ∈ bs := by
  induction bs with
  | nil => simp [insertBreakpoint]
  | cons b bs ih =>
    unfold insertBreakpoint
    split
    · simp
    · rw [List.mem_cons, ih, List.mem_cons, or_left_comm]

/-- A new address keeps the rising order. -/
theorem insertBreakpoint_pairwise {a : Word} {bs : List Word} (h : bs.Pairwise (· < ·)) (ha : a ∉ bs) :
    (insertBreakpoint a bs).Pairwise (· < ·) := by
  induction bs with
  | nil => simp [insertBreakpoint]
  | cons b bs ih =>
    obtain ⟨hb, hbs⟩ := List.pairwise_cons.mp h
    obtain ⟨hab, ha⟩ := List.ne_and_not_mem_of_not_mem_cons ha
    unfold insertBreakpoint
    split
    · next hlt =>
      refine List.pairwise_cons.mpr ⟨fun c hc => ?_, h⟩
      obtain rfl | hc := List.mem_cons.mp hc
      · exact hlt
      · exact BitVec.lt_trans hlt (hb c hc)
    · next hlt =>
      refine List.pairwise_cons.mpr ⟨fun c hc => ?_, ih hbs ha⟩
      obtain rfl | hc := mem_insertBreakpoint.mp hc
      · exact BitVec.lt_of_le_ne (BitVec.not_lt.mp hlt) (Ne.symm hab)
      · exact hb c hc

/-- The invariant asks of the breakpoints that they are a legal set. -/
theorem State.Inv.withBreakpoints {s : State} (h : s.Inv) {bs : List Word} (hs : bs.Pairwise (· < ·))
    (hl : bs.length ≤ 4) : State.Inv { s with bp := bs } :=
  ⟨h.mem_wf, h.lines_wf, h.lines_installed, h.ic_clean, ⟨hs, hl⟩, h.phase_ok⟩

/-! ## The condition code -/

/-- Bit 15 is the sign (R10, R27). -/
theorem getLsbD_15_iff (v : Word) : v.getLsbD 15 = true ↔ v.toInt < 0 := by
  rw [← BitVec.msb_eq_getLsbD_last v, BitVec.msb_eq_toInt, decide_eq_true_iff]

theorem ccOf_of_neg {v : Word} (h : v.toInt < 0) : ccOf v = .n := if_pos ((getLsbD_15_iff v).mpr h)

theorem ccOf_of_zero {v : Word} (h : v.toInt = 0) : ccOf v = .z := by
  obtain rfl : v = 0x0000#16 := BitVec.eq_of_toInt_eq h
  rfl

theorem ccOf_of_pos {v : Word} (h : 0 < v.toInt) : ccOf v = .p := by
  have hs : ¬ v.getLsbD 15 = true := fun e => absurd ((getLsbD_15_iff v).mp e) (by omega)
  have hz : v ≠ 0x0000#16 := fun e => absurd h (by simp [e])
  rw [ccOf, if_neg hs, if_neg hz]

end Sys2Proof.Machine
end

section
/-! PROOFS. The statements settled: O9, O14, O22, O7 and O8. -/

namespace Sys2Proof.Proofs

open Machine

/-- Settles O9: the sparse image is read word by word, by induction over it. -/
theorem loadPlacesTheImage : Obligations.LoadPlacesTheImage := by
  unfold Obligations.LoadPlacesTheImage
  intro s words start hb hw
  have hread (k : Nat) : (s.loadImage words start).mem.read k = words.getD k 0x0000#16 := by
    rw [← read_imageFrom 0 k words, Nat.zero_add]
    rfl
  refine ⟨_, load_of_between hb hw start, fun k hk => ?_, fun k hk => ?_⟩
  · have hword : (s.loadImage words start).mem.read k = words[k] := (hread k).trans (List.getD_eq_getElem _ _ hk)
    have hmem : s.cfg.memWords ≤ 65536 := s.cfg.lastOffset.isLt
    refine ⟨hword, ?_⟩
    rw [State.memRead, loadImage_off s words start (by omega)]
    exact hword
  · rw [hread k, List.getD_eq_default _ _ hk]

/-- Settles O14: the storage part of the invariant for each call, and `report_isSome_iff` for when a call answers. -/
theorem hostOperationsKeepTheInvariant : Obligations.HostOperationsKeepTheInvariant := by
  unfold Obligations.HostOperationsKeepTheInvariant
  refine ⟨fun s h => ⟨fun words start t r hc => ?_, fun a w t r hc => ?_, fun a t r hc => ?_, fun a t r hc => ?_,
    fun bytes => ?_⟩, fun s t words start hs hl hc => ?_, fun s words a w => ⟨fun h => ?_, fun h => ?_⟩⟩
  · obtain ⟨rfl, -⟩ | ⟨hw, rfl, -⟩ := load_cases hc
    · exact h
    · exact loadImage_inv h.bp_set hw start
  · obtain rfl | ⟨ha, rfl⟩ := poke_cases hc
    · exact h
    · exact inv_memWrite h ha w
  · obtain ⟨hs, hl⟩ := h.bp_set
    obtain rfl | ⟨ha, h4, rfl⟩ := setBreakpoint_cases hc
    · exact h
    · exact h.withBreakpoints (insertBreakpoint_pairwise hs ha) (by rw [length_insertBreakpoint]; omega)
  · obtain ⟨hs, hl⟩ := h.bp_set
    obtain rfl | rfl := clearBreakpoint_cases hc
    · exact h
    · exact h.withBreakpoints (hs.filter _) ((List.length_filter_le _ _).trans hl)
  · have hstored : (s.supplyInput bytes).StorageOk := h.storageOk.congr rfl rfl (fun _ => rfl) rfl
    exact hstored.inv h.phase_ok
  · obtain ⟨hw, rfl⟩ := loadImage_of_load_ok hc
    exact loadImage_inv ⟨hs, hl⟩ hw start
  · exact ⟨hostCall_of_not_between h _, hostCall_of_not_between h _, hostCall_of_not_between h _,
      hostCall_of_not_between h _, hostCall_of_not_between h _⟩
  · have answers {α : Type} (r : α) : (s.hostCall r).isSome = true := by rw [hostCall_of_between h]; rfl
    exact ⟨answers _, answers _, answers _, answers _, answers _⟩

/-- Settles O22: the `pc` clause of `exec_effect`, and the cases of each host call. -/
theorem onlyControlTransfersWritePc : Obligations.OnlyControlTransfersWritePc := by
  unfold Obligations.OnlyControlTransfersWritePc
  refine ⟨fun i s t h => (ExecEffect.of_exec h).pc, fun s t h => ?_, fun s t words start h => ?_,
    fun s t a w => ⟨fun r h => ?_, fun r h => ?_, fun r h => ?_⟩⟩
  · by_cases ha : s.InRange s.pc
    · obtain rfl := Flow.go.inj ((fetch_eq_fetched ha).symm.trans h)
      simp [State.fetched]
    · exact absurd ((fetch_of_not_inRange ha).symm.trans h) (by simp)
  · obtain ⟨-, rfl⟩ := loadImage_of_load_ok h
    rfl
  · obtain rfl | ⟨-, rfl⟩ := poke_cases h <;> rfl
  · obtain rfl | ⟨-, -, rfl⟩ := setBreakpoint_cases h <;> rfl
  · obtain rfl | rfl := clearBreakpoint_cases h <;> rfl

/-- Settles O7: the flag of each sign, in its encoding. -/
theorem setccFollowsTheSign : Obligations.SetccFollowsTheSign := by
  unfold Obligations.SetccFollowsTheSign
  exact fun s v => ⟨fun h => congrArg CC.bits (ccOf_of_neg h), fun h => congrArg CC.bits (ccOf_of_zero h),
    fun h => congrArg CC.bits (ccOf_of_pos h), rfl⟩

/-- Settles O8: each field is one that `State.loadImage` sets or keeps. -/
theorem loadResetsTheCore : Obligations.LoadResetsTheCore := by
  unfold Obligations.LoadResetsTheCore
  intro s words start hb hw
  have hregs (r : Reg) : (s.loadImage words start).reg r = 0x0000#16 := by
    simp [State.reg, State.loadImage, Vector.get_eq_getElem]
  have hlines (c : CacheId) (i : Nat) : ((s.loadImage words start).lines c).line i = Line.reset := by
    cases c <;> rfl
  exact ⟨_, load_of_between hb hw start, hregs, rfl, rfl, rfl, rfl, rfl, rfl, rfl, hlines, rfl, rfl, rfl, rfl, rfl, rfl,
    rfl⟩

end Sys2Proof.Proofs
end

section
/-! PROOFS. FETCH and DECODE (R122, R123), and the cycle around the decoded instruction (R120, R128). -/

namespace Sys2Proof.Machine

/-- A cycle from an address in memory runs the fetched instruction and settles (R120). -/
theorem newCycle_of_inRange {s : State} (h : s.InRange s.pc) :
    s.newCycle = settle s (exec (decode (s.viewI s.pc)) s.fetched.latchDecode) := by
  unfold State.newCycle
  rw [fetch_eq_fetched h]
  rfl

theorem newCycle_of_not_inRange {s : State} (h : ¬ s.InRange s.pc) : s.newCycle = .next (takeFault s s s.pc) := by
  unfold State.newCycle
  rw [fetch_of_not_inRange h]

theorem newCycle_isNext (s : State) : ∃ t, s.newCycle = .next t := by
  by_cases h : s.InRange s.pc
  · obtain ⟨u, hu⟩ := exec_isNext (decode (s.viewI s.pc)) s.fetched.latchDecode
    rw [newCycle_of_inRange h, hu]
    exact settle_isNext s u
  · exact ⟨_, newCycle_of_not_inRange h⟩

theorem State.Ready.running {s : State} (h : s.Ready) : s.Running := ⟨h.loaded, h.noFault, h.notHalted⟩

/-- A ready state runs the instruction that it fetches (R120). -/
theorem step_of_ready {s : State} (h : s.Ready) :
    step s = settle s (exec (decode (s.viewI s.pc)) s.fetched.latchDecode) := by
  rw [step_of_fetch h.running h.atFetch, newCycle_of_inRange h.pcInRange]

/-! ## FETCH -/

/-- A read through the instruction cache changes it, main memory and the trace alone. -/
theorem afterRead_ic_frame (s : State) (a : Word) :
    s.afterRead .ic a =
      { s with ic := (s.afterRead .ic a).ic, mem := (s.afterRead .ic a).mem, trace := (s.afterRead .ic a).trace } := by
  unfold State.afterRead State.writeBack
  cases s.victim .ic a <;> dsimp only <;> split <;> rfl

theorem fetched_frame (s : State) :
    s.fetched = { s with ir := s.fetched.ir, mar := s.fetched.mar, pc := s.fetched.pc, ic := s.fetched.ic,
                         mem := s.fetched.mem, trace := s.fetched.trace } := by
  unfold State.fetched
  rw [afterRead_ic_frame]

theorem fetched_mar (s : State) : s.fetched.mar = s.pc := by simp [State.fetched]

theorem fetched_pc (s : State) : s.fetched.pc = s.pc + 1 := by simp [State.fetched]

theorem fetched_cc (s : State) : s.fetched.cc = s.cc := by simp [State.fetched]

theorem fetched_latch (s : State) : s.fetched.latch = s.latch := by simp [State.fetched]

/-- FETCH is a read of `pc` through the instruction cache (R122). -/
theorem fetched_readEffect (s : State) : ReadEffect .ic s.pc s s.fetched :=
  have e := afterRead_effect { s with mar := s.pc, pc := s.pc + 1 } .ic s.pc
  ⟨e.memory, e.line, e.otherLines, e.otherCache, e.trace⟩

/-! ## DECODE -/

theorem decodedOffset_decodeTrap (v : BitVec 8) : decodedOffset (decodeTrap v) = 0x0000#16 := by
  unfold decodeTrap
  split_ifs <;> rfl

/-- The offset of the decoded instruction is the one that R123 gives for its opcode. -/
theorem decodedOffset_decode (w : Word) : decodedOffset (decode w) = offsetAsWritten w := by
  unfold decode offsetAsWritten opField
  generalize w.extractLsb' 12 4 = op
  dsimp only
  split
  -- ADD, AND, PUSH and POP: both forms have no offset
  case h_2 | h_6 | h_13 => cases bit5 w <;> simp [decodedOffset]
  -- JSR has one, JSRR none
  case h_5 =>
    change decodedOffset (bif w.getLsbD 11 then _ else _) = _
    cases w.getLsbD 11 <;> simp [decodedOffset, sext, pcOffset11Field]
  -- TRAP
  case h_15 => simp [decodedOffset_decodeTrap]
  -- the invalid opcode
  case h_16 =>
    rw [if_neg (by tauto), if_neg (by tauto), if_neg (by tauto)]
    rfl
  all_goals simp [decodedOffset, sext, pcOffset9Field, offset6Field]

theorem branchEnable_iff (cc : CC) (nzp : BitVec 3) : branchEnable cc nzp = true ↔ cc.bits &&& nzp ≠ 0 := by
  simp [branchEnable]

/-- DECODE writes the latches of R123 from `ir` and the condition code. -/
theorem latchDecode_latches (s : State) : DecodedLatches s.ir s.cc s.latch s.latchDecode.latch where
  phase := rfl
  op := rfl
  dr := rfl
  sr1 := rfl
  sr2 := rfl
  ben := branchEnable_iff s.cc (nzpField s.ir)
  off := decodedOffset_decode s.ir
  later := ⟨rfl, rfl, rfl, rfl⟩

end Sys2Proof.Machine
end

section
/-! PROOFS. O15 settled. -/

namespace Sys2Proof.Proofs

open Machine

/-- Settles O15: the state after FETCH is `State.fetched`, and `settle` ends the cycle of the decoded instruction. -/
theorem stepRunsTheDecodedInstruction : Obligations.StepRunsTheDecodedInstruction := by
  unfold Obligations.StepRunsTheDecodedInstruction
  intro s h
  have hlatches : DecodedLatches (s.viewI s.pc) s.cc s.latch s.fetched.latchDecode.latch := by
    rw [← fetched_cc s, ← fetched_latch s]
    exact latchDecode_latches s.fetched
  refine ⟨s.fetched, fetch_eq_fetched h.pcInRange, rfl, fetched_mar s, fetched_pc s, fetched_readEffect s,
    fetched_frame s, rfl, hlatches, fun t ht => ?_⟩
  rw [step_of_ready h, ht]
  refine ⟨fun hf hp => ?_, fun hf hp => ?_, fun a ha => settle_of_outOfRange ha⟩
  · rw [settle_of_noFault hf, State.endOfCycle, if_pos hp]
    rfl
  · rw [settle_of_noFault hf, State.endOfCycle, if_neg (by rw [hp]; decide)]

end Sys2Proof.Proofs
end

section
/-! PROOFS. The transient registers `ir`, `mar`, `mdr` and the latches (R30, R31, R32): what a cycle does, but for what
it leaves in them, does not depend on what they hold when it begins. -/

namespace Sys2Proof.Machine

/-- The flow with its transient registers forgotten. -/
def Flow.forgetTransient (f : Flow) : Flow :=
  match f with
  | .go s => .go s.forgetTransient
  | .hold s => .hold s.forgetTransient
  | .outOfRange a s => .outOfRange a s.forgetTransient

/-- The outcome with its transient registers forgotten. -/
def forgetOutcome (out : Host.Outcome State Fault Refusal) : Host.Outcome State Fault Refusal :=
  match out with
  | .next s => .next s.forgetTransient
  | .fault r => .fault r
  | .refused r => .refused r

/-! ## The operations of the phases -/

theorem writeBack_forgetTransient (s : State) (c : CacheId) (a : Word) :
    (s.writeBack c a).forgetTransient = s.forgetTransient.writeBack c a := by
  have hv : s.forgetTransient.victim c a = s.victim c a := by cases c <;> rfl
  unfold State.writeBack
  rw [hv]
  cases s.victim c a with
  | none => rfl
  | some o => cases c <;> rfl

theorem afterRead_forgetTransient (s : State) (c : CacheId) (a : Word) :
    (s.afterRead c a).forgetTransient = s.forgetTransient.afterRead c a := by
  have hk : s.forgetTransient.accessKind c a = s.accessKind c a := by cases c <;> rfl
  have he : s.forgetTransient.accessEvent c .read a = s.accessEvent c .read a := by cases c <;> rfl
  unfold State.afterRead
  rw [← writeBack_forgetTransient, hk, he]
  dsimp only
  split
  · rfl
  · cases c <;> rfl

theorem dcWrite_forgetTransient (s : State) (a v : Word) :
    (s.dcWrite a v).forgetTransient = s.forgetTransient.dcWrite a v := by
  unfold State.dcWrite
  rw [← writeBack_forgetTransient]
  rfl

theorem readThen_forgetTransient {k : Word → State → Flow}
    (hk : ∀ w s, (k w s).forgetTransient = k w s.forgetTransient) (s : State) (a : Word) :
    (s.readThen a k).forgetTransient = s.forgetTransient.readThen a k := by
  by_cases h : s.InRange a
  · rw [readThen_of_inRange h, readThen_of_inRange (s := s.forgetTransient) h, hk, afterRead_forgetTransient]
    rfl
  · rw [readThen_of_not_inRange h, readThen_of_not_inRange (s := s.forgetTransient) h]
    rfl

theorem putsLoop_forgetTransient (n : Nat) (a : Word) (s : State) :
    (putsLoop n a s).forgetTransient = putsLoop n a s.forgetTransient := by
  induction n generalizing a s with
  | zero => rfl
  | succ n ih =>
    refine readThen_forgetTransient (fun w s => ?_) s a
    split
    · rfl
    · exact ih (a + 1) (s.consoleOut (w.setWidth 8))

theorem getcService_forgetTransient (s : State) :
    s.getcService.forgetTransient = s.forgetTransient.getcService := by
  cases h : s.console.input with
  | nil => rw [getcService_of_nil h, getcService_of_nil (s := s.forgetTransient) h]; rfl
  | cons b bs => rw [getcService_of_cons h, getcService_of_cons (s := s.forgetTransient) h]; rfl

/-! ## States that differ in transient registers alone -/

/-- The two states differ in the transient registers and latches alone. -/
structure SameButTransient (s u : State) : Prop where
  forget : s.forgetTransient = u.forgetTransient

/-- What reads no transient register has the same value in both states. -/
theorem SameButTransient.congr {α : Type} {s u : State} (h : SameButTransient s u) (f : State → α)
    (hf : ∀ x, f x.forgetTransient = f x := by exact fun _ => rfl) : f s = f u :=
  (hf s).symm.trans ((congrArg f h.forget).trans (hf u))

/-- An update that commutes with forgetting the transient registers keeps the relation. -/
theorem SameButTransient.map {s u : State} (h : SameButTransient s u) (f : State → State)
    (hf : ∀ x, (f x).forgetTransient = f x.forgetTransient := by exact fun _ => rfl) : SameButTransient (f s) (f u) :=
  ⟨(hf s).trans ((congrArg f h.forget).trans (hf u).symm)⟩

/-- Whatever is written to `mar` and `mdr`, the states stay alike. -/
theorem SameButTransient.stage {s u : State} (h : SameButTransient s u) (mar mdr mar' mdr' : Word) :
    SameButTransient { s with mar := mar, mdr := mdr } { u with mar := mar', mdr := mdr' } :=
  ⟨h.forget⟩

theorem SameButTransient.latchEa {s u : State} (h : SameButTransient s u) (a : Word) :
    SameButTransient (s.latchEa a) (u.latchEa a) :=
  ⟨h.forget⟩

theorem SameButTransient.afterRead {s u : State} (h : SameButTransient s u) (c : CacheId) (a : Word) :
    SameButTransient (s.afterRead c a) (u.afterRead c a) :=
  h.map (fun x => x.afterRead c a) fun x => afterRead_forgetTransient x c a

theorem SameButTransient.dcWrite {s u : State} (h : SameButTransient s u) (a v : Word) :
    SameButTransient (s.dcWrite a v) (u.dcWrite a v) :=
  h.map (fun x => x.dcWrite a v) fun x => dcWrite_forgetTransient x a v

/-- A load writes `mar` before it reads, and its register from the word that it reads. -/
theorem SameButTransient.loadedFrom {s u : State} (h : SameButTransient s u) (dr : Reg) (a : Word) :
    SameButTransient (s.loadedFrom dr a) (u.loadedFrom dr a) := by
  have hview : s.viewD a = u.viewD a := h.congr fun x => x.viewD a
  have hread := ((h.stage a s.mdr a u.mdr).afterRead .dc a).map fun x =>
    ((x.setReg dr (u.viewD a)).setcc (u.viewD a)).setPhase .done
  unfold State.loadedFrom
  rw [hview]
  exact ⟨hread.forget⟩

/-- A store stages `mar` and `mdr` before it writes from them. -/
theorem SameButTransient.storedAt {s u : State} (h : SameButTransient s u) (sr : Reg) (a : Word) :
    SameButTransient (s.storedAt sr a) (u.storedAt sr a) := by
  have hreg : s.reg sr = u.reg sr := h.congr fun x => x.reg sr
  unfold State.storedAt
  rw [hreg]
  exact ((h.stage a (u.reg sr) a (u.reg sr)).dcWrite a (u.reg sr)).map fun x => x.setPhase .done

theorem SameButTransient.pointerRead {s u : State} (h : SameButTransient s u) (p : Word) :
    SameButTransient (s.pointerRead p) (u.pointerRead p) :=
  ⟨((h.stage p s.mdr p u.mdr).afterRead .dc p).forget⟩

/-! ## The meanings -/

theorem endCycle_forgetTransient (start : State) (f : Flow) :
    forgetOutcome (endCycle start f) = endCycle start.forgetTransient f.forgetTransient := by
  cases f <;> rfl

/-- An instruction does the same from the state without the transient registers: it reads none of them that it has not
written. -/
theorem exec_forgetTransient (i : Instr) (s : State) :
    forgetOutcome (exec i s.forgetTransient) = forgetOutcome (exec i s) := by
  have outcomes {t u : State} (h : SameButTransient t u) : forgetOutcome (.next t) = forgetOutcome (.next u) :=
    congrArg Host.Outcome.next h.forget
  have same : SameButTransient s.forgetTransient s := ⟨rfl⟩
  cases i with
  | addReg dr sr1 sr2 => rw [exec_addReg, exec_addReg]; rfl
  | addImm dr sr1 imm5 => rw [exec_addImm, exec_addImm]; rfl
  | andReg dr sr1 sr2 => rw [exec_andReg, exec_andReg]; rfl
  | andImm dr sr1 imm5 => rw [exec_andImm, exec_andImm]; rfl
  | notOp dr sr => rw [exec_notOp, exec_notOp]; rfl
  | br nzp off =>
    have hb : branchEnable s.forgetTransient.cc nzp = branchEnable s.cc nzp := rfl
    rw [exec_br, exec_br, hb]
    cases branchEnable s.cc nzp <;> rfl
  | jmp baseR => rw [exec_jmp, exec_jmp]; rfl
  | jsr off => rw [exec_jsr, exec_jsr]; rfl
  | jsrr baseR => rw [exec_jsrr, exec_jsrr]; rfl
  | ld dr off =>
    by_cases h : s.InRange (s.pcPlus off)
    · rw [exec_ld_of_inRange dr h, exec_ld_of_inRange (s := s.forgetTransient) dr h]
      exact outcomes ((same.latchEa _).loadedFrom dr _)
    · rw [exec_ld_of_not_inRange dr h, exec_ld_of_not_inRange (s := s.forgetTransient) dr h]
      rfl
  | ldr dr baseR off =>
    by_cases h : s.InRange (s.basePlus baseR off)
    · rw [exec_ldr_of_inRange dr h, exec_ldr_of_inRange (s := s.forgetTransient) dr h]
      exact outcomes ((same.latchEa _).loadedFrom dr _)
    · rw [exec_ldr_of_not_inRange dr h, exec_ldr_of_not_inRange (s := s.forgetTransient) dr h]
      rfl
  | ldi dr off =>
    by_cases h : s.InRange (s.pcPlus off)
    · by_cases h2 : s.InRange (s.viewD (s.pcPlus off))
      · rw [exec_ldi_of_inRange dr h h2, exec_ldi_of_inRange (s := s.forgetTransient) dr h h2]
        exact outcomes ((same.pointerRead _).loadedFrom dr _)
      · rw [exec_ldi_of_target_not_inRange dr h h2, exec_ldi_of_target_not_inRange (s := s.forgetTransient) dr h h2]
        rfl
    · rw [exec_ldi_of_pointer_not_inRange dr h, exec_ldi_of_pointer_not_inRange (s := s.forgetTransient) dr h]
      rfl
  | lea dr off => rw [exec_lea, exec_lea]; rfl
  | st sr off =>
    by_cases h : s.InRange (s.pcPlus off)
    · rw [exec_st_of_inRange sr h, exec_st_of_inRange (s := s.forgetTransient) sr h]
      exact outcomes ((same.latchEa _).storedAt sr _)
    · rw [exec_st_of_not_inRange sr h, exec_st_of_not_inRange (s := s.forgetTransient) sr h]
      rfl
  | str sr baseR off =>
    by_cases h : s.InRange (s.basePlus baseR off)
    · rw [exec_str_of_inRange sr h, exec_str_of_inRange (s := s.forgetTransient) sr h]
      exact outcomes ((same.latchEa _).storedAt sr _)
    · rw [exec_str_of_not_inRange sr h, exec_str_of_not_inRange (s := s.forgetTransient) sr h]
      rfl
  | sti sr off =>
    by_cases h : s.InRange (s.pcPlus off)
    · by_cases h2 : s.InRange (s.viewD (s.pcPlus off))
      · rw [exec_sti_of_inRange sr h h2, exec_sti_of_inRange (s := s.forgetTransient) sr h h2]
        exact outcomes ((same.pointerRead _).storedAt sr _)
      · rw [exec_sti_of_target_not_inRange sr h h2, exec_sti_of_target_not_inRange (s := s.forgetTransient) sr h h2]
        rfl
    · rw [exec_sti_of_pointer_not_inRange sr h, exec_sti_of_pointer_not_inRange (s := s.forgetTransient) sr h]
      rfl
  | getc =>
    cases h : s.console.input with
    | nil => rw [exec_getc_of_nil h, exec_getc_of_nil (s := s.forgetTransient) h]; rfl
    | cons b bs => rw [exec_getc_of_cons h, exec_getc_of_cons (s := s.forgetTransient) h]; rfl
  | out => rw [exec_out, exec_out]; rfl
  | puts =>
    rw [exec_puts, exec_puts, endCycle_forgetTransient, endCycle_forgetTransient, putsLoop_forgetTransient,
      putsLoop_forgetTransient]
    rfl
  | halt => rw [exec_halt, exec_halt]; rfl
  | trap v => rw [exec_trap, exec_trap]; rfl
  | push sr =>
    by_cases h : s.InRange (s.reg 6 - 1)
    · rw [exec_push_of_inRange sr h, exec_push_of_inRange (s := s.forgetTransient) sr h]
      rfl
    · rw [exec_push_of_not_inRange sr h, exec_push_of_not_inRange (s := s.forgetTransient) sr h]
      rfl
  | pop dr =>
    by_cases h : s.InRange (s.reg 6)
    · rw [exec_pop_of_inRange dr h, exec_pop_of_inRange (s := s.forgetTransient) dr h]
      rfl
    · rw [exec_pop_of_not_inRange dr h, exec_pop_of_not_inRange (s := s.forgetTransient) dr h]
      rfl
  | invalid => rw [exec_invalid, exec_invalid]; rfl

/-! ## Cycles -/

/-- Two outcomes that are alike but for the transient registers are both next states, or neither is. -/
theorem next_of_forgetOutcome_eq {out out' : Host.Outcome State Fault Refusal} {t : State}
    (h : forgetOutcome out = forgetOutcome out') (ht : out = .next t) :
    ∃ t', out' = .next t' ∧ SameButTransient t t' := by
  subst ht
  cases out' with
  | next t' => exact ⟨t', rfl, ⟨Host.Outcome.next.inj h⟩⟩
  | fault r => exact absurd h (by simp [forgetOutcome])
  | refused r => exact absurd h (by simp [forgetOutcome])

theorem SameButTransient.exec {s s' : State} (h : SameButTransient s s') {i : Instr} {u : State}
    (hu : Machine.exec i s = .next u) : ∃ u', Machine.exec i s' = .next u' ∧ SameButTransient u u' :=
  next_of_forgetOutcome_eq ((exec_forgetTransient i s).symm.trans (h.forget ▸ exec_forgetTransient i s')) hu

theorem SameButTransient.symm {s s' : State} (h : SameButTransient s s') : SameButTransient s' s := ⟨h.forget.symm⟩

theorem SameButTransient.inRange {s s' : State} (h : SameButTransient s s') (a : Word) : s'.InRange a ↔ s.InRange a :=
  inRange_congr (h.congr State.cfg).symm (h.congr State.loadBase).symm a

theorem SameButTransient.running {s s' : State} (h : SameButTransient s s') (hr : s.Running) : s'.Running :=
  ⟨(h.congr State.loaded).symm.trans hr.loaded, (h.congr State.fault).symm.trans hr.noFault,
    (h.congr State.halted).symm.trans hr.notHalted⟩

theorem SameButTransient.phase {s s' : State} (h : SameButTransient s s') : s.latch.phase = s'.latch.phase :=
  h.congr fun x => x.latch.phase

theorem SameButTransient.takeFault {s s' u u' : State} (h : SameButTransient s s') (hu : SameButTransient u u')
    (a : Word) : SameButTransient (takeFault s u a) (takeFault s' u' a) := by
  have hconsole : Machine.takeFault s' u a = Machine.takeFault s' u' a :=
    congrArg (fun c => ({ s' with fault := some (.outOfRange a), console := c } : State)) (hu.congr State.console)
  rw [← hconsole]
  exact h.map fun x => Machine.takeFault x u a

theorem endOfCycle_forgetTransient (s : State) : s.endOfCycle.forgetTransient = s.forgetTransient.endOfCycle := by
  unfold State.endOfCycle
  exact apply_ite State.forgetTransient (s.latch.phase = .done) (s.setPhase .fetch) s

theorem SameButTransient.endOfCycle {u u' : State} (h : SameButTransient u u') :
    SameButTransient u.endOfCycle u'.endOfCycle :=
  h.map State.endOfCycle endOfCycle_forgetTransient

theorem endOfCycle_ir (s : State) : s.endOfCycle.ir = s.ir := (accessFrame_endOfCycle s).ir

theorem AlikeButTransient.same {s s' : State} (h : AlikeButTransient s s') : SameButTransient s s' := ⟨h.1⟩

theorem AlikeButTransient.heldIr {s s' : State} (h : AlikeButTransient s s') :
    s.latch.phase = .execute → s.ir = s'.ir :=
  h.2

theorem SameButTransient.alike {s s' : State} (h : SameButTransient s s')
    (hir : s.latch.phase = .execute → s.ir = s'.ir) : AlikeButTransient s s' :=
  ⟨h.forget, hir⟩

/-- Both cycles settle alike: where the instruction has left the same word in `ir`, a cycle that is held keeps it. -/
theorem AlikeButTransient.settle {s s' u u' t : State} (h : AlikeButTransient s s') (hu : SameButTransient u u')
    (hir : u.ir = u'.ir) (hs : Settles s u t) : ∃ t', settle s' (.next u') = .next t' ∧ AlikeButTransient t t' := by
  have hf : u.fault = u'.fault := hu.congr State.fault
  obtain ⟨a, ha, rfl⟩ | ⟨hn, rfl⟩ := hs
  · exact ⟨_, settle_of_outOfRange (hf.symm.trans ha), (h.same.takeFault hu a).alike h.heldIr⟩
  · exact ⟨_, settle_of_noFault (hf.symm.trans hn),
      hu.endOfCycle.alike fun _ => by rw [endOfCycle_ir, endOfCycle_ir, hir]⟩

/-- FETCH reads `pc` and writes `mar` and `ir`; DECODE writes latches (R122, R123). -/
theorem SameButTransient.fetched {s s' : State} (h : SameButTransient s s') :
    SameButTransient s.fetched.latchDecode s'.fetched.latchDecode := by
  have hpc : s.pc = s'.pc := h.congr State.pc
  have hadvanced := (h.map fun x => { x with pc := x.pc + 1 }).stage s.pc s.mdr s'.pc s'.mdr
  have hread := (hadvanced.afterRead .ic s.pc).map fun x => x.setPhase .decode
  unfold State.fetched
  rw [← hpc] at hread ⊢
  exact ⟨hread.forget⟩

/-- From the start of a cycle, both fetch the same word and run it alike. -/
theorem AlikeButTransient.newCycle {s s' t : State} (h : AlikeButTransient s s') (hp : s.latch.phase = .fetch)
    (hc : s.newCycle = .next t) : ∃ t', s'.newCycle = .next t' ∧ AlikeButTransient t t' := by
  have hss := h.same
  have hpc : s.pc = s'.pc := hss.congr State.pc
  obtain ⟨ha, rfl⟩ | ⟨ha, u, hu, hs⟩ := newCycle_cases hc
  · rw [hpc] at ha ⊢
    exact ⟨_, newCycle_of_not_inRange fun e => ha ((hss.inRange _).mp e),
      (hss.takeFault hss _).alike fun he => absurd (hp.symm.trans he) (by decide)⟩
  · obtain ⟨u', hu', huu⟩ := hss.fetched.exec hu
    have hview : s.viewI s.pc = s'.viewI s'.pc := hss.congr fun x => x.viewI x.pc
    have hir : u.ir = u'.ir := (ExecEffect.of_exec hu).ir.trans (hview.trans (ExecEffect.of_exec hu').ir.symm)
    rw [hview] at hu'
    rw [newCycle_of_inRange ((hss.inRange _).mpr (hpc ▸ ha)), hu']
    exact h.settle huu hir hs

/-- The service that holds a cycle goes on alike. -/
theorem resumePhases_forgetTransient {s : State} {ph : Phases} (h : s.HeldPhases ph) :
    forgetOutcome (s.resumePhases ph) = forgetOutcome (s.forgetTransient.resumePhases ph) := by
  obtain ⟨-, rfl⟩ | ⟨-, rfl⟩ := h
  · rw [getcPhases, resumePhases_trap, resumePhases_trap, endCycle_forgetTransient, endCycle_forgetTransient,
      getcService_forgetTransient, getcService_forgetTransient]
    rfl
  · rw [putsPhases, resumePhases_trap, resumePhases_trap, endCycle_forgetTransient, endCycle_forgetTransient]
    unfold State.putsService
    rw [putsLoop_forgetTransient, putsLoop_forgetTransient]
    rfl

theorem AlikeButTransient.resumeCycle {s s' t u : State} {ph : Phases} (h : AlikeButTransient s s')
    (hp : s.latch.phase = .execute) (hph : s.HeldPhases ph) (hu : s.resumePhases ph = .next u) (hs : Settles s u t) :
    ∃ t', s'.resumeCycle = .next t' ∧ AlikeButTransient t t' := by
  have hir := h.heldIr hp
  have hph' : s'.HeldPhases ph := by rwa [State.HeldPhases, ← hir]
  have hforget := (resumePhases_forgetTransient hph).trans (h.same.forget ▸ (resumePhases_forgetTransient hph').symm)
  obtain ⟨u', hu', huu⟩ := next_of_forgetOutcome_eq hforget hu
  obtain ⟨v, hv, he⟩ := resumePhases_effect hph
  obtain ⟨v', hv', he'⟩ := resumePhases_effect hph'
  obtain rfl := Host.Outcome.next.inj (hv.symm.trans hu)
  obtain rfl := Host.Outcome.next.inj (hv'.symm.trans hu')
  rw [resumeCycle_of_held hph', hu']
  exact h.settle huu (by rw [he.ir, he'.ir, hir]) hs

end Sys2Proof.Machine
end

section
/-! PROOFS. O26 settled. -/

namespace Sys2Proof.Proofs

open Machine

/-- Settles O26, along the three things that a step can do; no instruction reads a transient register that it has not
written. -/
theorem transientRegistersCarryNothing : Obligations.TransientRegistersCarryNothing := by
  unfold Obligations.TransientRegistersCarryNothing
  intro s s' h
  have hss := h.same
  refine ⟨fun t hst => ?_, fun hp => ?_⟩
  · obtain ⟨hr, rfl⟩ | ⟨hr, hp, hc⟩ | ⟨hr, hp, ph, u, hph, hu, hs⟩ := step_cases hst
    · exact ⟨s', step_of_not_running fun e => hr (hss.symm.running e), h⟩
    · rw [step_of_fetch (hss.running hr) (hss.phase.symm.trans hp)]
      exact h.newCycle hp hc
    · rw [step_of_held (hss.running hr) (hss.phase.symm.trans hp)]
      exact h.resumeCycle hp hph hu hs
  · by_cases hr : s.Running
    · rw [step_of_fetch hr hp]
      exact newCycle_isNext s
    · exact ⟨s, step_of_not_running hr⟩

end Sys2Proof.Proofs
end

section
/-! PROOFS. What a cache access leaves in the views of R69, be it a read or a write, and what a raw write leaves there:
said once for both caches. -/

namespace Sys2Proof.Machine

/-! ## Lines and views -/

theorem lineAt_of_index_eq {s : State} {a b : Word} (h : s.index b = s.index a) (c : CacheId) :
    s.lineAt c b = s.lineAt c a := by
  rw [State.lineAt, State.lineAt, h]

theorem lineAt_congr {s t : State} {a : Word} {c : CacheId} (hi : t.index a = s.index a)
    (hl : (t.lines c).line (s.index a) = (s.lines c).line (s.index a)) : t.lineAt c a = s.lineAt c a := by
  rw [State.lineAt, hi, hl]
  rfl

theorem accessKind_congr {s t : State} {a : Word} {c : CacheId} (ht : t.tag a = s.tag a)
    (hl : t.lineAt c a = s.lineAt c a) : t.accessKind c a = s.accessKind c a := by
  rw [State.accessKind, ht, hl]
  rfl

theorem view_of_hit {s : State} {c : CacheId} {a : Word} (h : s.accessKind c a = .hit) :
    s.view c a = (s.lineAt c a).word := if_pos h

theorem view_of_miss {s : State} {c : CacheId} {a : Word} (h : s.accessKind c a ≠ .hit) :
    s.view c a = s.memRead a := if_neg h

/-- Where the line that `a` selects is the same, the view of `a` can differ on a miss alone. -/
theorem view_of_sameLine {s t : State} {c : CacheId} {a : Word} (ht : t.tag a = s.tag a)
    (hl : t.lineAt c a = s.lineAt c a) :
    t.view c a = if s.accessKind c a = .hit then s.view c a else t.memRead a := by
  rw [State.view, accessKind_congr ht hl, hl]
  split
  · next h => exact (view_of_hit h).symm
  · rfl

theorem index_eq_of_lineOffset_eq {s : State} {c : CacheId} {a b : Word} (h : s.lineOffset c a = s.off b) :
    s.index b = s.index a := by
  rw [State.index, ← h, State.lineOffset, Nat.mul_add_mod', Nat.mod_eq_of_lt (index_lt s a)]

theorem tag_ne_of_index_eq {s : State} {a b : Word} (h : s.index b = s.index a) (hne : b ≠ a) : s.tag b ≠ s.tag a := by
  intro ht
  apply hne
  apply off_injective s
  rw [← tag_mul_add_index s b, ← tag_mul_add_index s a, ht, h]

/-- The line that an access at `a` evicts holds `b` exactly where `b` is another address of the same index that the
cache holds (R55, R59). -/
theorem evicts_iff (s : State) (c : CacheId) (a b : Word) :
    s.accessKind c a = .conflictMiss ∧ s.lineOffset c a = s.off b ↔
      b ≠ a ∧ s.index b = s.index a ∧ s.accessKind c b = .hit := by
  rw [accessKind_eq_conflictMiss_iff, accessKind_eq_hit_iff]
  constructor
  · rintro ⟨⟨hv, ht⟩, ho⟩
    have hi := index_eq_of_lineOffset_eq ho
    have hl := lineAt_of_index_eq hi c
    have hb : (s.lineAt c b).tag = s.tag b := by
      rw [← lineOffset_eq_off_iff, ← ho, State.lineOffset, State.lineOffset, hl, hi]
    exact ⟨fun e => ht (e ▸ hb), hi, by rwa [hl], hb⟩
  · rintro ⟨hne, hi, hv, ht⟩
    have hl := lineAt_of_index_eq hi c
    rw [hl] at hv ht
    refine ⟨⟨hv, ht ▸ tag_ne_of_index_eq hi hne⟩, ?_⟩
    rw [State.lineOffset, ht, ← hi, tag_mul_add_index]

/-! ## A cache access -/

/-- What an access at `a` through cache `c` leaves, be it a read or a write: the evicted word stands in main memory, a
line holds `a`, and every other line of both caches is as before (R56, R57). -/
structure CacheAccess (c : CacheId) (a : Word) (s t : State) : Prop where
  cfg : t.cfg = s.cfg
  loadBase : t.loadBase = s.loadBase
  memory : MemoryAfterAccess c a s t
  held : t.accessKind c a = .hit
  otherLines : ∀ i, i ≠ s.index a → (t.lines c).line i = (s.lines c).line i
  otherCache : ∀ d, d ≠ c → t.lines d = s.lines d

theorem afterRead_access (s : State) (c : CacheId) (a : Word) : CacheAccess c a s (s.afterRead c a) :=
  have e := afterRead_effect s c a
  { cfg := afterRead_cfg s c a
    loadBase := afterRead_loadBase s c a
    memory := e.memory
    held := by
      rw [accessKind_eq_hit_iff, State.lineAt, afterRead_index, afterRead_tag, e.line]
      split
      · next h => exact (accessKind_eq_hit_iff s c a).mp h
      · exact ⟨rfl, rfl⟩
    otherLines := e.otherLines
    otherCache := e.otherCache }

theorem dcWrite_lineAt (s : State) (a v : Word) :
    (s.dcWrite a v).lineAt .dc a = { valid := true, dirty := true, tag := s.tag a, word := v } := by
  rw [State.lineAt, dcWrite_index, (dcWrite_effect s a v).line]

theorem dcWrite_access (s : State) (a v : Word) : CacheAccess .dc a s (s.dcWrite a v) :=
  have e := dcWrite_effect s a v
  { cfg := dcWrite_cfg s a v
    loadBase := dcWrite_loadBase s a v
    memory := e.memory
    held := by
      rw [accessKind_eq_hit_iff, dcWrite_lineAt, dcWrite_tag]
      exact ⟨rfl, rfl⟩
    otherLines := e.otherLines
    otherCache := fun d hd => by
      cases d with
      | ic => exact e.otherCache
      | dc => exact absurd rfl hd }

section
variable {c : CacheId} {a : Word} {s t : State}

theorem CacheAccess.index (h : CacheAccess c a s t) (b : Word) : t.index b = s.index b := index_congr h.cfg h.loadBase b

theorem CacheAccess.tag (h : CacheAccess c a s t) (b : Word) : t.tag b = s.tag b := tag_congr h.cfg h.loadBase b

theorem CacheAccess.memRead (h : CacheAccess c a s t) (b : Word) :
    t.memRead b = if s.victim c a = some (s.off b) then (s.lineAt c a).word else s.memRead b := by
  rw [State.memRead, off_congr h.loadBase, h.memory]
  rfl

/-- Main memory changes at the address of a dirty line that the access evicts alone. -/
theorem CacheAccess.memRead_of_not_victim (h : CacheAccess c a s t) {b : Word} (hb : s.victim c a ≠ some (s.off b)) :
    t.memRead b = s.memRead b := (h.memRead b).trans (if_neg hb)

theorem CacheAccess.memRead_self (h : CacheAccess c a s t) : t.memRead a = s.memRead a :=
  h.memRead_of_not_victim (victim_ne_off s c a)

/-- A view through the other cache sees the access through main memory alone (R69, items 3 and 7). -/
theorem CacheAccess.view_otherCache (h : CacheAccess c a s t) {d : CacheId} (hd : d ≠ c) (b : Word) :
    t.view d b = if s.accessKind d b = .hit then s.view d b else t.memRead b :=
  view_of_sameLine (h.tag b) (lineAt_congr (h.index b) (by rw [h.otherCache d hd]))

/-- Through the other cache the accessed address itself reads as before (R69, item 3). -/
theorem CacheAccess.view_otherCache_self (h : CacheAccess c a s t) {d : CacheId} (hd : d ≠ c) :
    t.view d a = s.view d a := by
  rw [h.view_otherCache hd a, h.memRead_self]
  split
  · rfl
  · next hm => exact (view_of_miss hm).symm

/-- After the access, the line of `a` holds no other address of its index. -/
theorem CacheAccess.conflictMiss (h : CacheAccess c a s t) {b : Word} (hi : s.index b = s.index a) (hne : b ≠ a) :
    t.accessKind c b = .conflictMiss := by
  have hti : t.index b = t.index a := by rw [h.index, h.index, hi]
  obtain ⟨hv, ht⟩ := (accessKind_eq_hit_iff t c a).mp h.held
  rw [accessKind_eq_conflictMiss_iff, lineAt_of_index_eq hti, ht]
  exact ⟨hv, (tag_ne_of_index_eq hti hne).symm⟩

/-- An address that another line of the same cache serves reads as before. -/
theorem CacheAccess.view_of_index_ne (h : CacheAccess c a s t) {b : Word} (hi : s.index b ≠ s.index a) :
    t.view c b = s.view c b := by
  have hb : s.victim c a ≠ some (s.off b) := fun hv =>
    hi (index_eq_of_lineOffset_eq ((victim_eq_some_iff s c a _).mp hv).2.2)
  rw [view_of_sameLine (h.tag b) (lineAt_congr (h.index b) (h.otherLines _ hi)), h.memRead_of_not_victim hb]
  split
  · rfl
  · next hm => exact (view_of_miss hm).symm

/-- A clean line that the access evicts gives way to main memory (R69, item 2). -/
theorem CacheAccess.view_of_evictsClean (h : CacheAccess c a s t) {b : Word} (he : s.EvictsClean c a b) :
    t.view c b = s.memRead b := by
  obtain ⟨hk, hclean, ho⟩ := he
  obtain ⟨hne, hi, -⟩ := (evicts_iff s c a b).mp ⟨hk, ho⟩
  have hb : s.victim c a ≠ some (s.off b) := fun hv =>
    Bool.false_ne_true (hclean.symm.trans ((victim_eq_some_iff s c a _).mp hv).2.1)
  rw [view_of_miss (by simp [h.conflictMiss hi hne]), h.memRead_of_not_victim hb]

/-- Every other address keeps its view: a dirty line that the access evicts has reached main memory (R69, item 2). -/
theorem CacheAccess.view_of_not_evictsClean (h : CacheAccess c a s t) {b : Word} (hne : b ≠ a)
    (he : ¬ s.EvictsClean c a b) : t.view c b = s.view c b := by
  by_cases hi : s.index b = s.index a
  · rw [view_of_miss (by simp [h.conflictMiss hi hne])]
    by_cases hk : s.accessKind c b = .hit
    · obtain ⟨hc, ho⟩ := (evicts_iff s c a b).mpr ⟨hne, hi, hk⟩
      have hdirty : (s.lineAt c a).dirty = true := by
        by_contra hd
        exact he ⟨hc, Bool.eq_false_iff.mpr hd, ho⟩
      rw [h.memRead, if_pos ((victim_eq_some_iff s c a _).mpr ⟨hc, hdirty, ho⟩), view_of_hit hk, lineAt_of_index_eq hi]
    · have hb : s.victim c a ≠ some (s.off b) := fun hv => by
        obtain ⟨hc, -, ho⟩ := (victim_eq_some_iff s c a _).mp hv
        exact hk ((evicts_iff s c a b).mp ⟨hc, ho⟩).2.2
      rw [h.memRead_of_not_victim hb, view_of_miss hk]
  · exact h.view_of_index_ne hi

end

/-! ## Reads and writes -/

/-- A stored word is the data-cache view of its address (R69, item 2). -/
theorem dcWrite_viewD_self (s : State) (a v : Word) : (s.dcWrite a v).viewD a = v := by
  rw [State.viewD, view_of_hit (dcWrite_access s a v).held, dcWrite_lineAt]

/-- A read keeps the view of the address that it reads. -/
theorem afterRead_view_self (s : State) (c : CacheId) (a : Word) : (s.afterRead c a).view c a = s.view c a := by
  rw [view_of_hit (afterRead_access s c a).held]
  exact readWord_eq_view s c a

/-- A read keeps every view of its cache but that of a clean line that it evicts. -/
theorem afterRead_view {s : State} {c : CacheId} {a b : Word} (h : ¬ s.EvictsClean c a b) :
    (s.afterRead c a).view c b = s.view c b := by
  by_cases hb : b = a
  · rw [hb, afterRead_view_self]
  · exact (afterRead_access s c a).view_of_not_evictsClean hb h

/-- After a store at `a`, an access to another address of the same index writes the stored word back (R56, R57). -/
theorem dcWrite_victim (s : State) (a v : Word) {b : Word} (hi : s.index b = s.index a) (hne : b ≠ a) :
    (s.dcWrite a v).victim .dc b = some (s.off a) := by
  have hti : (s.dcWrite a v).index b = (s.dcWrite a v).index a := by rwa [dcWrite_index, dcWrite_index]
  refine (victim_eq_some_iff _ _ _ _).mpr ⟨(dcWrite_access s a v).conflictMiss hi hne, ?_, ?_⟩
  · rw [lineAt_of_index_eq hti, dcWrite_lineAt]
  · rw [State.lineOffset, lineAt_of_index_eq hti, dcWrite_lineAt, dcWrite_index, hi, dcWrite_cfg, tag_mul_add_index]

/-- Once a conflicting access has evicted the line of a store, main memory holds the stored word (R69). -/
theorem CacheAccess.memRead_after_dcWrite {s t : State} {a v b : Word} (h : CacheAccess .dc b (s.dcWrite a v) t)
    (hi : s.index b = s.index a) (hne : b ≠ a) : t.memRead a = v := by
  have hti : (s.dcWrite a v).index b = (s.dcWrite a v).index a := by rwa [dcWrite_index, dcWrite_index]
  rw [h.memRead, dcWrite_off, if_pos (dcWrite_victim s a v hi hne), lineAt_of_index_eq hti, dcWrite_lineAt]

/-! ## The raw path -/

@[simp] theorem memRead_memWrite_self (s : State) (a v : Word) : (s.memWrite a v).memRead a = v :=
  Memory.read_write_self s.mem (s.off a) v

theorem memRead_memWrite_of_ne (s : State) {a b : Word} (v : Word) (h : b ≠ a) :
    (s.memWrite a v).memRead b = s.memRead b :=
  Memory.read_write_of_ne s.mem v fun e => h (off_injective s e)

/-- A raw write is seen through a cache on a miss alone (R69, item 4). -/
theorem view_memWrite (s : State) (a v : Word) (c : CacheId) (b : Word) :
    (s.memWrite a v).view c b = if s.accessKind c b = .hit then s.view c b else (s.memWrite a v).memRead b :=
  view_of_sameLine rfl (by cases c <;> rfl)

theorem view_memWrite_of_ne (s : State) {a b : Word} (v : Word) (c : CacheId) (h : b ≠ a) :
    (s.memWrite a v).view c b = s.view c b := by
  rw [view_memWrite, memRead_memWrite_of_ne s v h]
  split
  · rfl
  · next hm => exact (view_of_miss hm).symm

end Sys2Proof.Machine
end

section
/-! PROOFS. O38, O39 and O40 settled. -/

namespace Sys2Proof.Proofs

open Machine

/-- Settles O38: the views of the accessed cache after a write and after a read. -/
theorem dataCacheViewsFollowAccesses : Obligations.DataCacheViewsFollowAccesses := by
  unfold Obligations.DataCacheViewsFollowAccesses
  intro s a v b
  have hw := dcWrite_access s a v
  exact ⟨dcWrite_viewD_self s a v, fun hne => ⟨hw.view_of_evictsClean, hw.view_of_not_evictsClean hne⟩,
    (afterRead_access s .dc a).view_of_evictsClean, afterRead_view⟩

/-- Settles O39: each path sees an access of another one through main memory alone. -/
theorem theThreePathsAreSeparate : Obligations.TheThreePathsAreSeparate := by
  unfold Obligations.TheThreePathsAreSeparate
  intro s a v b
  have hw := dcWrite_access s a v
  have hf := afterRead_access s .ic a
  have hraw (c : CacheId) : (s.memWrite a v).view c a = if s.accessKind c a = .hit then s.view c a else v := by
    rw [view_memWrite, memRead_memWrite_self]
  exact ⟨hw.view_otherCache_self (by decide), hw.memRead_self, hw.memRead b, hw.view_otherCache (by decide) b,
    memRead_memWrite_self s a v, memRead_memWrite_of_ne s v, hraw, view_memWrite_of_ne s v,
    hf.view_of_evictsClean, afterRead_view, hf.memRead b, hf.view_otherCache (by decide) b⟩

/-- Settles O40: the line of a store is dirty and holds its address, so a conflicting access writes it back. -/
theorem storedWordsAreReadBackAndWrittenBack : Obligations.StoredWordsAreReadBackAndWrittenBack := by
  unfold Obligations.StoredWordsAreReadBackAndWrittenBack
  intro s a v b w
  have hread : (s.dcWrite a v).readWord .dc a = v := (readWord_eq_view _ _ _).trans (dcWrite_viewD_self s a v)
  exact ⟨hread, (dcWrite_access s a v).held, fun hi hne =>
    ⟨(afterRead_access _ _ b).memRead_after_dcWrite hi hne, (dcWrite_access _ b w).memRead_after_dcWrite hi hne⟩⟩

end Sys2Proof.Proofs
end

section
/-! PROOFS. The parts of a cache access, one equation per way in which the access can go (R56, R57), and O36 and O37
settled with them. -/

namespace Sys2Proof.Machine

/-! ## The write-back and its event -/

theorem victim_of_not_conflictMiss {s : State} {c : CacheId} {a : Word} (h : s.accessKind c a ≠ .conflictMiss) :
    s.victim c a = none := if_neg fun e => h e.1

theorem victim_of_clean {s : State} {c : CacheId} {a : Word} (h : (s.lineAt c a).dirty = false) :
    s.victim c a = none := if_neg fun e => Bool.false_ne_true (h.symm.trans e.2)

theorem victim_of_dirty {s : State} {c : CacheId} {a : Word} (hk : s.accessKind c a = .conflictMiss)
    (hd : (s.lineAt c a).dirty = true) : s.victim c a = some (s.lineOffset c a) := if_pos ⟨hk, hd⟩

theorem writeBack_of_none {s : State} {c : CacheId} {a : Word} (h : s.victim c a = none) : s.writeBack c a = s := by
  rw [State.writeBack, h]

theorem writeBack_of_some {s : State} {c : CacheId} {a : Word} {o : Nat} (h : s.victim c a = some o) :
    s.writeBack c a =
      ({ s with mem := s.mem.write o (s.lineAt c a).word } : State).setLineAt c a
        { s.lineAt c a with dirty := false } := by
  rw [State.writeBack, h]

theorem accessEvent_eq {s : State} {c : CacheId} {a : Word} {k : AccessKind} {v : Option Nat} (op : AccessOp)
    (hk : s.accessKind c a = k) (hv : s.victim c a = v) :
    s.accessEvent c op a = ⟨c, op, a, k, v.map s.absolute⟩ := by
  rw [State.accessEvent, hk, hv]

/-! ## The line that the access leaves -/

/-- The line that `a` selects, filled from main memory by a read that misses (R56); `dirty` is kept. -/
def State.fillLine (s : State) (c : CacheId) (a : Word) : State :=
  s.setLineAt c a { s.lineAt c a with valid := true, tag := s.tag a, word := s.memRead a }

theorem afterRead_of_hit {s : State} {c : CacheId} {a : Word} (h : s.accessKind c a = .hit) :
    s.afterRead c a = s.emit ⟨c, .read, a, .hit, none⟩ := by
  have hv : s.victim c a = none := victim_of_not_conflictMiss (by simp [h])
  rw [State.afterRead, writeBack_of_none hv, accessEvent_eq .read h hv]
  exact if_pos h

theorem afterRead_of_miss {s : State} {c : CacheId} {a : Word} (h : s.accessKind c a ≠ .hit) :
    s.afterRead c a = ((s.writeBack c a).emit (s.accessEvent c .read a)).fillLine c a := by
  have ht : ((s.writeBack c a).emit (s.accessEvent c .read a)).tag a = s.tag a := tag_congr (by simp) (by simp) a
  rw [State.fillLine, ht]
  exact if_neg h

theorem fillLine_emit (s : State) (c : CacheId) (a : Word) (e : Event) :
    (s.emit e).fillLine c a = (s.emit e).setLineAt c a
      { s.lineAt c a with valid := true, tag := s.tag a, word := s.memRead a } := by
  cases c <;> rfl

theorem setLine_setLine (ls : Lines) (i : Nat) (l m : Line) : (ls.setLine i l).setLine i m = ls.setLine i m :=
  sparseSet_set Line.reset ls i l m

/-- A line written twice, with an event between, is as written the second time. -/
theorem setLineAt_emit_setLineAt (s : State) (c : CacheId) (a : Word) (e : Event) (l m : Line) :
    ((s.setLineAt c a l).emit e).setLineAt c a m = (s.emit e).setLineAt c a m := by
  cases c with
  | ic => exact congrArg (fun ls => { s.emit e with ic := ls }) (setLine_setLine s.ic (s.index a) l m)
  | dc => exact congrArg (fun ls => { s.emit e with dc := ls }) (setLine_setLine s.dc (s.index a) l m)

/-! ## The controller as R56 and R57 write it -/

/-- Each way in which a read can go is one branch of the pseudocode (R56). -/
theorem afterRead_eq_asWritten (c : CacheId) (a : Word) (s : State) :
    s.afterRead c a = (cacheReadAsWritten c a s).1 := by
  cases hk : s.accessKind c a with
  | coldMiss =>
    have hvalid := (accessKind_eq_coldMiss_iff s c a).mp hk
    have hv : s.victim c a = none := victim_of_not_conflictMiss (by simp [hk])
    rw [afterRead_of_miss (by simp [hk]), writeBack_of_none hv, accessEvent_eq .read hk hv, fillLine_emit]
    exact (if_pos hvalid).symm
  | hit =>
    obtain ⟨hvalid, htag⟩ := (accessKind_eq_hit_iff s c a).mp hk
    rw [afterRead_of_hit hk]
    exact ((if_neg (ne_false_of_eq_true hvalid)).trans (if_pos htag)).symm
  | conflictMiss =>
    obtain ⟨hvalid, htag⟩ := (accessKind_eq_conflictMiss_iff s c a).mp hk
    have hbranch : (cacheReadAsWritten c a s).1 = _ := (if_neg (ne_false_of_eq_true hvalid)).trans (if_neg htag)
    rw [hbranch, afterRead_of_miss (by simp [hk])]
    cases hd : (s.lineAt c a).dirty with
    | false =>
      have hv := victim_of_clean hd
      rw [writeBack_of_none hv, accessEvent_eq .read hk hv, fillLine_emit]
      exact (if_neg (ne_true_of_eq_false hd)).symm
    | true =>
      have hv := victim_of_dirty hk hd
      rw [writeBack_of_some hv, accessEvent_eq .read hk hv, fillLine_emit, lineAt_setLineAt_self]
      refine Eq.trans ?_ (if_pos hd).symm
      cases c <;> rfl

/-- Each way in which a write can go is one branch of the pseudocode (R57), which does not write the evicted line
before it puts the new one. -/
theorem dcWrite_eq_asWritten (a v : Word) (s : State) : s.dcWrite a v = dcWriteAsWritten a v s := by
  rw [State.dcWrite]
  cases hk : s.accessKind .dc a with
  | coldMiss =>
    have hvalid := (accessKind_eq_coldMiss_iff s .dc a).mp hk
    have hv : s.victim .dc a = none := victim_of_not_conflictMiss (by simp [hk])
    rw [writeBack_of_none hv, accessEvent_eq .write hk hv]
    exact (if_pos hvalid).symm
  | hit =>
    obtain ⟨hvalid, htag⟩ := (accessKind_eq_hit_iff s .dc a).mp hk
    have hv : s.victim .dc a = none := victim_of_not_conflictMiss (by simp [hk])
    rw [writeBack_of_none hv, accessEvent_eq .write hk hv]
    exact ((if_neg (ne_false_of_eq_true hvalid)).trans (if_pos htag)).symm
  | conflictMiss =>
    obtain ⟨hvalid, htag⟩ := (accessKind_eq_conflictMiss_iff s .dc a).mp hk
    have hbranch : dcWriteAsWritten a v s = _ := (if_neg (ne_false_of_eq_true hvalid)).trans (if_neg htag)
    rw [hbranch]
    cases hd : (s.lineAt .dc a).dirty with
    | false =>
      have hv := victim_of_clean hd
      rw [writeBack_of_none hv, accessEvent_eq .write hk hv]
      exact (if_neg (ne_true_of_eq_false hd)).symm
    | true =>
      have hv := victim_of_dirty hk hd
      rw [writeBack_of_some hv, accessEvent_eq .write hk hv, setLineAt_emit_setLineAt]
      exact (if_pos hd).symm

end Sys2Proof.Machine

namespace Sys2Proof.Proofs

open Machine

/-- Settles O36: the states are equal by `afterRead_eq_asWritten`, and both words are that of the line in them. -/
theorem cacheReadIsThePseudocode : Obligations.CacheReadIsThePseudocode := by
  unfold Obligations.CacheReadIsThePseudocode
  intro c a s
  have hstate := afterRead_eq_asWritten c a s
  have hword : s.readWord c a = (cacheReadAsWritten c a s).2 := by
    rw [State.readWord, State.lineAt, afterRead_index, hstate]
    rfl
  exact Prod.ext hstate hword

/-- Settles O37, by `dcWrite_eq_asWritten`. -/
theorem cacheWriteIsThePseudocode : Obligations.CacheWriteIsThePseudocode := dcWrite_eq_asWritten

end Sys2Proof.Proofs
end

section
/-! PROOFS. The instruction cache in the phases after DECODE (R58, R72): no operation of theirs writes it, so no phase
and no instruction does. -/

namespace Sys2Proof.Machine

/-- What a phase does leaves the instruction cache as it is, however the phase ends. -/
def KeepsIc (body : State → Flow) : Prop := ∀ s, (body s).state.ic = s.ic

/-- Every phase leaves the instruction cache as it is; a phase without an action does so by itself. -/
structure Phases.KeepIc (ph : Phases) : Prop where
  evalAddr : KeepsIc ph.evalAddr := by exact fun _ => rfl
  fetchOperands : KeepsIc ph.fetchOperands := by exact fun _ => rfl
  execute : KeepsIc ph.execute := by exact fun _ => rfl
  store : KeepsIc ph.store := by exact fun _ => rfl

/-! ## Checks, reads and the flow of phases -/

/-- A read through the data cache (R58). -/
theorem afterRead_dc_ic (s : State) (a : Word) : (s.afterRead .dc a).ic = s.ic :=
  (afterRead_effect s .dc a).otherCache .ic (by decide)

theorem andThen_ic {k : State → Flow} (hk : KeepsIc k) (f : Flow) : (f.andThen k).state.ic = f.state.ic := by
  cases f with
  | go s => exact hk s
  | hold s => rfl
  | outOfRange a s => rfl

theorem phase_ic {body : State → Flow} (hb : KeepsIc body) (f : Flow) (p : Phase) :
    (f.phase p body).state.ic = f.state.ic :=
  andThen_ic (fun s => hb (s.setPhase p)) f

theorem check_state (s : State) (a : Word) : (s.check a).state = s := by
  unfold State.check
  split <;> rfl

theorem checkThen_ic {k : State → Flow} (hk : KeepsIc k) (s : State) (a : Word) :
    ((s.check a).andThen k).state.ic = s.ic := by
  rw [andThen_ic hk, check_state]

theorem readThen_ic {k : Word → State → Flow} (hk : ∀ w, KeepsIc (k w)) (s : State) (a : Word) :
    (s.readThen a k).state.ic = s.ic :=
  checkThen_ic (fun s => (hk _ _).trans (afterRead_dc_ic s a)) s a

/-! ## The phases of the instructions -/

theorem evalIndirect_keepsIc (off : BitVec 9) : KeepsIc fun s => s.evalIndirect off :=
  fun s => readThen_ic (k := fun pointer s2 => .go (s2.latchEa pointer)) (fun _ _ => rfl)
    { s with mar := s.pcPlus off } (s.pcPlus off)

theorem fetchLoad_keepsIc : KeepsIc State.fetchLoad :=
  fun s => readThen_ic (k := fun w s2 => .go { s2 with mdr := w }) (fun _ _ => rfl)
    { s with mar := s.latch.ea } s.latch.ea

theorem commitStore_keepsIc : KeepsIc State.commitStore :=
  fun s => checkThen_ic (k := fun s => .go (s.dcWrite s.mar s.mdr)) (fun s => (dcWrite_effect s s.mar s.mdr).otherCache)
    s s.mar

theorem pushWord_keepsIc (sr : Reg) : KeepsIc fun s => s.pushWord sr :=
  fun s => checkThen_ic (fun _ => rfl) (s.setReg spReg (s.reg spReg - 1)) _

theorem popWord_keepsIc (dr : Reg) : KeepsIc fun s => s.popWord dr :=
  fun s => checkThen_ic (fun _ => rfl) s (s.reg spReg)

theorem branch_keepsIc (nzp : BitVec 3) (off : BitVec 9) :
    KeepsIc fun s => .go (if branchEnable s.cc nzp then { s with pc := s.pcPlus off } else s) := by
  intro s
  dsimp only
  split <;> rfl

theorem getcService_keepsIc : KeepsIc State.getcService := by
  intro s
  cases h : s.console.input with
  | nil => rw [getcService_of_nil h]; rfl
  | cons b bs => rw [getcService_of_cons h]; rfl

theorem putsService_keepsIc : KeepsIc State.putsService :=
  fun s => putsLoop_keeps (P := fun u => u.ic = s.ic) (fun u a _ h => (afterRead_dc_ic u a).trans h) (fun _ _ h => h)
    131072 (s.reg 0) rfl

theorem loadPhases_keepIc {dr : Reg} {evalAddr : State → Flow} (h : KeepsIc evalAddr) :
    (loadPhases dr evalAddr).KeepIc where
  evalAddr := h
  fetchOperands := fetchLoad_keepsIc

theorem storePhases_keepIc {sr : Reg} {evalAddr : State → Flow} (h : KeepsIc evalAddr) :
    (storePhases sr evalAddr).KeepIc where
  evalAddr := h
  store := commitStore_keepsIc

theorem phasesOf_keepIc (i : Instr) : (phasesOf i).KeepIc := by
  cases i with
  | addReg | addImm | andReg | andImm | notOp => exact { fetchOperands := fun _ => rfl }
  | br nzp off => exact { evalAddr := branch_keepsIc nzp off }
  | jmp | jsr | jsrr | lea | invalid | out | halt | trap => exact {}
  | ld | ldr => exact loadPhases_keepIc fun _ => rfl
  | ldi dr off => exact loadPhases_keepIc (evalIndirect_keepsIc off)
  | st | str => exact storePhases_keepIc fun _ => rfl
  | sti sr off => exact storePhases_keepIc (evalIndirect_keepsIc off)
  | getc => exact { execute := getcService_keepsIc }
  | puts => exact { execute := putsService_keepsIc }
  | push sr => exact { execute := pushWord_keepsIc sr }
  | pop dr => exact { execute := popWord_keepsIc dr }

/-! ## The whole instruction -/

theorem fromExecute_keepsIc {ph : Phases} (h : ph.KeepIc) : KeepsIc fun s => s.fromExecute ph := by
  intro s
  dsimp only [State.fromExecute]
  rw [phase_ic h.store, phase_ic h.execute]
  rfl

theorem fromEvalAddr_keepsIc {ph : Phases} (h : ph.KeepIc) : KeepsIc fun s => s.fromEvalAddr ph := by
  intro s
  dsimp only [State.fromEvalAddr]
  rw [andThen_ic (fromExecute_keepsIc h), phase_ic h.fetchOperands, phase_ic h.evalAddr]
  rfl

/-- The end of a cycle keeps the instruction cache that the phases have left, or goes back to the one before them. -/
theorem endCycle_ic {start t : State} {f : Flow} (hf : f.state.ic = start.ic) (h : endCycle start f = .next t) :
    t.ic = start.ic := by
  cases f with
  | go s | hold s =>
    obtain rfl := Host.Outcome.next.inj h
    exact hf
  | outOfRange a s =>
    obtain rfl := Host.Outcome.next.inj h
    rfl

end Sys2Proof.Machine

namespace Sys2Proof.Proofs

open Machine

/-- Settles O25: every phase of every instruction leaves the instruction cache as it is (`phasesOf_keepIc`). -/
theorem instructionsNeverWriteTheInstructionCache : Obligations.InstructionsNeverWriteTheInstructionCache := by
  unfold Obligations.InstructionsNeverWriteTheInstructionCache
  intro i s t h
  rw [exec_eq_runPhases_phasesOf] at h
  exact endCycle_ic (fromEvalAddr_keepsIc (phasesOf_keepIc i) s) h

end Sys2Proof.Proofs
end

section
/-! PROOFS. The layout of an instruction word: an instruction as the bit fields that its words hold. A word decodes to an
instruction exactly if it holds these fields, the encoder writes them, and the bits outside them are the ignored ones. -/

namespace Sys2Proof

/-! ## Bit fields -/

/-- `len` bits of an instruction word, from bit `lo` up, and the value they have. -/
structure BitField where
  lo : Nat
  len : Nat
  bits : BitVec len

/-- The word has the value of the field in the field's place. -/
def BitField.HeldBy (f : BitField) (w : Word) : Prop := w.extractLsb' f.lo f.len = f.bits

/-- The bits of the field's place. -/
def BitField.mask (f : BitField) : Word := (BitVec.allOnes f.len).setWidth 16 <<< f.lo

/-- The bits that the fields occupy together. -/
def maskOf (fs : List BitField) : Word := fs.foldr (fun f m => f.mask ||| m) 0

theorem getLsbD_mask (f : BitField) (b : Nat) :
    f.mask.getLsbD b = true ↔ b < 16 ∧ f.lo ≤ b ∧ b < f.lo + f.len := by
  simp only [BitField.mask, BitVec.getLsbD_shiftLeft, BitVec.getLsbD_setWidth, BitVec.getLsbD_allOnes, Bool.and_eq_true,
    Bool.not_eq_true', decide_eq_true_eq, decide_eq_false_iff_not]
  omega

theorem getLsbD_maskOf (fs : List BitField) (b : Nat) :
    (maskOf fs).getLsbD b = true ↔ ∃ f ∈ fs, b < 16 ∧ f.lo ≤ b ∧ b < f.lo + f.len := by
  induction fs with
  | nil => simp [maskOf]
  | cons f fs ih =>
    change (f.mask ||| maskOf fs).getLsbD b = true ↔ _
    rw [BitVec.getLsbD_or, Bool.or_eq_true, ih, getLsbD_mask]
    simp only [List.mem_cons, exists_eq_or_imp]

/-- Two words agree on a mask exactly if they agree on each bit that the mask sets. -/
theorem and_eq_and_iff (u w m : Word) :
    u &&& m = w &&& m ↔ ∀ b, m.getLsbD b = true → u.getLsbD b = w.getLsbD b := by
  constructor
  · intro h b hb
    simpa [hb] using congrArg (·.getLsbD b) h
  · intro h
    refine BitVec.eq_of_getLsbD_eq fun b _ => ?_
    rw [BitVec.getLsbD_and, BitVec.getLsbD_and]
    cases hb : m.getLsbD b with
    | false => simp
    | true => rw [h b hb]

/-- Two words agree on the bits of some fields exactly if each field has one value in both. -/
theorem and_maskOf_eq_iff (u w : Word) (fs : List BitField) :
    u &&& maskOf fs = w &&& maskOf fs ↔ ∀ f ∈ fs, u.extractLsb' f.lo f.len = w.extractLsb' f.lo f.len := by
  rw [and_eq_and_iff]
  constructor
  · intro h f hf
    refine BitVec.eq_of_getLsbD_eq fun i hi => ?_
    rw [BitVec.getLsbD_extractLsb', BitVec.getLsbD_extractLsb']
    by_cases hb : f.lo + i < 16
    · rw [h _ ((getLsbD_maskOf fs _).mpr ⟨f, hf, hb, by omega⟩)]
    · rw [BitVec.getLsbD_of_ge u _ (by omega), BitVec.getLsbD_of_ge w _ (by omega)]
  · intro h b hb
    obtain ⟨f, hf, -, hlo, hhi⟩ := (getLsbD_maskOf fs b).mp hb
    have hbit := congrArg (·.getLsbD (b - f.lo)) (h f hf)
    simpa [BitVec.getLsbD_extractLsb', show b - f.lo < f.len by omega, Nat.add_sub_cancel' hlo] using hbit

/-! ## The fields of R91

Each field of the decoder as a `BitField`, with the lemma that ties it to the decoder's reading of it. -/

/-- The opcode in its place. -/
def opBits (op : BitVec 4) : BitField := ⟨12, 4, op⟩

/-- A register in the place of DR and SR. -/
def drBits (r : Reg) : BitField := ⟨9, 3, regBits r⟩

/-- A register in the place of SR1 and BaseR. -/
def sr1Bits (r : Reg) : BitField := ⟨6, 3, regBits r⟩

/-- A register in the place of SR2. -/
def sr2Bits (r : Reg) : BitField := ⟨0, 3, regBits r⟩

/-- The branch condition in its place. -/
def nzpBits (v : BitVec 3) : BitField := ⟨9, 3, v⟩

/-- Bit 5 alone. -/
def bit5Bits (b : Bool) : BitField := ⟨5, 1, BitVec.ofBool b⟩

/-- Bit 11 alone. -/
def bit11Bits (b : Bool) : BitField := ⟨11, 1, BitVec.ofBool b⟩

/-- An immediate, an offset or a vector, which stand in the lowest bits. -/
def lowBits {n : Nat} (v : BitVec n) : BitField := ⟨0, n, v⟩

theorem regOf_eq_iff (v : BitVec 3) (r : Reg) : v = regBits r ↔ regOf v = r :=
  ⟨fun h => congrArg regOf h, fun h => congrArg regBits h⟩

theorem extractLsb'_one_eq_iff (w : Word) (k : Nat) (b : Bool) :
    w.extractLsb' k 1 = BitVec.ofBool b ↔ w.getLsbD k = b := by
  have hbit : w.extractLsb' k 1 = BitVec.ofBool (w.getLsbD k) := by
    ext i hi
    obtain rfl : i = 0 := by omega
    simp
  rw [hbit, BitVec.ofBool_eq_iff_eq]

@[simp] theorem opBits_heldBy (op : BitVec 4) (w : Word) : (opBits op).HeldBy w ↔ opField w = op := Iff.rfl

@[simp] theorem drBits_heldBy (r : Reg) (w : Word) : (drBits r).HeldBy w ↔ drField w = r := regOf_eq_iff _ r

@[simp] theorem sr1Bits_heldBy (r : Reg) (w : Word) : (sr1Bits r).HeldBy w ↔ sr1Field w = r := regOf_eq_iff _ r

@[simp] theorem sr2Bits_heldBy (r : Reg) (w : Word) : (sr2Bits r).HeldBy w ↔ sr2Field w = r := regOf_eq_iff _ r

@[simp] theorem nzpBits_heldBy (v : BitVec 3) (w : Word) : (nzpBits v).HeldBy w ↔ nzpField w = v := Iff.rfl

@[simp] theorem bit5Bits_heldBy (b : Bool) (w : Word) : (bit5Bits b).HeldBy w ↔ bit5 w = b :=
  extractLsb'_one_eq_iff w 5 b

@[simp] theorem bit11Bits_heldBy (b : Bool) (w : Word) : (bit11Bits b).HeldBy w ↔ bit11 w = b :=
  extractLsb'_one_eq_iff w 11 b

@[simp] theorem lowBits_imm5_heldBy (v : BitVec 5) (w : Word) : (lowBits v).HeldBy w ↔ imm5Field w = v := Iff.rfl

@[simp] theorem lowBits_offset6_heldBy (v : BitVec 6) (w : Word) : (lowBits v).HeldBy w ↔ offset6Field w = v := Iff.rfl

@[simp] theorem lowBits_trapvect8_heldBy (v : BitVec 8) (w : Word) : (lowBits v).HeldBy w ↔ trapvect8Field w = v :=
  Iff.rfl

@[simp] theorem lowBits_pcOffset9_heldBy (v : BitVec 9) (w : Word) : (lowBits v).HeldBy w ↔ pcOffset9Field w = v :=
  Iff.rfl

@[simp] theorem lowBits_pcOffset11_heldBy (v : BitVec 11) (w : Word) : (lowBits v).HeldBy w ↔ pcOffset11Field w = v :=
  Iff.rfl

/-! ## The fields of an instruction -/

/-- What chooses among the rows of one opcode: the form bit, or the vector of a service (R95, R99). -/
@[simp] def Instr.formFields (i : Instr) : List BitField :=
  match i with
  | .addReg .. | .andReg .. | .push .. => [bit5Bits false]
  | .addImm .. | .andImm .. | .pop .. => [bit5Bits true]
  | .jsrr .. => [bit11Bits false]
  | .jsr .. => [bit11Bits true]
  | .getc => [lowBits 0x20#8]
  | .out => [lowBits 0x21#8]
  | .puts => [lowBits 0x22#8]
  | .halt => [lowBits 0x25#8]
  | .notOp .. | .br .. | .jmp .. | .trap .. | .invalid => []
  | .ld .. | .ldi .. | .ldr .. | .lea .. | .st .. | .sti .. | .str .. => []

/-- The fields that a row of the opcode table fixes. -/
def Instr.rowFields (i : Instr) : List BitField := opBits i.opcode :: i.formFields

/-- The fields that hold the operands (R91, R92). -/
@[simp] def Instr.operandFields (i : Instr) : List BitField :=
  match i with
  | .addReg dr sr1 sr2 | .andReg dr sr1 sr2 => [drBits dr, sr1Bits sr1, sr2Bits sr2]
  | .addImm dr sr1 imm5 | .andImm dr sr1 imm5 => [drBits dr, sr1Bits sr1, lowBits imm5]
  | .notOp dr sr => [drBits dr, sr1Bits sr]
  | .br nzp off => [nzpBits nzp, lowBits off]
  | .jmp baseR | .jsrr baseR => [sr1Bits baseR]
  | .jsr off => [lowBits off]
  | .ld r off | .ldi r off | .lea r off | .st r off | .sti r off => [drBits r, lowBits off]
  | .ldr r baseR off | .str r baseR off => [drBits r, sr1Bits baseR, lowBits off]
  | .trap v => [lowBits v]
  | .push r | .pop r => [drBits r]
  | .getc | .out | .puts | .halt | .invalid => []

/-- Every field that the decoder reads of a word of the instruction. -/
def Instr.fields (i : Instr) : List BitField := i.rowFields ++ i.operandFields

/-- The word holds every field of the instruction; its other bits are free. -/
def Instr.HeldBy (i : Instr) (w : Word) : Prop := ∀ f ∈ i.fields, f.HeldBy w

/-- Holding an instruction, in the order of the decoder: the opcode, then the form, then the operands. -/
theorem heldBy_iff (i : Instr) (w : Word) :
    i.HeldBy w ↔ opField w = i.opcode ∧ (∀ f ∈ i.formFields, f.HeldBy w) ∧ ∀ f ∈ i.operandFields, f.HeldBy w := by
  rw [Instr.HeldBy, Instr.fields, List.forall_mem_append, Instr.rowFields, List.forall_mem_cons, opBits_heldBy, and_assoc]

/-! ## Encoding and decoding a layout -/

/-- The encoder writes every field of the instruction: each lies within one of the parts that the encoding of R92 puts
side by side. -/
theorem encode_heldBy (i : Instr) : i.HeldBy (encode i) := by
  rw [heldBy_iff]
  cases i <;> (
    simp only [Instr.formFields, Instr.operandFields, Instr.opcode, List.forall_mem_cons, BitField.HeldBy, drBits, sr1Bits,
      sr2Bits, nzpBits, bit5Bits, bit11Bits, lowBits, encode, opField]
    simp (disch := decide) only [BitVec.extractLsb'_append_eq_of_le, BitVec.extractLsb'_append_eq_of_add_le]
    simp)

theorem decodeTrap_of_not_isService {v : BitVec 8} (h : ¬ IsService v) : decodeTrap v = .trap v := by
  obtain ⟨h20, h21, h22, h25⟩ : v ≠ 0x20#8 ∧ v ≠ 0x21#8 ∧ v ≠ 0x22#8 ∧ v ≠ 0x25#8 := by simpa using h
  rw [decodeTrap, if_neg h20, if_neg h21, if_neg h22, if_neg h25]

theorem trap_wellFormed_iff (v : BitVec 8) : (Instr.trap v).WellFormed ↔ ¬ IsService v := by
  change (!decide (IsService v)) = true ↔ _
  rw [Bool.not_eq_true', decide_eq_false_iff_not]

theorem trapvect8Field_of_heldBy {v : BitVec 8} {w : Word} (h : (Instr.trap v).HeldBy w) : trapvect8Field w = v := by
  obtain ⟨-, -, hv⟩ := (heldBy_iff _ w).mp h
  simpa using hv

/-- A word that holds the fields of an instruction decodes to it, whatever its other bits are. -/
theorem decode_eq_of_heldBy {i : Instr} {w : Word} (hi : i.WellFormed) (h : i.HeldBy w) : decode w = i := by
  obtain ⟨hop, hform, hoperands⟩ := (heldBy_iff i w).mp h
  unfold decode
  rw [hop]
  cases i with
  | trap v =>
    -- the one row of its opcode that no field chooses: its vector is none of the services
    obtain rfl := trapvect8Field_of_heldBy h
    exact decodeTrap_of_not_isService ((trap_wellFormed_iff _).mp hi)
  | getc | out | puts | halt => simp_all [Instr.opcode, decodeTrap]
  | _ => simp_all [Instr.opcode]

/-- The opcodes that the decoder does not name are the one of R97. -/
theorem eq_0x8_of_not_named : ∀ {op : BitVec 4}, op ≠ 0x0#4 → op ≠ 0x1#4 → op ≠ 0x2#4 → op ≠ 0x3#4 → op ≠ 0x4#4 →
    op ≠ 0x5#4 → op ≠ 0x6#4 → op ≠ 0x7#4 → op ≠ 0x9#4 → op ≠ 0xA#4 → op ≠ 0xB#4 → op ≠ 0xC#4 → op ≠ 0xD#4 →
    op ≠ 0xE#4 → op ≠ 0xF#4 → op = 0x8#4 := by
  intros
  bv_omega

/-- A word holds the fields of the instruction that it decodes to. -/
theorem decode_heldBy (w : Word) : (decode w).HeldBy w := by
  rw [heldBy_iff]
  unfold decode
  split
  -- ADD, AND, PUSH and POP
  case h_2 | h_6 | h_13 => cases h : bit5 w <;> simp [*, Instr.opcode]
  -- JSR and JSRR
  case h_5 => cases h : bit11 w <;> simp [*, Instr.opcode]
  -- TRAP
  case h_15 =>
    unfold decodeTrap
    split_ifs <;> simp [*, Instr.opcode]
  -- the invalid opcode
  case h_16 =>
    have hop : opField w = 0x8#4 := by apply eq_0x8_of_not_named <;> assumption
    simp [Instr.opcode, hop]
  all_goals simp [*, Instr.opcode]

theorem decodeTrap_wellFormed (v : BitVec 8) : (decodeTrap v).WellFormed := by
  unfold decodeTrap
  split_ifs with h20 h21 h22 h25
  case neg => simp [trap_wellFormed_iff, *]
  all_goals rfl

theorem decode_wellFormed (w : Word) : (decode w).WellFormed := by
  unfold decode
  split
  case h_2 | h_6 | h_13 => cases bit5 w <;> rfl
  case h_5 => cases bit11 w <;> rfl
  case h_15 => exact decodeTrap_wellFormed _
  all_goals rfl

/-! ## The ignored bits -/

@[simp] theorem opBits_mask (op : BitVec 4) : (opBits op).mask = 0xF000#16 := by
  simp [BitField.mask, opBits]

@[simp] theorem drBits_mask (r : Reg) : (drBits r).mask = 0x0E00#16 := by
  simp [BitField.mask, drBits]

@[simp] theorem nzpBits_mask (v : BitVec 3) : (nzpBits v).mask = 0x0E00#16 := by
  simp [BitField.mask, nzpBits]

@[simp] theorem sr1Bits_mask (r : Reg) : (sr1Bits r).mask = 0x01C0#16 := by
  simp [BitField.mask, sr1Bits]

@[simp] theorem sr2Bits_mask (r : Reg) : (sr2Bits r).mask = 0x0007#16 := by
  simp [BitField.mask, sr2Bits]

@[simp] theorem bit5Bits_mask (b : Bool) : (bit5Bits b).mask = 0x0020#16 := by
  simp [BitField.mask, bit5Bits]

@[simp] theorem bit11Bits_mask (b : Bool) : (bit11Bits b).mask = 0x0800#16 := by
  simp [BitField.mask, bit11Bits]

@[simp] theorem lowBits_mask {n : Nat} (v : BitVec n) : (lowBits v).mask = (BitVec.allOnes n).setWidth 16 :=
  BitVec.shiftLeft_zero _

/-- A row's mask is made of the fields that choose the row. -/
theorem maskOf_rowFields (i : Instr) : maskOf i.rowFields = i.row.mask := by
  cases i <;> simp [maskOf, Instr.rowFields, Instr.row]

/-- The ignored bits are those outside the fields (R98). -/
theorem maskOf_fields (i : Instr) : maskOf i.fields = ~~~i.ignoredBits := by
  rw [← BitVec.not_eq_comm]
  cases i <;> simp [maskOf, Instr.fields, Instr.rowFields, Instr.ignoredBits]

/-- Words that agree on the bits that are not ignored decode alike. -/
theorem decode_eq_of_and_not_ignoredBits_eq {u w : Word}
    (h : u &&& ~~~(decode w).ignoredBits = w &&& ~~~(decode w).ignoredBits) : decode u = decode w := by
  rw [← maskOf_fields, and_maskOf_eq_iff] at h
  exact decode_eq_of_heldBy (decode_wellFormed w) fun f hf => (h f hf).trans (decode_heldBy w f hf)

/-- Words that hold the fields of one instruction agree on the bits that it does not ignore. -/
theorem and_not_ignoredBits_eq_of_heldBy {i : Instr} {u w : Word} (hu : i.HeldBy u) (hw : i.HeldBy w) :
    u &&& ~~~i.ignoredBits = w &&& ~~~i.ignoredBits := by
  rw [← maskOf_fields, and_maskOf_eq_iff]
  exact fun f hf => (hu f hf).trans (hw f hf).symm

/-- A change within a mask is not seen outside it. -/
theorem xor_and_and_not (w x m : Word) : (w ^^^ (x &&& m)) &&& ~~~m = w &&& ~~~m := by
  ext b hb
  cases hm : m[b] <;> simp [hm]

/-! ## The opcode table -/

/-- The pattern of a row is itself a word that holds the row's fields. -/
theorem pattern_heldBy (i : Instr) : ∀ f ∈ i.rowFields, f.HeldBy i.row.pattern := by
  cases i <;> simp [Instr.rowFields, Instr.opcode, Instr.row] <;> decide

theorem pattern_and_mask (i : Instr) : i.row.pattern &&& i.row.mask = i.row.pattern := by
  cases i <;> (dsimp only [Instr.row]; rfl)

/-- The mask and pattern of a row test the fields that choose it. -/
theorem and_mask_eq_pattern_iff (i : Instr) (w : Word) :
    w &&& i.row.mask = i.row.pattern ↔ ∀ f ∈ i.rowFields, f.HeldBy w := by
  rw [← pattern_and_mask i, ← maskOf_rowFields, and_maskOf_eq_iff]
  exact forall₂_congr fun f hf => by rw [pattern_heldBy i f hf, BitField.HeldBy]

theorem matchesWord_row_iff (i : Instr) (w : Word) :
    i.row.matchesWord w = true ↔ (opField w = i.opcode ∧ ∀ f ∈ i.formFields, f.HeldBy w) ∧
      ¬ (i.row.excludesServices = true ∧ IsService (trapvect8Field w)) := by
  rw [TableRow.matchesWord, Bool.and_eq_true, beq_iff_eq, and_mask_eq_pattern_iff, Instr.rowFields, List.forall_mem_cons,
    opBits_heldBy]
  refine and_congr_right fun _ => ?_
  rw [Bool.not_eq_true', ← Bool.not_eq_true, Bool.and_eq_true, decide_eq_true_iff]

/-- A word that holds the fields of an instruction is in its row. -/
theorem row_matchesWord_of_heldBy {i : Instr} {w : Word} (hi : i.WellFormed) (h : i.HeldBy w) :
    i.row.matchesWord w = true := by
  obtain ⟨hop, hform, -⟩ := (heldBy_iff i w).mp h
  refine (matchesWord_row_iff i w).mpr ⟨⟨hop, hform⟩, ?_⟩
  cases i with
  | trap v =>
    obtain rfl := trapvect8Field_of_heldBy h
    exact fun e => (trap_wellFormed_iff _).mp hi e.2
  | _ => simp [Instr.row]

/-- A word in the row of some instruction decodes to an instruction of that row. -/
theorem decode_row_of_matchesWord {i : Instr} {w : Word} (h : i.row.matchesWord w = true) : (decode w).row = i.row := by
  obtain ⟨⟨hop, hform⟩, hservice⟩ := (matchesWord_row_iff i w).mp h
  unfold decode
  rw [hop]
  cases i with
  | trap v =>
    change (decodeTrap (trapvect8Field w)).row = _
    rw [decodeTrap_of_not_isService fun hv => hservice ⟨rfl, hv⟩]
    rfl
  | _ => simp_all [Instr.opcode, decodeTrap, Instr.row]

/-- The rows part the words as the decoder does. -/
theorem matchesWord_iff_decode_row (i : Instr) (w : Word) : i.row.matchesWord w = true ↔ (decode w).row = i.row :=
  ⟨decode_row_of_matchesWord, fun h => h ▸ row_matchesWord_of_heldBy (decode_wellFormed w) (decode_heldBy w)⟩

theorem row_mem_opcodeTable (i : Instr) : i.row ∈ opcodeTable := by
  cases i <;> simp [opcodeTable, Instr.row]

theorem exists_row_of_mem_opcodeTable : ∀ r ∈ opcodeTable, ∃ i : Instr, i.row = r := by
  simp [opcodeTable]

theorem opcodeTable_nodup : opcodeTable.Nodup := by decide

/-- The rows of the table differ, and of them a word matches the one of its decoded instruction alone. -/
theorem filter_matchesWord (w : Word) : (opcodeTable.filter fun r => r.matchesWord w) = [(decode w).row] := by
  have hrow : ∀ r ∈ opcodeTable, r.matchesWord w = (r == (decode w).row) := by
    intro r hr
    obtain ⟨i, rfl⟩ := exists_row_of_mem_opcodeTable r hr
    rw [Bool.eq_iff_iff, matchesWord_iff_decode_row, beq_iff_eq, eq_comm]
  rw [List.filter_congr hrow, List.filter_beq, List.count_eq_one_of_mem opcodeTable_nodup (row_mem_opcodeTable _)]
  rfl

end Sys2Proof
end

section
/-! PROOFS. The statements settled: O2, O4, O1, O3 and O5. -/

namespace Sys2Proof.Proofs

/-- Settles O2: the encoder writes the fields of the instruction, and a word that holds them decodes to it. -/
theorem decodeOfEncodeIsIdentity : Obligations.DecodeOfEncodeIsIdentity := by
  unfold Obligations.DecodeOfEncodeIsIdentity
  exact fun i hi => decode_eq_of_heldBy hi (encode_heldBy i)

/-- Settles O4: the changed word agrees with the first one on every bit that is not ignored. -/
theorem ignoredBitsDoNotMatter : Obligations.IgnoredBitsDoNotMatter := by
  unfold Obligations.IgnoredBitsDoNotMatter
  exact fun w x => decode_eq_of_and_not_ignoredBits_eq (xor_and_and_not w x _)

/-- Settles O1, by running the decoder on the ten words. -/
theorem sampleWordsDecode : Obligations.SampleWordsDecode := by
  unfold Obligations.SampleWordsDecode
  decide

/-- Settles O3: of the rows of the table, which differ, a word matches the one of its decoded instruction alone. -/
theorem everyWordIsExactlyOneRow : Obligations.EveryWordIsExactlyOneRow := by
  unfold Obligations.EveryWordIsExactlyOneRow
  exact fun w => ⟨filter_matchesWord w, decode_wellFormed w⟩

/-- Settles O5: the word and the encoding of its instruction both hold the fields of that instruction. -/
theorem encodeOfDecodeKeepsUsedBits : Obligations.EncodeOfDecodeKeepsUsedBits := by
  unfold Obligations.EncodeOfDecodeKeepsUsedBits
  exact fun w => and_not_ignoredBits_eq_of_heldBy (encode_heldBy _) (decode_heldBy w)

end Sys2Proof.Proofs
end

section
/-! PROOFS. The parts of the instruction cycle that the host sees from outside: the reports of the status fields (R121),
the fetch of a state of the invariant (R122), the word with opcode 0x8 (R97, R130) and the word placed at the fetch. -/

namespace Sys2Proof

/-- Opcode 0x8 alone makes a word invalid (R97). -/
theorem decode_of_opcode_0x8 {w : Word} (h : opField w = 0x8#4) : decode w = .invalid :=
  decode_eq_of_heldBy rfl ((heldBy_iff .invalid w).mpr ⟨h, by simp, by simp⟩)

theorem opField_append (op : BitVec 4) (x : BitVec 12) : opField (op ++ x) = op := by
  rw [opField, BitVec.extractLsb'_append_eq_of_le (by decide)]
  simp

namespace Machine

/-! ## The reports of the status tests (R121) -/

theorem report_of_not_loaded {s : State} (h : s.loaded = false) : s.report = some .noProgramLoaded := if_pos h

theorem report_of_fault {s : State} {f : FaultRecord} (hl : s.loaded = true) (hf : s.fault = some f) :
    s.report = some (.fault f) := by
  rw [State.report, if_neg (by simp [hl]), hf]

theorem report_of_halted {s : State} (hl : s.loaded = true) (hf : s.fault = none) (hh : s.halted = true) :
    s.report = some .halted := by
  rw [State.report, if_neg (by simp [hl]), hf]
  exact if_pos hh

/-- A state that is not running answers `step` with its own report and stays as it is (R121). -/
theorem hostStep_of_not_running {s : State} {o : StepOutcome} (h : ¬ s.Running) (hr : s.report = some o) :
    s.hostStep = some (s, o) :=
  hostStep_of_step (step_of_not_running h) hr

/-! ## The fetch -/

theorem fetched_regs (s : State) : s.fetched.regs = s.regs := by simp [State.fetched]

/-- A read that selects a clean line writes nothing back. -/
theorem afterRead_mem_of_clean {s : State} {c : CacheId} {a : Word} (h : (s.lineAt c a).dirty = false) :
    (s.afterRead c a).mem = s.mem := by
  unfold State.afterRead
  rw [writeBack_of_none (victim_of_clean h)]
  dsimp only
  split
  · rfl
  · exact setLineAt_mem _ c a _

/-- No instruction-cache line is dirty, so the fetch leaves main memory as it is (R58, R122). -/
theorem State.StorageOk.fetched_mem {s : State} (h : s.StorageOk) : s.fetched.mem = s.mem :=
  afterRead_mem_of_clean (s := { s with mar := s.pc, pc := s.pc + 1 }) (h.ic_lineAt_clean s.pc)

/-! ## The word with opcode 0x8 -/

/-- The step of a ready state that fetches opcode 0x8 is FETCH and DECODE, and the next cycle begins (R130). -/
theorem step_of_invalid {s : State} (h : s.Ready) (hw : opField (s.viewI s.pc) = 0x8#4) :
    step s = .next (s.fetched.latchDecode.setPhase .fetch) := by
  have hf : (s.fetched.latchDecode.setPhase .done).fault = none := (fetched_fault s).trans h.noFault
  rw [step_of_ready h, decode_of_opcode_0x8 hw, exec_invalid, settle_of_noFault hf, endOfCycle_setPhase_done]

/-- FETCH and DECODE of a ready state keep it running. -/
theorem State.Ready.fetched_running {s : State} (h : s.Ready) (p : Phase) :
    (s.fetched.latchDecode.setPhase p).Running where
  loaded := (fetched_advances h.pcInRange).loaded.trans h.loaded
  noFault := (fetched_fault s).trans h.noFault
  notHalted := (fetched_halted s).trans h.notHalted

/-! ## The word placed at the fetch -/

/-- Replacing the word of the line that an address hits makes it the view of that address. -/
theorem view_setLineAt_word {s : State} {c : CacheId} {a : Word} (w : Word) (h : s.accessKind c a = .hit) :
    (s.setLineAt c a { s.lineAt c a with word := w }).view c a = w := by
  obtain ⟨hv, ht⟩ := (accessKind_eq_hit_iff s c a).mp h
  have hl := lineAt_setLineAt_self s c a { s.lineAt c a with word := w }
  have htag : (s.setLineAt c a { s.lineAt c a with word := w }).tag a = s.tag a :=
    tag_congr (setLineAt_cfg ..) (setLineAt_loadBase ..) a
  have hhit : (s.setLineAt c a { s.lineAt c a with word := w }).accessKind c a = .hit := by
    rw [accessKind_eq_hit_iff, hl, htag]
    exact ⟨hv, ht⟩
  rw [view_of_hit hhit, hl]

theorem placeWord_of_hit {s : State} {w : Word} (h : (s.memWrite s.pc w).accessKind .ic s.pc = .hit) :
    s.placeWord w = (s.memWrite s.pc w).setLineAt .ic s.pc { (s.memWrite s.pc w).lineAt .ic s.pc with word := w } :=
  if_pos h

theorem placeWord_of_miss {s : State} {w : Word} (h : (s.memWrite s.pc w).accessKind .ic s.pc ≠ .hit) :
    s.placeWord w = s.memWrite s.pc w := if_neg h

/-- Placing a word changes main memory and the instruction cache alone. -/
theorem placeWord_frame (s : State) (w : Word) :
    s.placeWord w = { s with mem := (s.placeWord w).mem, ic := (s.placeWord w).ic } := by
  by_cases h : (s.memWrite s.pc w).accessKind .ic s.pc = .hit
  · rw [placeWord_of_hit h]
    rfl
  · rw [placeWord_of_miss h]
    rfl

theorem placeWord_pc (s : State) (w : Word) : (s.placeWord w).pc = s.pc := by rw [placeWord_frame]

theorem placeWord_regs (s : State) (w : Word) : (s.placeWord w).regs = s.regs := by rw [placeWord_frame]

theorem placeWord_cc (s : State) (w : Word) : (s.placeWord w).cc = s.cc := by rw [placeWord_frame]

/-- The fetch finds the placed word, in the line where it hits and in main memory where it misses (R69). -/
theorem placeWord_viewI (s : State) (w : Word) : (s.placeWord w).viewI s.pc = w := by
  by_cases h : (s.memWrite s.pc w).accessKind .ic s.pc = .hit
  · rw [placeWord_of_hit h]
    exact view_setLineAt_word w h
  · rw [placeWord_of_miss h, State.viewI, view_of_miss h, memRead_memWrite_self]

theorem State.Ready.placeWord {s : State} (h : s.Ready) (w : Word) : (s.placeWord w).Ready := by
  rw [placeWord_frame]
  exact ⟨h.loaded, h.noFault, h.notHalted, h.atFetch, h.pcInRange⟩

/-- Memory has at least one word, and that is the one at the load base (R8, R51). -/
theorem inRange_loadBase (s : State) : s.InRange s.loadBase := by
  rw [State.InRange, State.off, BitVec.sub_self]
  exact Nat.succ_pos s.cfg.lastOffset.toNat

/-- The address of the next fetch of a state in which a word is placed: `pc`, or the first address of memory. -/
def State.fetchAddress (s : State) : Word := if s.InRange s.pc then s.pc else s.loadBase

theorem fetchAddress_inRange (s : State) : s.InRange s.fetchAddress := by
  unfold State.fetchAddress
  split
  · next h => exact h
  · exact inRange_loadBase s

/-- `s` made ready to begin a cycle, whatever it was doing. -/
def State.readied (s : State) : State :=
  { s.setPhase .fetch with loaded := true, halted := false, fault := none, pc := s.fetchAddress }

theorem readied_ready (s : State) : s.readied.Ready := ⟨rfl, rfl, rfl, rfl, fetchAddress_inRange s⟩

theorem withFetchWord_eq (s : State) (nbits w : Nat) :
    s.withFetchWord nbits w = s.readied.placeWord (tableWord nbits w) := rfl

end Machine
end Sys2Proof
end

section
/-! PROOFS. The faults of the instructions: each is at one of the addresses that R129 lists. -/

namespace Sys2Proof.Machine

/-- From `s` to `t` the instruction takes no fault, or one at an address that R129 lists for it. -/
def FaultsAsListed (i : Instr) (s t : State) : Prop :=
  t.fault = s.fault ∨ ∃ a, i.ChecksAddress s a ∧ t.fault = some (.outOfRange a)

theorem loadedFrom_fault (s : State) (dr : Reg) (a : Word) : (s.loadedFrom dr a).fault = s.fault := by
  simp [State.loadedFrom, State.storeLoad]

theorem storedAt_fault (s : State) (sr : Reg) (a : Word) : (s.storedAt sr a).fault = s.fault := by
  simp [State.storedAt]

theorem pointerRead_fault (s : State) (p : Word) : (s.pointerRead p).fault = s.fault := by
  simp [State.pointerRead]

/-- An instruction that checks the listed address `a` last: it completes in `u`, or takes the fault at `a`. -/
theorem faultsAsListed_of_check {i : Instr} {s u : State} {a : Word} (ha : i.ChecksAddress s a)
    (hin : s.InRange a → exec i s = .next u) (hu : u.fault = s.fault)
    (hout : ¬ s.InRange a → exec i s = .next (takeFault s s a)) :
    ∃ t, exec i s = .next t ∧ FaultsAsListed i s t := by
  by_cases h : s.InRange a
  · exact ⟨u, hin h, .inl hu⟩
  · exact ⟨_, hout h, .inr ⟨a, ha, rfl⟩⟩

/-- Every address is one that PUTS can come to, counted from `x[0]` on (R184). -/
theorem puts_checksAddress (s : State) (a : Word) : Instr.puts.ChecksAddress s a :=
  ⟨(a - s.reg 0).toNat, (a - s.reg 0).isLt, by
    rw [BitVec.ofNat_toNat, BitVec.setWidth_eq, BitVec.add_comm, BitVec.sub_add_cancel]⟩

/-- Every instruction faults as R129 lists. -/
theorem exec_faultsAsListed (i : Instr) (s : State) : ∃ t, exec i s = .next t ∧ FaultsAsListed i s t := by
  cases i with
  | addReg dr sr1 sr2 => exact ⟨_, exec_addReg dr sr1 sr2 s, .inl rfl⟩
  | addImm dr sr1 imm5 => exact ⟨_, exec_addImm dr sr1 imm5 s, .inl rfl⟩
  | andReg dr sr1 sr2 => exact ⟨_, exec_andReg dr sr1 sr2 s, .inl rfl⟩
  | andImm dr sr1 imm5 => exact ⟨_, exec_andImm dr sr1 imm5 s, .inl rfl⟩
  | notOp dr sr => exact ⟨_, exec_notOp dr sr s, .inl rfl⟩
  | br nzp off => exact ⟨_, exec_br nzp off s, .inl (by split <;> rfl)⟩
  | jmp baseR => exact ⟨_, exec_jmp baseR s, .inl rfl⟩
  | jsr off => exact ⟨_, exec_jsr off s, .inl rfl⟩
  | jsrr baseR => exact ⟨_, exec_jsrr baseR s, .inl rfl⟩
  | ld dr off =>
    exact faultsAsListed_of_check rfl (exec_ld_of_inRange dr) (loadedFrom_fault ..) (exec_ld_of_not_inRange dr)
  | ldr dr baseR off =>
    exact faultsAsListed_of_check rfl (exec_ldr_of_inRange dr) (loadedFrom_fault ..) (exec_ldr_of_not_inRange dr)
  | ldi dr off =>
    by_cases h : s.InRange (s.pcPlus off)
    · exact faultsAsListed_of_check (.inr ⟨h, rfl⟩) (exec_ldi_of_inRange dr h)
        ((loadedFrom_fault ..).trans (pointerRead_fault ..)) (exec_ldi_of_target_not_inRange dr h)
    · exact ⟨_, exec_ldi_of_pointer_not_inRange dr h, .inr ⟨_, .inl rfl, rfl⟩⟩
  | lea dr off => exact ⟨_, exec_lea dr off s, .inl rfl⟩
  | st sr off =>
    exact faultsAsListed_of_check rfl (exec_st_of_inRange sr) (storedAt_fault ..) (exec_st_of_not_inRange sr)
  | str sr baseR off =>
    exact faultsAsListed_of_check rfl (exec_str_of_inRange sr) (storedAt_fault ..) (exec_str_of_not_inRange sr)
  | sti sr off =>
    by_cases h : s.InRange (s.pcPlus off)
    · exact faultsAsListed_of_check (.inr ⟨h, rfl⟩) (exec_sti_of_inRange sr h)
        ((storedAt_fault ..).trans (pointerRead_fault ..)) (exec_sti_of_target_not_inRange sr h)
    · exact ⟨_, exec_sti_of_pointer_not_inRange sr h, .inr ⟨_, .inl rfl, rfl⟩⟩
  | getc =>
    cases h : s.console.input with
    | nil => exact ⟨_, exec_getc_of_nil h, .inl rfl⟩
    | cons b bs => exact ⟨_, exec_getc_of_cons h, .inl rfl⟩
  | out => exact ⟨_, exec_out s, .inl rfl⟩
  | puts =>
    obtain ⟨t, ht, he⟩ := exec_effect .puts s
    exact ⟨t, ht, he.fault.imp_right fun ⟨a, hf, _⟩ => ⟨a, puts_checksAddress s a, hf⟩⟩
  | halt => exact ⟨_, exec_halt s, .inl rfl⟩
  | trap v => exact ⟨_, exec_trap v s, .inl rfl⟩
  | push sr => exact faultsAsListed_of_check rfl (exec_push_of_inRange sr) rfl (exec_push_of_not_inRange sr)
  | pop dr => exact faultsAsListed_of_check rfl (exec_pop_of_inRange dr) rfl (exec_pop_of_not_inRange dr)
  | invalid => exact ⟨_, exec_invalid s, .inl rfl⟩

/-- A new fault is at a listed address, and outside memory (R129, R201). -/
theorem fault_of_exec {i : Instr} {s t : State} {a : Word} (hs : s.fault = none) (h : exec i s = .next t)
    (ht : t.fault = some (.outOfRange a)) : i.ChecksAddress s a ∧ ¬ s.InRange a := by
  have hkept : t.fault ≠ s.fault := by simp [ht, hs]
  obtain ⟨u, hu, hlisted⟩ := exec_faultsAsListed i s
  obtain rfl := Host.Outcome.next.inj (hu.symm.trans h)
  obtain ⟨b, hb, hbf⟩ := hlisted.resolve_left hkept
  obtain ⟨c, hcf, hc⟩ := (ExecEffect.of_exec h).fault.resolve_left hkept
  obtain rfl : b = a := FaultRecord.outOfRange.inj (Option.some.inj (hbf.symm.trans ht))
  obtain rfl : c = b := FaultRecord.outOfRange.inj (Option.some.inj (hcf.symm.trans ht))
  exact ⟨hb, hc⟩

end Sys2Proof.Machine
end

section
/-! PROOFS. The statements settled: O19, O52, O16, O17 and O60. -/

namespace Sys2Proof.Proofs

open Machine

/-- Settles O19: instruction by instruction, a fault is at a listed address; that it is outside memory is part of the
effect of every instruction. -/
theorem onlyListedChecksFault : Obligations.OnlyListedChecksFault := by
  unfold Obligations.OnlyListedChecksFault
  exact fun _ _ _ _ => fault_of_exec

/-- Settles O52: the step is FETCH and DECODE alone, and a fetch through a clean instruction cache keeps main memory. -/
theorem invalidOpcodeDoesNothing : Obligations.InvalidOpcodeDoesNothing := by
  unfold Obligations.InvalidOpcodeDoesNothing
  refine ⟨fun s x => ⟨decode_of_opcode_0x8 (opField_append _ x), ?_⟩, fun s hinv hready hw => ?_⟩
  · exact ⟨_, exec_invalid s, rfl, rfl, sameReads_of rfl rfl rfl rfl rfl, rfl⟩
  · have hread := fetched_readEffect s
    exact ⟨s.fetched.latchDecode.setPhase .fetch,
      hostStep_of_step (step_of_invalid hready hw) (report_of_running (hready.fetched_running .fetch) rfl),
      fetched_pc s, ⟨hread.memory, hread.line, hread.otherLines, hread.otherCache, hread.trace⟩,
      fetched_regs s, fetched_cc s, hinv.storageOk.fetched_mem, hread.otherCache .dc (by decide)⟩

/-- Settles O16: the cycle ends in the check of FETCH. -/
theorem fetchOutsideMemoryFaults : Obligations.FetchOutsideMemoryFaults := by
  unfold Obligations.FetchOutsideMemoryFaults
  intro s hl hf hh hp hout
  rw [step_of_fetch ⟨hl, hf, hh⟩ hp, newCycle_of_not_inRange hout]
  rfl

/-- Settles O17: each of the three tests stops a state that is not running, with its own report. -/
theorem statusTestsComeFirst : Obligations.StatusTestsComeFirst := by
  unfold Obligations.StatusTestsComeFirst
  refine fun s => ⟨fun hl => ?_, fun f hl hf => ?_, fun hl hf hh => ?_⟩
  · exact hostStep_of_not_running (fun hr => by simp [hr.loaded] at hl) (report_of_not_loaded hl)
  · exact hostStep_of_not_running (fun hr => by simp [hr.noFault] at hf) (report_of_fault hl hf)
  · exact hostStep_of_not_running (fun hr => by simp [hr.notHalted] at hh) (report_of_halted hl hf hh)

/-- Settles O60: the state is made ready, and the word then placed where it fetches. -/
theorem placedWordIsFetchedNext : Obligations.PlacedWordIsFetchedNext := by
  unfold Obligations.PlacedWordIsFetchedNext
  intro s nbits w
  rw [withFetchWord_eq]
  refine ⟨(readied_ready s).placeWord _, ?_, placeWord_regs _ _, placeWord_cc _ _⟩
  rw [placeWord_pc, placeWord_viewI]

end Sys2Proof.Proofs
end

section
/-! PROOFS. ADD, AND and NOT (R141 to R145): the words of the forms whose encoding has ignored bits, and what an
instruction leaves that ends by writing one result to a register and to the condition code. -/

namespace Sys2Proof

/-! ## Encodings with ignored bits (R92, R98) -/

/-- The register form of ADD and AND, whatever stands in its two ignored bits `xx`. -/
theorem registerForm_heldBy {i : Instr} {dr sr1 sr2 : Reg} (hform : i.formFields = [bit5Bits false])
    (hoperands : i.operandFields = [drBits dr, sr1Bits sr1, sr2Bits sr2]) (xx : BitVec 2) :
    i.HeldBy (i.opcode ++ regBits dr ++ regBits sr1 ++ 0#1 ++ xx ++ regBits sr2) := by
  rw [heldBy_iff, hform, hoperands]
  simp only [List.forall_mem_cons, BitField.HeldBy, drBits, sr1Bits, sr2Bits, bit5Bits, opField]
  simp (disch := decide) only [BitVec.extractLsb'_append_eq_of_le, BitVec.extractLsb'_append_eq_of_add_le]
  simp

/-- NOT, whatever stands in its six ignored bits `x`. -/
theorem notOp_heldBy (dr sr : Reg) (x : BitVec 6) :
    (Instr.notOp dr sr).HeldBy (0x9#4 ++ regBits dr ++ regBits sr ++ x) := by
  rw [heldBy_iff]
  simp only [Instr.formFields, Instr.operandFields, Instr.opcode, List.forall_mem_cons, BitField.HeldBy, drBits,
    sr1Bits, opField]
  simp (disch := decide) only [BitVec.extractLsb'_append_eq_of_le, BitVec.extractLsb'_append_eq_of_add_le]
  simp

namespace Machine

/-! ## The result of an operate instruction (R126, R127) -/

/-- The ALU complements its operand (R140). -/
theorem alu_not (a b : Word) : alu .not a b = ~~~a := BitVec.xor_allOnes

/-- The last phases write `v` to `x[dr]` and the condition code, and the phases before them no more than the latches. -/
theorem operates_of_exec {i : Instr} {s : State} {dr : Reg} {v : Word} (l : Latches)
    (h : exec i s = .next (((({ s with latch := l } : State).setReg dr v).setcc v).setPhase .done)) :
    Operates i dr v s :=
  ⟨_, h, rfl, rfl, reg_setReg_self _ dr v, rfl, fun _ hq => reg_setReg_of_ne _ v hq,
    sameReads_of rfl rfl rfl rfl rfl, rfl⟩

/-- EXECUTE and STORE of ADD, AND and NOT, from the latches `l` that FETCH_OPERANDS has left. -/
theorem operates_of_exec_alu {i : Instr} {s : State} {dr : Reg} {op : AluOp} (l : Latches)
    (h : exec i s = .next (((({ s with latch := l } : State).executeAlu op).storeResult dr).setPhase .done)) :
    Operates i dr (alu op l.opA l.opB) s :=
  operates_of_exec { l with result := alu op l.opA l.opB } h

end Machine
end Sys2Proof
end

section
/-! PROOFS. The statements settled: O28, O29 and O30. -/

namespace Sys2Proof.Proofs

open Machine

/-- Settles O28: both forms run the ALU on the operands that they latch. -/
theorem addWritesTheSum : Obligations.AddWritesTheSum := by
  unfold Obligations.AddWritesTheSum
  intro s dr sr1 sr2 xx imm5
  refine ⟨?_, ?_, ?_, ?_⟩
  · exact decode_eq_of_heldBy rfl (registerForm_heldBy (i := .addReg dr sr1 sr2) rfl rfl xx)
  · exact decode_eq_of_heldBy rfl (encode_heldBy (.addImm dr sr1 imm5))
  · exact operates_of_exec_alu _ (exec_addReg dr sr1 sr2 s)
  · exact operates_of_exec_alu _ (exec_addImm dr sr1 imm5 s)

/-- Settles O29: as for ADD, with the conjunction for the sum. -/
theorem andWritesTheConjunction : Obligations.AndWritesTheConjunction := by
  unfold Obligations.AndWritesTheConjunction
  intro s dr sr1 sr2 xx imm5
  refine ⟨?_, ?_, ?_, ?_⟩
  · exact decode_eq_of_heldBy rfl (registerForm_heldBy (i := .andReg dr sr1 sr2) rfl rfl xx)
  · exact decode_eq_of_heldBy rfl (encode_heldBy (.andImm dr sr1 imm5))
  · exact operates_of_exec_alu _ (exec_andReg dr sr1 sr2 s)
  · exact operates_of_exec_alu _ (exec_andImm dr sr1 imm5 s)

/-- Settles O30: the ALU's exclusive or with 0xFFFF complements the one operand. -/
theorem notWritesTheComplement : Obligations.NotWritesTheComplement := by
  unfold Obligations.NotWritesTheComplement
  intro s dr sr x
  refine ⟨decode_eq_of_heldBy rfl (notOp_heldBy dr sr x), ?_⟩
  rw [← alu_not (s.reg sr) s.latch.opB]
  exact operates_of_exec_alu _ (exec_notOp dr sr s)

end Sys2Proof.Proofs
end

section
/-! PROOFS. Loads and stores (R150 to R157): a data-cache access touches the data cache, main memory and the trace, and
does not see what EVAL_ADDR and FETCH_OPERANDS have staged, so a load or store is its access and what it then writes. -/

namespace Sys2Proof.Machine

/-! ## What a data-cache access touches -/

/-- From `s` to `t` the data cache, main memory and the trace alone differ. -/
structure DataFrame (s t : State) : Prop where
  eq : t = { s with dc := t.dc, mem := t.mem, trace := t.trace }

theorem DataFrame.refl (s : State) : DataFrame s s := ⟨rfl⟩

theorem DataFrame.trans {s t u : State} (h : DataFrame s t) (k : DataFrame t u) : DataFrame s u :=
  ⟨k.eq.trans (congrArg (fun x : State => { x with dc := u.dc, mem := u.mem, trace := u.trace }) h.eq)⟩

theorem DataFrame.reg {s t : State} (h : DataFrame s t) (q : Reg) : t.reg q = s.reg q :=
  (congrArg (fun x : State => x.reg q) h.eq).trans rfl

theorem DataFrame.fault {s t : State} (h : DataFrame s t) : t.fault = s.fault := (congrArg State.fault h.eq).trans rfl

theorem afterRead_dataFrame (s : State) (a : Word) : DataFrame s (s.afterRead .dc a) := by
  refine ⟨?_⟩
  unfold State.afterRead State.writeBack
  cases s.victim .dc a <;> dsimp only <;> split <;> rfl

theorem dcWrite_dataFrame (s : State) (a v : Word) : DataFrame s (s.dcWrite a v) := by
  refine ⟨?_⟩
  unfold State.dcWrite State.writeBack
  cases s.victim .dc a <;> rfl

/-- The pointer of LDI and STI is read in `s.afterRead .dc p` (R124). -/
theorem afterRead_isPointerRead (s : State) (p : Word) : PointerRead p s (s.afterRead .dc p) :=
  ⟨afterRead_effect s .dc p, (afterRead_dataFrame s p).eq⟩

/-! ## What the phases stage -/

/-- The state with other values in `mar`, `mdr` and the latches, which no cache access reads; `latchEa` is one such
update by definition. -/
def State.staged (s : State) (mar mdr : Word) (l : Latches) : State := { s with mar := mar, mdr := mdr, latch := l }

theorem writeBack_staged (s : State) (a mar mdr : Word) (l : Latches) :
    (s.staged mar mdr l).writeBack .dc a = (s.writeBack .dc a).staged mar mdr l := by
  have hv : (s.staged mar mdr l).victim .dc a = s.victim .dc a := rfl
  unfold State.writeBack
  rw [hv]
  cases s.victim .dc a <;> rfl

theorem afterRead_staged (s : State) (a mar mdr : Word) (l : Latches) :
    (s.staged mar mdr l).afterRead .dc a = (s.afterRead .dc a).staged mar mdr l := by
  have hk : (s.staged mar mdr l).accessKind .dc a = s.accessKind .dc a := rfl
  unfold State.afterRead
  rw [writeBack_staged, hk]
  dsimp only
  split <;> rfl

theorem dcWrite_staged (s : State) (a v mar mdr : Word) (l : Latches) :
    (s.staged mar mdr l).dcWrite a v = (s.dcWrite a v).staged mar mdr l := by
  unfold State.dcWrite
  rw [writeBack_staged]
  rfl

theorem pointerRead_eq_staged (s : State) (p : Word) :
    s.pointerRead p = (s.afterRead .dc p).staged p s.mdr { s.latch with ea := s.viewD p } :=
  congrArg (fun x : State => x.latchEa (s.viewD p)) (afterRead_staged s p p s.mdr s.latch)

theorem loadedFrom_staged (u : State) (dr : Reg) (a mar mdr : Word) (l : Latches) :
    (u.staged mar mdr l).loadedFrom dr a =
      (((u.afterRead .dc a).setReg dr (u.viewD a)).setcc (u.viewD a)).staged a (u.viewD a) { l with phase := .done } :=
  congrArg (fun x : State => ({ x with mdr := u.viewD a } : State).storeLoad dr |>.setPhase .done)
    (afterRead_staged u a a mdr l)

theorem storedAt_staged (u : State) (sr : Reg) (a mar mdr : Word) (l : Latches) :
    (u.staged mar mdr l).storedAt sr a = (u.dcWrite a (u.reg sr)).staged a (u.reg sr) { l with phase := .done } :=
  congrArg (·.setPhase .done) (dcWrite_staged u a (u.reg sr) a (u.reg sr) l)

/-! ## Loads and stores, once their address is formed -/

section
variable {i : Instr} {s u : State} {a mar mdr : Word} {l : Latches}

/-- A load completes whose address has been formed with data-cache accesses and staged values alone (R125, R127). -/
theorem loadsAt_of_exec {dr : Reg} (hu : DataFrame s u)
    (h : exec i s = .next ((u.staged mar mdr l).loadedFrom dr a)) : LoadsAt i dr a s u := by
  have hf : DataFrame s (u.afterRead .dc a) := hu.trans (afterRead_dataFrame u a)
  obtain ⟨hmemory, hline, hothers, hother, htrace⟩ := afterRead_effect u .dc a
  rw [loadedFrom_staged] at h
  refine ⟨_, h, rfl, hf.fault, reg_setReg_self _ dr _, rfl, rfl, rfl, fun q hq => ?_,
    ⟨hmemory, hline, hothers, hother, htrace⟩, fun b => afterRead_view, ?_⟩
  · exact (reg_setReg_of_ne _ _ hq).trans (hf.reg q)
  · exact congrArg (fun x : State =>
      { x with regs := ((u.afterRead .dc a).setReg dr (u.viewD a)).regs, cc := ccOf (u.viewD a), mar := a,
               mdr := u.viewD a, latch := { l with phase := .done } }) hf.eq

/-- A store completes whose address has been formed with data-cache accesses and staged values alone (R125, R127). -/
theorem storesAt_of_exec {sr : Reg} (hu : DataFrame s u)
    (h : exec i s = .next ((u.staged mar mdr l).storedAt sr a)) : StoresAt i a (s.reg sr) s u := by
  have hf : DataFrame s (u.dcWrite a (s.reg sr)) := hu.trans (dcWrite_dataFrame u a (s.reg sr))
  have hw : CacheAccess .dc a u (u.dcWrite a (s.reg sr)) := dcWrite_access u a (s.reg sr)
  obtain ⟨hmemory, hline, hothers, hic, htrace⟩ := dcWrite_effect u a (s.reg sr)
  rw [storedAt_staged, hu.reg sr] at h
  exact ⟨_, h, rfl, hf.fault, dcWrite_viewD_self u a (s.reg sr), hw.memRead_self,
    hw.view_otherCache_self (d := .ic) (by decide), rfl, rfl, fun b => hw.view_of_not_evictsClean,
    ⟨hmemory, hline, hothers, hic, htrace⟩, congrArg (·.staged a (s.reg sr) { l with phase := .done }) hf.eq⟩

end

end Sys2Proof.Machine
end

section
/-! PROOFS. The statements settled: O31, O32, O34, O35 and O33. -/

namespace Sys2Proof.Proofs

open Machine

/-- Settles O31: LD and LDR stage their address and load in the state that they are given. -/
theorem directLoadsReadThroughTheDataCache : Obligations.DirectLoadsReadThroughTheDataCache := by
  unfold Obligations.DirectLoadsReadThroughTheDataCache
  intro s dr baseR off9 off6
  refine ⟨?_, ?_, fun h => ?_, fun h => ?_, fun h => ?_, fun h => ?_⟩
  · exact decode_eq_of_heldBy rfl (encode_heldBy (.ld dr off9))
  · exact decode_eq_of_heldBy rfl (encode_heldBy (.ldr dr baseR off6))
  · exact loadsAt_of_exec (.refl s) (exec_ld_of_inRange dr h)
  · exact exec_ld_of_not_inRange dr h
  · exact loadsAt_of_exec (.refl s) (exec_ldr_of_inRange dr h)
  · exact exec_ldr_of_not_inRange dr h

/-- Settles O32: the data is loaded in the state after the read of the pointer. -/
theorem ldiLoadsThroughItsPointer : Obligations.LdiLoadsThroughItsPointer := by
  unfold Obligations.LdiLoadsThroughItsPointer
  intro s dr off9
  refine ⟨?_, fun h => ?_, fun h h2 => ?_, fun h h2 => ⟨_, afterRead_isPointerRead s _, ?_⟩⟩
  · exact decode_eq_of_heldBy rfl (encode_heldBy (.ldi dr off9))
  · exact exec_ldi_of_pointer_not_inRange dr h
  · exact exec_ldi_of_target_not_inRange dr h h2
  · have hexec := exec_ldi_of_inRange dr h h2
    rw [pointerRead_eq_staged] at hexec
    exact loadsAt_of_exec (afterRead_dataFrame s _) hexec

/-- Settles O34: ST and STR stage their address and store in the state that they are given. -/
theorem directStoresWriteTheDataCache : Obligations.DirectStoresWriteTheDataCache := by
  unfold Obligations.DirectStoresWriteTheDataCache
  intro s sr baseR off9 off6
  refine ⟨?_, ?_, fun h => ?_, fun h => ?_, fun h => ?_, fun h => ?_⟩
  · exact decode_eq_of_heldBy rfl (encode_heldBy (.st sr off9))
  · exact decode_eq_of_heldBy rfl (encode_heldBy (.str sr baseR off6))
  · exact storesAt_of_exec (.refl s) (exec_st_of_inRange sr h)
  · exact exec_st_of_not_inRange sr h
  · exact storesAt_of_exec (.refl s) (exec_str_of_inRange sr h)
  · exact exec_str_of_not_inRange sr h

/-- Settles O35: the word is stored in the state after the read of the pointer. -/
theorem stiStoresThroughItsPointer : Obligations.StiStoresThroughItsPointer := by
  unfold Obligations.StiStoresThroughItsPointer
  intro s sr off9
  refine ⟨?_, fun h => ?_, fun h h2 => ?_, fun h h2 => ⟨_, afterRead_isPointerRead s _, ?_⟩⟩
  · exact decode_eq_of_heldBy rfl (encode_heldBy (.sti sr off9))
  · exact exec_sti_of_pointer_not_inRange sr h
  · exact exec_sti_of_target_not_inRange sr h h2
  · have hexec := exec_sti_of_inRange sr h h2
    rw [pointerRead_eq_staged] at hexec
    exact storesAt_of_exec (afterRead_dataFrame s _) hexec

/-- Settles O33: the result is written in STORE, from an address that no phase checks or accesses. -/
theorem leaWritesTheAddress : Obligations.LeaWritesTheAddress := by
  unfold Obligations.LeaWritesTheAddress
  intro s dr off9
  exact ⟨decode_eq_of_heldBy rfl (encode_heldBy (.lea dr off9)), operates_of_exec s.latch (exec_lea dr off9 s)⟩

end Sys2Proof.Proofs
end

section
/-! PROOFS. Control transfer (R170 to R173): the words of JMP and JSRR, whose encodings have ignored bits, the registers
after the link, and what an instruction leaves that ends by writing `pc`, with or without a link before it. -/

namespace Sys2Proof

/-! ## Encodings with ignored bits (R92, R98) -/

/-- JMP, whatever stands in its ignored bits `x` and `y`. -/
theorem jmp_heldBy (baseR : Reg) (x : BitVec 3) (y : BitVec 6) :
    (Instr.jmp baseR).HeldBy (0xC#4 ++ x ++ regBits baseR ++ y) := by
  rw [heldBy_iff]
  simp only [Instr.formFields, Instr.operandFields, Instr.opcode, List.forall_mem_cons, BitField.HeldBy, sr1Bits, opField]
  simp (disch := decide) only [BitVec.extractLsb'_append_eq_of_le, BitVec.extractLsb'_append_eq_of_add_le]
  simp

/-- JSRR, whatever stands in its ignored bits `x` and `y`. -/
theorem jsrr_heldBy (baseR : Reg) (x : BitVec 2) (y : BitVec 6) :
    (Instr.jsrr baseR).HeldBy (0x4#4 ++ 0#1 ++ x ++ regBits baseR ++ y) := by
  rw [heldBy_iff]
  simp only [Instr.formFields, Instr.operandFields, Instr.opcode, List.forall_mem_cons, BitField.HeldBy, sr1Bits,
    bit11Bits, opField]
  simp (disch := decide) only [BitVec.extractLsb'_append_eq_of_le, BitVec.extractLsb'_append_eq_of_add_le]
  simp

namespace Machine

/-! ## The link (R172, R173) -/

@[simp] theorem link_reg_self (s : State) : s.link.reg 7 = s.pc := reg_setReg_self s linkReg s.pc

theorem link_reg_of_ne (s : State) {q : Reg} (h : q ≠ 7) : s.link.reg q = s.reg q := reg_setReg_of_ne s s.pc h

/-! ## The branch condition (R26, R100) -/

/-- The condition code always has one bit set, so it meets nzp = 111. -/
theorem bits_and_ones_ne_zero (cc : CC) : cc.bits &&& 0b111#3 ≠ 0 := by
  cases cc <;> decide

/-- BR is taken (R170). -/
theorem exec_br_of_bits_and_ne_zero {s : State} {nzp : BitVec 3} (off : BitVec 9) (h : s.cc.bits &&& nzp ≠ 0) :
    exec (.br nzp off) s = .next (({ s with pc := s.pcPlus off } : State).setPhase .done) := by
  rw [exec_br, if_pos ((branchEnable_iff s.cc nzp).mpr h)]

/-- BR is not taken: its phases leave nothing but the phase latch (R170). -/
theorem exec_br_of_bits_and_eq_zero {s : State} {nzp : BitVec 3} (off : BitVec 9) (h : s.cc.bits &&& nzp = 0) :
    exec (.br nzp off) s = .next (({ s with pc := s.pc } : State).setPhase .done) := by
  rw [exec_br, if_neg fun hb => (branchEnable_iff s.cc nzp).mp hb h]

/-! ## Jumps and calls -/

/-- An instruction that writes `pc` and no more than latches besides. -/
theorem completes_of_exec_jump {i : Instr} {s : State} {target : Word}
    (h : exec i s = .next (({ s with pc := target } : State).setPhase .done)) :
    Completes i s fun t => t.pc = target ∧ SameReads s t ∧ t = { s with pc := t.pc, latch := t.latch } :=
  ⟨_, h, rfl, rfl, rfl, sameReads_of rfl rfl rfl rfl rfl, rfl⟩

/-- An instruction that links and then writes `pc`: JSR and JSRR, whatever the target. -/
theorem completes_of_exec_call {i : Instr} {s : State} {target : Word}
    (h : exec i s = .next (({ s.link with pc := target } : State).setPhase .done)) :
    Completes i s fun t =>
      t.reg 7 = s.pc ∧ t.pc = target ∧ (∀ q, q ≠ 7 → t.reg q = s.reg q) ∧
      t.cc = (bif s.cfg.ccOnAllRegWrites then ccOf s.pc else s.cc) ∧ SameReads s t ∧
      t = { s with regs := t.regs, pc := t.pc, cc := t.cc, latch := t.latch } :=
  ⟨_, h, rfl, rfl, link_reg_self s, rfl, fun _ hq => link_reg_of_ne s hq, rfl, sameReads_of rfl rfl rfl rfl rfl, rfl⟩

end Machine
end Sys2Proof
end

section
/-! PROOFS. The statements settled: O41, O44, O42 and O43. -/

namespace Sys2Proof.Proofs

open Machine

/-- Settles O41: a jump to one of two targets. With nzp = 000 the branch cannot be taken, and with nzp = 111 it cannot
fail to be. -/
theorem brBranchesOnTheConditionCode : Obligations.BrBranchesOnTheConditionCode := by
  unfold Obligations.BrBranchesOnTheConditionCode
  intro s nzp off9
  refine ⟨decode_eq_of_heldBy rfl (encode_heldBy (.br nzp off9)), ?_⟩
  by_cases hcc : s.cc.bits &&& nzp = 0
  · obtain ⟨t, hexec, hphase, hfault, hpc, hframe⟩ := completes_of_exec_jump (exec_br_of_bits_and_eq_zero off9 hcc)
    have hnot : nzp ≠ 0b111#3 := fun h => bits_and_ones_ne_zero s.cc (h ▸ hcc)
    exact ⟨t, hexec, hphase, hfault, fun h => absurd hcc h, fun _ => hpc, fun _ => hpc, fun h => absurd h hnot, hframe⟩
  · obtain ⟨t, hexec, hphase, hfault, hpc, hframe⟩ := completes_of_exec_jump (exec_br_of_bits_and_ne_zero off9 hcc)
    have hnot : nzp ≠ 0b000#3 := fun h => hcc (h ▸ BitVec.and_zero)
    exact ⟨t, hexec, hphase, hfault, fun _ => hpc, fun h => absurd h hcc, fun h => absurd h hnot, fun _ => hpc, hframe⟩

/-- Settles O44: the flag JSRR_READS_BASE_FIRST chooses between two readings of BaseR, and only of R7 do they differ. -/
theorem jsrrLinksThenJumps : Obligations.JsrrLinksThenJumps := by
  unfold Obligations.JsrrLinksThenJumps
  intro s baseR x y
  refine ⟨decode_eq_of_heldBy rfl (jsrr_heldBy baseR x y), ?_⟩
  obtain ⟨t, hexec, hphase, hfault, hlink, hpc, hframe⟩ := completes_of_exec_call (exec_jsrr baseR s)
  refine ⟨t, hexec, hphase, hfault, hlink, fun hne => ?_, fun heq => ?_, hframe⟩
  · rw [hpc, link_reg_of_ne s hne, Bool.cond_self]
  · rw [hpc, heq, link_reg_self]

/-- Settles O42: no phase of JMP but EXECUTE acts, and the decoder reads none of its ignored bits. -/
theorem jmpJumps : Obligations.JmpJumps := by
  unfold Obligations.JmpJumps
  intro s baseR x y
  exact ⟨decode_eq_of_heldBy rfl (jmp_heldBy baseR x y), completes_of_exec_jump (exec_jmp baseR s)⟩

/-- Settles O43: a call whose target is formed from the `pc` that it links. -/
theorem jsrLinksAndJumps : Obligations.JsrLinksAndJumps := by
  unfold Obligations.JsrLinksAndJumps
  intro s off11
  exact ⟨decode_eq_of_heldBy rfl (encode_heldBy (.jsr off11)), completes_of_exec_call (exec_jsr off11 s)⟩

end Sys2Proof.Proofs
end

section
/-! PROOFS. TRAP (R180 to R185): the words of a vector, whose encoding has four ignored bits. -/

namespace Sys2Proof

/-- A TRAP, whatever stands in its four ignored bits `x` (R98, R99). -/
theorem trapWord_heldBy {i : Instr} {v : BitVec 8} (h : i.fields = [opBits 0xF#4, lowBits v]) (x : BitVec 4) :
    i.HeldBy (0xF#4 ++ x ++ v) := by
  rw [Instr.HeldBy, h]
  simp only [List.forall_mem_cons, BitField.HeldBy, opBits, lowBits]
  simp (disch := decide) only [BitVec.extractLsb'_append_eq_of_le, BitVec.extractLsb'_append_eq_of_add_le]
  simp

end Sys2Proof
end

section
/-! PROOFS. The data cache under a sequence of reads (R56, R69): once all addresses have been read, no read replaces a
stale line any more, so every word reads as before. -/

namespace Sys2Proof.Machine

/-! ## Reads that leave every view as it is -/

/-- What reads of the addresses in `R` bring about: a line that serves an address `x` of `R` and holds `b` holds an address
of `R`, and where `b` is not `x` and the line is clean, its word is main memory's. With all addresses in `R`, no clean
line that a read can evict is stale. -/
def State.RefreshedAt (s : State) (R : Set Word) : Prop :=
  ∀ x ∈ R, ∀ b, s.index b = s.index x → s.accessKind .dc b = .hit →
    b ∈ R ∧ (b ≠ x → (s.lineAt .dc b).dirty = false → s.viewD b = s.memRead b)

theorem refreshedAt_empty (s : State) : s.RefreshedAt ∅ := fun _ hx => hx.elim

theorem State.DataCacheCurrent.refreshedAt_univ {s : State} (h : s.DataCacheCurrent) : s.RefreshedAt Set.univ :=
  fun _ _ b _ hk => ⟨trivial, fun _ hclean => (view_of_hit hk).trans (h b hk hclean)⟩

/-- A hit keeps its line (R56). -/
theorem afterRead_lineAt_of_hit {s : State} {c : CacheId} {a : Word} (h : s.accessKind c a = .hit) :
    (s.afterRead c a).lineAt c a = s.lineAt c a := by
  rw [State.lineAt, afterRead_index, (afterRead_effect s c a).line, if_pos h]

/-- A read keeps the line of an address of another index (R55). -/
theorem afterRead_lineAt_of_index_ne {s : State} {c : CacheId} {a b : Word} (h : s.index b ≠ s.index a) :
    (s.afterRead c a).lineAt c b = s.lineAt c b :=
  lineAt_congr (afterRead_index s c a b) ((afterRead_effect s c a).otherLines _ h)

/-- An address of another index keeps its word in main memory: a read writes back within its own index (R59). -/
theorem afterRead_memRead_of_index_ne {s : State} {c : CacheId} {a b : Word} (h : s.index b ≠ s.index a) :
    (s.afterRead c a).memRead b = s.memRead b :=
  (afterRead_access s c a).memRead_of_not_victim fun hv =>
    h (index_eq_of_lineOffset_eq ((victim_eq_some_iff s c a _).mp hv).2.2)

/-- A read refreshes its address besides what is refreshed: its line comes from main memory, or is one that an earlier
read of the same index has refreshed. -/
theorem State.RefreshedAt.afterRead {s : State} {R : Set Word} (h : s.RefreshedAt R) (a : Word) :
    (s.afterRead .dc a).RefreshedAt (insert a R) := by
  have hacc := afterRead_access s .dc a
  intro x hx b hbx hkb
  rw [afterRead_index, afterRead_index] at hbx
  by_cases hba : s.index b = s.index a
  · obtain rfl : b = a := by
      by_contra hne
      exact absurd (hacc.conflictMiss hba hne) (by simp [hkb])
    refine ⟨Set.mem_insert b R, fun hne hclean => ?_⟩
    have hxR : x ∈ R := (Set.mem_insert_iff.mp hx).resolve_left hne.symm
    rw [State.viewD, afterRead_view_self, hacc.memRead_self]
    by_cases hk : s.accessKind .dc b = .hit
    · rw [afterRead_lineAt_of_hit hk] at hclean
      exact (h x hxR b hbx hk).2 hne hclean
    · exact view_of_miss hk
  · have hxR : x ∈ R := (Set.mem_insert_iff.mp hx).resolve_left fun e => hba (e ▸ hbx)
    have hline := afterRead_lineAt_of_index_ne (c := .dc) hba
    have hk : s.accessKind .dc b = .hit := by rwa [accessKind_congr (hacc.tag b) hline] at hkb
    obtain ⟨hbR, hclean⟩ := h x hxR b hbx hk
    refine ⟨Set.mem_insert_of_mem a hbR, fun hne hc => ?_⟩
    rw [hline] at hc
    rw [State.viewD, hacc.view_of_index_ne hba, afterRead_memRead_of_index_ne hba]
    exact hclean hne hc

/-- Where all addresses are refreshed, a read keeps every view. -/
theorem State.RefreshedAt.afterRead_viewD {s : State} (h : s.RefreshedAt Set.univ) (a b : Word) :
    (s.afterRead .dc a).viewD b = s.viewD b := by
  by_cases he : s.EvictsClean .dc a b
  · have ⟨hk, hclean, ho⟩ := he
    obtain ⟨hne, hi, hkb⟩ := (evicts_iff s .dc a b).mp ⟨hk, ho⟩
    rw [State.viewD, (afterRead_access s .dc a).view_of_evictsClean he]
    exact ((h a trivial b hi hkb).2 hne (by rwa [lineAt_of_index_eq hi])).symm
  · exact afterRead_view he

/-! ## The reads of consecutive addresses -/

/-- The state after reads through the data cache of the `n` addresses from `a` on. -/
def State.readFrom (s : State) (a : Word) : Nat → State
  | 0 => s
  | n + 1 => (s.readFrom a n).afterRead .dc (a + BitVec.ofNat 16 n)

/-- The word that the read number `k` of them returns. -/
def State.wordFrom (s : State) (a : Word) (k : Nat) : Word := (s.readFrom a k).viewD (a + BitVec.ofNat 16 k)

theorem add_one_add_ofNat (a : Word) (k : Nat) : a + 1 + BitVec.ofNat 16 k = a + BitVec.ofNat 16 (k + 1) := by
  rw [BitVec.ofNat_add, BitVec.add_assoc, BitVec.add_comm 1]
  rfl

theorem readFrom_add (s : State) (a : Word) (m n : Nat) :
    s.readFrom a (m + n) = (s.readFrom a m).readFrom (a + BitVec.ofNat 16 m) n := by
  induction n with
  | zero => rfl
  | succ n ih => rw [← Nat.add_assoc, State.readFrom, ih, State.readFrom, BitVec.ofNat_add, BitVec.add_assoc]

theorem readFrom_succ_eq (s : State) (a : Word) (n : Nat) :
    s.readFrom a (n + 1) = (s.afterRead .dc a).readFrom (a + 1) n := by
  rw [Nat.add_comm, readFrom_add]
  simp [State.readFrom]

theorem wordFrom_succ_eq (s : State) (a : Word) (k : Nat) :
    s.wordFrom a (k + 1) = (s.afterRead .dc a).wordFrom (a + 1) k := by
  rw [State.wordFrom, State.wordFrom, readFrom_succ_eq, add_one_add_ofNat]

theorem wordFrom_zero (s : State) (a : Word) : s.wordFrom a 0 = s.viewD a := by
  simp [State.wordFrom, State.readFrom]

theorem readFrom_dataFrame (s : State) (a : Word) (n : Nat) : DataFrame s (s.readFrom a n) := by
  induction n with
  | zero => exact .refl s
  | succ n ih => exact ih.trans (afterRead_dataFrame _ _)

theorem DataFrame.inRange {s t : State} (h : DataFrame s t) (b : Word) : t.InRange b ↔ s.InRange b :=
  inRange_congr (congrArg State.cfg h.eq) (congrArg State.loadBase h.eq) b

/-- The first `n` addresses from `a` on. -/
def addressesFrom (a : Word) (n : Nat) : Set Word := {b | ∃ k < n, b = a + BitVec.ofNat 16 k}

theorem mem_addressesFrom {a b : Word} {n : Nat} : b ∈ addressesFrom a n ↔ ∃ k < n, b = a + BitVec.ofNat 16 k :=
  Iff.rfl

theorem union_addressesFrom_succ (R : Set Word) (a : Word) (n : Nat) :
    R ∪ addressesFrom a (n + 1) = insert (a + BitVec.ofNat 16 n) (R ∪ addressesFrom a n) := by
  ext b
  simp only [Set.mem_union, Set.mem_insert_iff, mem_addressesFrom, Nat.exists_lt_succ_right]
  exact or_assoc.symm.trans or_comm

/-- The reads refresh their addresses. -/
theorem readFrom_refreshedAt {s : State} {R : Set Word} (h : s.RefreshedAt R) (a : Word) (n : Nat) :
    (s.readFrom a n).RefreshedAt (R ∪ addressesFrom a n) := by
  induction n with
  | zero =>
    have hnone : addressesFrom a 0 = ∅ :=
      Set.eq_empty_of_forall_notMem fun b ⟨k, hk, _⟩ => absurd hk (Nat.not_lt_zero k)
    rw [hnone, Set.union_empty]
    exact h
  | succ n ih =>
    rw [union_addressesFrom_succ]
    exact ih.afterRead _

/-- Every address is one of the 65536 from `a` on. -/
theorem exists_lt_eq_add_ofNat (a b : Word) : ∃ k < 65536, b = a + BitVec.ofNat 16 k := by
  refine ⟨(b - a).toNat, (b - a).isLt, ?_⟩
  rw [BitVec.ofNat_toNat, BitVec.setWidth_eq, BitVec.add_comm, BitVec.sub_add_cancel]

/-- Once round all addresses, all of them are refreshed. -/
theorem readFrom_refreshedAt_univ (s : State) (a : Word) : (s.readFrom a 65536).RefreshedAt Set.univ := by
  have hall : ∅ ∪ addressesFrom a 65536 = Set.univ :=
    (Set.empty_union _).trans (Set.eq_univ_of_forall (exists_lt_eq_add_ofNat a))
  exact hall ▸ readFrom_refreshedAt (refreshedAt_empty s) a 65536

theorem State.RefreshedAt.readFrom {s : State} (h : s.RefreshedAt Set.univ) (a : Word) (n : Nat) :
    (s.readFrom a n).RefreshedAt Set.univ := by
  simpa using readFrom_refreshedAt h a n

/-- Where all addresses are refreshed, the reads keep every view. -/
theorem State.RefreshedAt.readFrom_viewD {s : State} (h : s.RefreshedAt Set.univ) (a : Word) (n : Nat) (b : Word) :
    (s.readFrom a n).viewD b = s.viewD b := by
  induction n with
  | zero => rfl
  | succ n ih => exact ((h.readFrom a n).afterRead_viewD _ b).trans ih

end Sys2Proof.Machine
end

section
/-! PROOFS. PUTS (R184): it is the data-cache reads of consecutive addresses with a byte sent after each, whichever way
it ends, and one that has read all addresses twice never ends (log entry 10). -/

namespace Sys2Proof.Machine

/-! ## The reads of PUTS (R184) -/

/-- What `PutsSends` says, in closed form: reads from `a` on, none of whose words is zero, and the low byte of each. -/
theorem putsSends_iff {a b : Word} {s u : State} {bytes : List Byte} :
    PutsSends a s bytes b u ↔
      b = a + BitVec.ofNat 16 bytes.length ∧ u = s.readFrom a bytes.length ∧
      ∀ k, (h : k < bytes.length) → s.InRange (a + BitVec.ofNat 16 k) ∧ s.wordFrom a k ≠ 0x0000#16 ∧
        bytes[k] = (s.wordFrom a k).setWidth 8 := by
  constructor
  · intro h
    induction h with
    | none a s => exact ⟨by simp, rfl, fun k hk => absurd hk (Nat.not_lt_zero k)⟩
    | @char a b s t bytes ha hw _ ih =>
      obtain ⟨rfl, rfl, hall⟩ := ih
      refine ⟨add_one_add_ofNat a _, (readFrom_succ_eq s a _).symm, fun k hk => ?_⟩
      cases k with
      | zero => exact ⟨by simpa using ha, by rwa [wordFrom_zero], by rw [wordFrom_zero]; rfl⟩
      | succ k =>
        obtain ⟨hr, hne, hb⟩ := hall k (Nat.lt_of_succ_lt_succ hk)
        rw [wordFrom_succ_eq, ← add_one_add_ofNat]
        exact ⟨((afterRead_dataFrame s a).inRange _).mp hr, hne, hb⟩
  · intro ⟨hb, hu, hall⟩
    subst hb hu
    induction bytes generalizing a s with
    | nil => simpa [State.readFrom] using PutsSends.none a s
    | cons byte bytes ih =>
      obtain ⟨ha, hw, hbyte⟩ := hall 0 (Nat.succ_pos _)
      rw [wordFrom_zero] at hw hbyte
      rw [List.length_cons, ← add_one_add_ofNat, readFrom_succ_eq,
        show byte = (s.viewD a).setWidth 8 from hbyte]
      refine .char (by simpa using ha) hw (ih fun k hk => ?_)
      obtain ⟨hr, hne, hb⟩ := hall (k + 1) (Nat.succ_lt_succ hk)
      rw [← add_one_add_ofNat] at hr
      rw [wordFrom_succ_eq] at hne hb
      exact ⟨((afterRead_dataFrame s a).inRange _).mpr hr, hne, hb⟩

/-- The state of a service with the latches `l` that has sent `sent`, which no read of the data cache sees. -/
def State.withSent (s : State) (l : Latches) (sent : List Byte) : State :=
  { s with latch := l, console := { s.console with output := s.console.output ++ sent } }

theorem withSent_viewD (s : State) (l : Latches) (sent : List Byte) (a : Word) :
    (s.withSent l sent).viewD a = s.viewD a := rfl

theorem writeBack_withSent (s : State) (l : Latches) (sent : List Byte) (a : Word) :
    (s.withSent l sent).writeBack .dc a = (s.writeBack .dc a).withSent l sent := by
  have hv : (s.withSent l sent).victim .dc a = s.victim .dc a := rfl
  unfold State.writeBack
  rw [hv]
  cases s.victim .dc a <;> rfl

theorem afterRead_withSent (s : State) (l : Latches) (sent : List Byte) (a : Word) :
    (s.withSent l sent).afterRead .dc a = (s.afterRead .dc a).withSent l sent := by
  have hk : (s.withSent l sent).accessKind .dc a = s.accessKind .dc a := rfl
  unfold State.afterRead
  rw [writeBack_withSent, hk]
  dsimp only
  split <;> rfl

theorem withSent_nil (s : State) (l : Latches) : s.withSent l [] = { s with latch := l } := by
  rw [State.withSent, List.append_nil]

theorem consoleOut_withSent (s : State) (l : Latches) (sent : List Byte) (b : Byte) :
    (s.withSent l sent).consoleOut b = s.withSent l (sent ++ [b]) :=
  congrArg (fun o => { s with latch := l, console := { s.console with output := o } })
    (List.append_assoc s.console.output sent [b])

/-- The loop of PUTS at a word in memory. -/
theorem putsLoop_succ_of_inRange {s : State} {a : Word} (ha : s.InRange a) (n : Nat) (l : Latches) (sent : List Byte) :
    putsLoop (n + 1) a (s.withSent l sent) =
      if s.viewD a = 0x0000#16 then .go ((s.afterRead .dc a).withSent l sent)
      else putsLoop n (a + 1) ((s.afterRead .dc a).withSent l (sent ++ [(s.viewD a).setWidth 8])) := by
  have ha' : (s.withSent l sent).InRange a := ha
  rw [putsLoop, readThen_of_inRange ha', afterRead_withSent, consoleOut_withSent]
  rfl

/-- The loop of PUTS at an address outside memory. -/
theorem putsLoop_succ_of_not_inRange {s : State} {a : Word} (ha : ¬ s.InRange a) (n : Nat) (l : Latches)
    (sent : List Byte) : putsLoop (n + 1) a (s.withSent l sent) = .outOfRange a (s.withSent l sent) := by
  have ha' : ¬ (s.withSent l sent).InRange a := ha
  rw [putsLoop, readThen_of_not_inRange ha']

/-- The loop of PUTS gets to where `PutsSends` says, with the bytes sent. -/
theorem PutsSends.putsLoop_add {a b : Word} {s u : State} {bytes : List Byte} (h : PutsSends a s bytes b u) (n : Nat)
    (l : Latches) (sent : List Byte) :
    putsLoop (bytes.length + n) a (s.withSent l sent) = putsLoop n b (u.withSent l (sent ++ bytes)) := by
  induction h generalizing sent with
  | none a s => rw [List.append_nil, List.length_nil, Nat.zero_add]
  | char ha hw _ ih =>
    rw [List.length_cons, Nat.add_right_comm, putsLoop_succ_of_inRange ha, if_neg hw, ih, List.append_assoc]
    rfl

theorem PutsSends.dataFrame {a b : Word} {s u : State} {bytes : List Byte} (h : PutsSends a s bytes b u) :
    DataFrame s u := by
  obtain ⟨-, rfl, -⟩ := putsSends_iff.mp h
  exact readFrom_dataFrame s a _

/-! ## How the service ends -/

section
variable {s w : State} (h : DataFrame s w) (l : Latches) (sent : List Byte)
include h

theorem DataFrame.withSent_fault : (w.withSent l sent).fault = s.fault := h.fault

theorem DataFrame.withSent_running (hr : s.Running) : (w.withSent l sent).Running := by
  rw [h.eq]
  exact ⟨hr.loaded, hr.noFault, hr.notHalted⟩

theorem DataFrame.withSent_console :
    (w.withSent l sent).console = { s.console with output := s.console.output ++ sent } := by
  rw [h.eq]
  rfl

/-- From `s`, data-cache reads and the bytes `sent` change the console's output, the latches and the storage alone. -/
theorem DataFrame.withSent_frame :
    (w.withSent l sent).console = { s.console with output := s.console.output ++ sent } ∧
    w.withSent l sent =
      { s with console := (w.withSent l sent).console, latch := l, dc := w.dc, mem := w.mem, trace := w.trace } := by
  refine ⟨h.withSent_console l sent, ?_⟩
  rw [h.eq]
  rfl

end

section
variable {s u : State} {bytes : List Byte} {b : Word} {n : Nat}

/-- The service of PUTS ends at a zero word (R184). -/
theorem PutsSends.putsLoop_of_zero (h : PutsSends (s.reg 0) s bytes b u) (hn : bytes.length < n) (hb : u.InRange b)
    (hw : u.viewD b = 0x0000#16) (l : Latches) :
    putsLoop n (s.reg 0) { s with latch := l } = .go ((u.afterRead .dc b).withSent l bytes) := by
  obtain ⟨k, rfl⟩ := Nat.exists_eq_add_of_lt hn
  rw [← withSent_nil, Nat.add_assoc, h.putsLoop_add, putsLoop_succ_of_inRange hb, if_pos hw]
  rfl

/-- The service of PUTS takes a fault at an address outside memory (R184). -/
theorem PutsSends.putsLoop_of_not_inRange (h : PutsSends (s.reg 0) s bytes b u) (hn : bytes.length < n)
    (hb : ¬ u.InRange b) (l : Latches) :
    putsLoop n (s.reg 0) { s with latch := l } = .outOfRange b (u.withSent l bytes) := by
  obtain ⟨k, rfl⟩ := Nat.exists_eq_add_of_lt hn
  rw [← withSent_nil, Nat.add_assoc, h.putsLoop_add, putsLoop_succ_of_not_inRange hb]
  rfl

/-- The service of PUTS is held once it has sent as many bytes as it can in one step (log entry 10). -/
theorem PutsSends.putsLoop_of_length_eq (h : PutsSends (s.reg 0) s bytes b u) (hn : bytes.length = n) (l : Latches) :
    putsLoop n (s.reg 0) { s with latch := l } = .hold (u.withSent l bytes) := by
  subst hn
  exact withSent_nil s l ▸ h.putsLoop_add 0 l []

end

/-! ## The instruction, begun and resumed -/

/-- A running cycle that PUTS holds goes on with its loop from R0 (log entry 10). -/
theorem step_held_puts {s : State} (hr : s.Running) (hp : s.latch.phase = .execute) (hd : decode s.ir = .puts) :
    step s = settle s (endCycle s (putsLoop 131072 (s.reg 0) (s.setPhase .execute))) := by
  rw [step_of_held hr hp, resumeCycle_of_held (.inr ⟨hd, rfl⟩), putsPhases, resumePhases_trap, State.putsService,
    setPhase_reg]

section
variable {s u : State} {bytes : List Byte} {b : Word}

/-- PUTS of a string that ends (R184). -/
theorem exec_puts_of_zero (h : PutsSends (s.reg 0) s bytes b u) (hn : bytes.length < 131072) (hb : u.InRange b)
    (hw : u.viewD b = 0x0000#16) :
    exec .puts s =
      .next ((u.afterRead .dc b).withSent { (s.evalVector 0x22#8).latch with phase := .done } bytes) :=
  (exec_puts s).trans (congrArg (endCycle s) (h.putsLoop_of_zero hn hb hw _))

/-- PUTS up to an address outside memory keeps the bytes sent (R184, R208). -/
theorem exec_puts_of_not_inRange (h : PutsSends (s.reg 0) s bytes b u) (hn : bytes.length < 131072)
    (hb : ¬ u.InRange b) :
    exec .puts s =
      .next { s with fault := some (.outOfRange b),
                     console := { s.console with output := s.console.output ++ bytes } } := by
  rw [exec_puts, ← h.dataFrame.withSent_console s.latch bytes]
  exact congrArg (endCycle s) (h.putsLoop_of_not_inRange hn hb _)

/-- PUTS is held (log entry 10). -/
theorem exec_puts_of_length_eq (h : PutsSends (s.reg 0) s bytes b u) (hn : bytes.length = 131072) :
    exec .puts s = .next (u.withSent { (s.evalVector 0x22#8).latch with phase := .execute } bytes) :=
  (exec_puts s).trans (congrArg (endCycle s) (h.putsLoop_of_length_eq hn _))

variable (hr : s.Running) (hp : s.latch.phase = .execute) (hd : decode s.ir = .puts)
include hr hp hd

theorem step_held_puts_of_zero (h : PutsSends (s.reg 0) s bytes b u) (hn : bytes.length < 131072) (hb : u.InRange b)
    (hw : u.viewD b = 0x0000#16) :
    step s = .next ((u.afterRead .dc b).withSent { s.latch with phase := .fetch } bytes) := by
  have hframe : DataFrame s (u.afterRead .dc b) := h.dataFrame.trans (afterRead_dataFrame u b)
  have hfault : (((u.afterRead .dc b).withSent (s.setPhase .execute).latch bytes).setPhase .done).fault = none := by
    rw [setPhase_fault, hframe.withSent_fault, hr.noFault]
  have hloop := h.putsLoop_of_zero hn hb hw (s.setPhase .execute).latch
  rw [step_held_puts hr hp hd]
  refine (congrArg (fun f => settle s (endCycle s f)) hloop).trans ?_
  rw [endCycle, settle_of_noFault hfault, endOfCycle_setPhase_done]
  rfl

theorem step_held_puts_of_not_inRange (h : PutsSends (s.reg 0) s bytes b u) (hn : bytes.length < 131072)
    (hb : ¬ u.InRange b) :
    step s =
      .next { s with fault := some (.outOfRange b),
                     console := { s.console with output := s.console.output ++ bytes } } := by
  have hloop := h.putsLoop_of_not_inRange hn hb (s.setPhase .execute).latch
  rw [step_held_puts hr hp hd, ← h.dataFrame.withSent_console s.latch bytes]
  exact congrArg (fun f => settle s (endCycle s f)) hloop

theorem step_held_puts_of_length_eq (h : PutsSends (s.reg 0) s bytes b u) (hn : bytes.length = 131072) :
    step s = .next (u.withSent (s.setPhase .execute).latch bytes) := by
  have hfault : (u.withSent (s.setPhase .execute).latch bytes).fault = none := by
    rw [h.dataFrame.withSent_fault, hr.noFault]
  have hloop := h.putsLoop_of_length_eq hn (s.setPhase .execute).latch
  rw [step_held_puts hr hp hd]
  refine (congrArg (fun f => settle s (endCycle s f)) hloop).trans ?_
  rw [endCycle, settle_of_noFault hfault]
  rfl

end

/-! ## A PUTS that never ends (log entry 10) -/

/-- From the second round on, each read returns the view that the first round has left. -/
theorem wordFrom_of_le (s : State) (a : Word) {k : Nat} (h : 65536 ≤ k) :
    s.wordFrom a k = (s.readFrom a 65536).viewD (a + BitVec.ofNat 16 k) := by
  obtain ⟨n, rfl⟩ := Nat.exists_eq_add_of_le h
  rw [State.wordFrom, readFrom_add, (readFrom_refreshedAt_univ s a).readFrom_viewD]

/-- Every read returns what one of the first two rounds has returned for the same address. -/
theorem exists_lt_wordFrom_eq (s : State) (a : Word) (m : Nat) :
    ∃ k < 131072, BitVec.ofNat 16 k = BitVec.ofNat 16 m ∧ s.wordFrom a k = s.wordFrom a m := by
  by_cases hm : m < 131072
  · exact ⟨m, hm, rfl, rfl⟩
  · have hk : BitVec.ofNat 16 (65536 + m % 65536) = BitVec.ofNat 16 m := BitVec.eq_of_toNat_eq (by simp)
    refine ⟨65536 + m % 65536, by omega, hk, ?_⟩
    rw [wordFrom_of_le s a (Nat.le_add_right _ _), wordFrom_of_le s a (by omega), hk]

/-- A PUTS that has sent two rounds of memory goes on for ever. -/
theorem PutsSends.never_ends {a b c : Word} {s u v : State} {bytes more : List Byte} (h : PutsSends a s bytes b u)
    (hlen : bytes.length = 131072) (hv : PutsSends a s more c v) : v.InRange c ∧ v.viewD c ≠ 0x0000#16 := by
  obtain ⟨-, -, hall⟩ := putsSends_iff.mp h
  obtain ⟨rfl, rfl, -⟩ := putsSends_iff.mp hv
  obtain ⟨k, hk, haddr, hword⟩ := exists_lt_wordFrom_eq s a more.length
  obtain ⟨hr, hne, -⟩ := hall k (hlen ▸ hk)
  rw [haddr] at hr
  exact ⟨((readFrom_dataFrame s a _).inRange _).mpr hr, fun e => hne (hword.trans e)⟩

/-! ## A string (R184) -/

/-- Where all addresses are refreshed, PUTS sends the low bytes of the words that it sees at its start. -/
theorem State.RefreshedAt.putsSends {s : State} (h : s.RefreshedAt Set.univ) {a : Word} {str : List Word}
    (hstr : ∀ k, (hk : k < str.length) → str[k] ≠ 0x0000#16 ∧ s.InRange (a + BitVec.ofNat 16 k) ∧
      s.viewD (a + BitVec.ofNat 16 k) = str[k]) :
    PutsSends a s (str.map fun w => w.extractLsb' 0 8) (a + BitVec.ofNat 16 str.length) (s.readFrom a str.length) := by
  refine putsSends_iff.mpr ⟨by rw [List.length_map], by rw [List.length_map], fun k hk => ?_⟩
  rw [List.length_map] at hk
  obtain ⟨hne, hr, hview⟩ := hstr k hk
  have hword : s.wordFrom a k = str[k] := (h.readFrom_viewD a k _).trans hview
  rw [hword, List.getElem_map, BitVec.setWidth_eq_extractLsb' (by decide)]
  exact ⟨hr, hne, rfl⟩

end Sys2Proof.Machine
end

section
/-! PROOFS. The statements settled: O48, O49, O45, O47, O50 and O51. -/

namespace Sys2Proof.Proofs

open Machine

/-- Settles O48: what `PutsSends` says of the reads, the loop of PUTS does, in a cycle of its own and in one that goes
on; and two rounds of memory without an end mean none (`PutsSends.never_ends`). -/
theorem putsSendsUntilItEnds : Obligations.PutsSendsUntilItEnds := by
  unfold Obligations.PutsSendsUntilItEnds
  intro s u x bytes b
  refine ⟨decode_eq_of_heldBy rfl (trapWord_heldBy rfl x), fun h => ?_⟩
  have hu : DataFrame s u := h.dataFrame
  have hend : DataFrame s (u.afterRead .dc b) := hu.trans (afterRead_dataFrame u b)
  refine ⟨fun hn hb hw => ?_, exec_puts_of_not_inRange h, fun hn => ⟨?_, fun v more c => h.never_ends hn⟩,
    fun hl hf hh hp hd => ?_⟩
  · exact ⟨_, exec_puts_of_zero h hn hb hw, rfl, hend.withSent_fault _ _, hend.withSent_frame _ bytes⟩
  · exact ⟨_, exec_puts_of_length_eq h hn, rfl, hu.withSent_frame _ bytes⟩
  · have hr : s.Running := ⟨hl, hf, hh⟩
    refine ⟨fun hn hb hw => ?_, step_held_puts_of_not_inRange hr hp hd h, fun hn => ?_⟩
    · have hreport := report_of_running (hend.withSent_running { s.latch with phase := .fetch } bytes hr) rfl
      exact ⟨_, hostStep_of_step (step_held_puts_of_zero hr hp hd h hn hb hw) hreport, hend.withSent_frame _ bytes⟩
    · exact ⟨_, step_held_puts_of_length_eq hr hp hd h hn, rfl, hu.withSent_frame _ bytes⟩

/-- Settles O49: where no line is stale, every read of PUTS keeps the views, so it reads the string as it stands. -/
theorem putsSendsAString : Obligations.PutsSendsAString := by
  unfold Obligations.PutsSendsAString
  intro s str hcurrent hlen hstr hend hzero
  have hfresh := hcurrent.refreshedAt_univ
  have hsends := hfresh.putsSends hstr
  have hkeep := hfresh.readFrom_viewD (s.reg 0) str.length
  have hread := (hfresh.readFrom (s.reg 0) str.length).afterRead_viewD (s.reg 0 + BitVec.ofNat 16 str.length)
  have hframe := hsends.dataFrame.trans (afterRead_dataFrame _ (s.reg 0 + BitVec.ofNat 16 str.length))
  have hn : (str.map fun w => w.extractLsb' 0 8).length < 131072 := by
    rw [List.length_map]
    omega
  have hexec := exec_puts_of_zero hsends hn ((hsends.dataFrame.inRange _).mpr hend) ((hkeep _).trans hzero)
  obtain ⟨hconsole, hrest⟩ := hframe.withSent_frame { (s.evalVector 0x22#8).latch with phase := .done }
    (str.map fun w => w.extractLsb' 0 8)
  refine ⟨_, hexec, rfl, hframe.withSent_fault _ _, hconsole, fun a => ?_, hrest⟩
  rw [withSent_viewD, hread, hkeep]

/-- Settles O45: the service writes the zero-extended byte to R0, and the flag of R8 sees that value. -/
theorem getcTakesOneByte : Obligations.GetcTakesOneByte := by
  unfold Obligations.GetcTakesOneByte
  intro s x b rest
  refine ⟨decode_eq_of_heldBy rfl (trapWord_heldBy rfl x), fun hin => ?_⟩
  have h0 : ((s.evalVector 0x20#8).dropInput.setReg 0 (zext b)).reg 0 = zext b := reg_setReg_self _ 0 (zext b)
  refine ⟨_, exec_getc_of_cons hin, rfl, rfl, ?_, fun q hq => reg_setReg_of_ne _ _ hq, ?_, ?_,
    sameReads_of rfl rfl rfl rfl rfl, rfl⟩
  · exact (congrArg BitVec.toNat h0).trans (zext_toNat b (by decide))
  · exact congrArg (fun w => bif s.cfg.ccOnAllRegWrites then ccOf w else s.cc) h0.symm
  · exact congrArg (fun i : List Byte => { input := i.tail, output := s.console.output : Console }) hin

/-- Settles O47: the service appends the byte to the output, and no phase has another effect. -/
theorem outSendsTheLowByte : Obligations.OutSendsTheLowByte := by
  unfold Obligations.OutSendsTheLowByte
  intro s x
  refine ⟨decode_eq_of_heldBy rfl (trapWord_heldBy rfl x), _, exec_out s, rfl, rfl, ?_,
    sameReads_of rfl rfl rfl rfl rfl, rfl⟩
  rw [← BitVec.setWidth_eq_extractLsb' (by decide)]
  rfl

/-- Settles O50: the cycle goes no further than EXECUTE, where the service sets `halted` and no cache is accessed. -/
theorem haltEndsTheProgram : Obligations.HaltEndsTheProgram := by
  unfold Obligations.HaltEndsTheProgram
  intro s x
  exact ⟨decode_eq_of_heldBy rfl (trapWord_heldBy rfl x), _, exec_halt s, rfl, rfl,
    sameReads_of rfl rfl rfl rfl rfl, rfl⟩

/-- Settles O51: the vector is none of the four services', so EVAL_ADDR alone acts, on the latches. -/
theorem unassignedVectorsDoNothing : Obligations.UnassignedVectorsDoNothing := by
  unfold Obligations.UnassignedVectorsDoNothing
  intro s x v hgetc hout hputs hhalt
  have hwf : (Instr.trap v).WellFormed := (trap_wellFormed_iff v).mpr (by simp [*])
  exact ⟨decode_eq_of_heldBy hwf (trapWord_heldBy rfl x), _, exec_trap v s, rfl, rfl,
    sameReads_of rfl rfl rfl rfl rfl, rfl⟩

end Sys2Proof.Proofs
end

section
/-! PROOFS. PUSH and POP (R195, R196): the words of the two forms, whose encodings have eight ignored bits, and what
each leaves in the registers and on the paths to memory. -/

namespace Sys2Proof

/-! ## Encodings with ignored bits (R92, R98) -/

/-- PUSH or POP, as bit 5 says, whatever stands in its ignored bits `x` and `y`. -/
theorem stackForm_heldBy {i : Instr} {r : Reg} {b : Bool} (hform : i.formFields = [bit5Bits b])
    (hoperands : i.operandFields = [drBits r]) (x : BitVec 3) (y : BitVec 5) :
    i.HeldBy (i.opcode ++ regBits r ++ x ++ BitVec.ofBool b ++ y) := by
  rw [heldBy_iff, hform, hoperands]
  simp only [List.forall_mem_cons, BitField.HeldBy, drBits, bit5Bits, opField]
  simp (disch := decide) only [BitVec.extractLsb'_append_eq_of_le, BitVec.extractLsb'_append_eq_of_add_le]
  simp

namespace Machine

/-! ## What PUSH leaves (R195) -/

/-- What PUSH leaves: R6 is decremented before SR is read, and the word goes to the address that R6 then holds. -/
def State.pushed (s : State) (sr : Reg) : State :=
  ((s.setReg 6 (s.reg 6 - 1)).memWrite (s.reg 6 - 1) (if sr = 6 then s.reg 6 - 1 else s.reg sr)).setccIfAll
    (s.reg 6 - 1)

theorem exec_push_eq_pushed {s : State} (sr : Reg) (h : s.InRange (s.reg 6 - 1)) :
    exec (.push sr) s = .next ((s.pushed sr).setPhase .done) :=
  exec_push_of_inRange sr h

theorem pushed_reg_six (s : State) (sr : Reg) : (s.pushed sr).reg 6 = s.reg 6 - 1 := reg_setReg_self s 6 _

theorem pushed_reg_of_ne_six (s : State) (sr : Reg) {q : Reg} (h : q ≠ 6) : (s.pushed sr).reg q = s.reg q :=
  reg_setReg_of_ne s _ h

/-- On every path to memory PUSH is one raw write. -/
theorem pushed_sameReads (s : State) (sr : Reg) :
    SameReads (s.memWrite (s.reg 6 - 1) (if sr = 6 then s.reg 6 - 1 else s.reg sr)) (s.pushed sr) :=
  sameReads_of rfl rfl rfl rfl rfl

theorem pushed_memRead_self (s : State) (sr : Reg) :
    (s.pushed sr).memRead (s.reg 6 - 1) = if sr = 6 then s.reg 6 - 1 else s.reg sr := by
  obtain ⟨hmem, -, -⟩ := pushed_sameReads s sr (s.reg 6 - 1)
  rw [hmem, memRead_memWrite_self]

theorem pushed_reads_of_ne (s : State) (sr : Reg) {b : Word} (h : b ≠ s.reg 6 - 1) :
    (s.pushed sr).memRead b = s.memRead b ∧ (s.pushed sr).viewD b = s.viewD b ∧
      (s.pushed sr).viewI b = s.viewI b := by
  obtain ⟨hmem, hviewD, hviewI⟩ := pushed_sameReads s sr b
  exact ⟨hmem.trans (memRead_memWrite_of_ne s _ h), hviewD.trans (view_memWrite_of_ne s _ .dc h),
    hviewI.trans (view_memWrite_of_ne s _ .ic h)⟩

/-! ## What POP leaves (R196) -/

theorem popped_reg_six_eq_add_one (s : State) (dr : Reg) :
    (s.popped dr).reg 6 = (s.setReg dr (s.memRead (s.reg 6))).reg 6 + 1 :=
  reg_setReg_self _ 6 _

/-- With DR = R6 the popped word is what is incremented. -/
theorem popped_reg_six (s : State) (dr : Reg) :
    (s.popped dr).reg 6 = (if 6 = dr then s.memRead (s.reg 6) else s.reg 6) + 1 := by
  rw [popped_reg_six_eq_add_one, reg_setReg]

theorem popped_reg_of_ne_six (s : State) (dr : Reg) {q : Reg} (h : q ≠ 6) :
    (s.popped dr).reg q = if q = dr then s.memRead (s.reg 6) else s.reg q :=
  (reg_setReg_of_ne (s.setReg dr _) _ h).trans (reg_setReg s dr q _)

/-- The flag of R8 sees the value that R6 is left with (log entry 15). -/
theorem popped_cc (s : State) (dr : Reg) :
    (s.popped dr).cc = bif s.cfg.ccOnAllRegWrites then ccOf ((s.popped dr).reg 6) else s.cc := by
  rw [popped_reg_six_eq_add_one]
  rfl

end Machine
end Sys2Proof
end

section
/-! PROOFS. The statements settled: O53, O54 and O55. -/

namespace Sys2Proof.Proofs

open Machine

/-- Settles O53: R6 is decremented before SR is read and memory written, and a failed check undoes the decrement. -/
theorem pushWritesRawMemory : Obligations.PushWritesRawMemory := by
  unfold Obligations.PushWritesRawMemory
  intro s sr x y
  refine ⟨decode_eq_of_heldBy rfl (stackForm_heldBy (i := .push sr) rfl rfl x y), fun h => ?_,
    exec_push_of_not_inRange sr⟩
  exact ⟨_, exec_push_eq_pushed sr h, rfl, rfl, pushed_reg_six s sr, fun _ hq => pushed_reg_of_ne_six s sr hq,
    pushed_memRead_self s sr, fun _ hb => pushed_reads_of_ne s sr hb, rfl, rfl⟩

/-- Settles O54: `x[dr]` is written before R6 is incremented, so DR = R6 is one case of `popped_reg_six`. -/
theorem popReadsRawMemory : Obligations.PopReadsRawMemory := by
  unfold Obligations.PopReadsRawMemory
  intro s dr x y
  refine ⟨decode_eq_of_heldBy rfl (stackForm_heldBy (i := .pop dr) rfl rfl x y), fun h => ?_,
    exec_pop_of_not_inRange dr⟩
  refine ⟨_, exec_pop_of_inRange dr h, rfl, rfl, fun hdr => ⟨?_, ?_⟩, fun hdr => ?_, fun q hq h6 => ?_,
    popped_cc s dr, sameReads_of rfl rfl rfl rfl rfl, rfl⟩
  · rw [setPhase_reg, popped_reg_of_ne_six s dr hdr, if_pos rfl]
  · rw [setPhase_reg, popped_reg_six, if_neg (Ne.symm hdr)]
  · rw [setPhase_reg, popped_reg_six, if_pos hdr.symm]
  · rw [setPhase_reg, popped_reg_of_ne_six s dr h6, if_neg hq]

/-- Settles O55: POP reads the address that PUSH wrote, raw like PUSH, and the increment undoes the decrement. -/
theorem popUndoesPush : Obligations.PopUndoesPush := by
  unfold Obligations.PopUndoesPush
  intro s sr dr hsr hdr h
  obtain ⟨-, hpush, -⟩ := pushWritesRawMemory s sr 0 0
  obtain ⟨t, hexecPush, -, -, hsp, -, hword, -, -, hframe⟩ := hpush h
  have hin : t.InRange (t.reg 6) := by
    rw [hsp]
    exact (inRange_congr (congrArg State.cfg hframe) (congrArg State.loadBase hframe) _).mpr h
  obtain ⟨-, hpop, -⟩ := popReadsRawMemory t dr 0 0
  obtain ⟨u, hexecPop, -, -, hother, -⟩ := hpop hin
  obtain ⟨hdrWord, hspBack⟩ := hother hdr
  refine ⟨t, u, hexecPush, hexecPop, ?_, ?_⟩
  · rw [hspBack, hsp, BitVec.sub_add_cancel]
  · rw [hdrWord, hsp, hword, if_neg hsr]

end Sys2Proof.Proofs
end

section
/-! PROOFS. Progress (R200), and what a fault leaves of a cycle (R208): the phases take an input byte in GETC alone, and
GETC takes no fault. -/

namespace Sys2Proof.Machine

/-! ## Progress -/

/-- From a state of the invariant a step goes through a status test, a new cycle or the rest of a held one. -/
theorem step_isNext {s : State} (h : s.Inv) : ∃ t, step s = .next t := by
  by_cases hr : s.Running
  · obtain hp | ⟨hp, hend⟩ := h.phase_ok
    · rw [step_of_fetch hr hp]
      exact newCycle_isNext s
    · obtain ⟨ph, hph⟩ : ∃ ph, s.HeldPhases ph := by
        obtain hd | ⟨hd, -⟩ := hend.resolve_left (by simp [hr.notHalted])
        · exact ⟨_, .inl ⟨hd, rfl⟩⟩
        · exact ⟨_, .inr ⟨hd, rfl⟩⟩
      obtain ⟨u, hu⟩ := resumePhases_isNext s ph
      rw [step_of_held hr hp, resumeCycle_of_held hph, hu]
      exact settle_isNext s u
  · exact ⟨s, step_of_not_running hr⟩

/-! ## The input of a cycle that takes a fault -/

/-- However the phases end, the console is the one that they have left (R208). -/
theorem endCycle_console {start t : State} {f : Flow} (h : endCycle start f = .next t) : t.console = f.state.console := by
  cases f <;> obtain rfl := Host.Outcome.next.inj h <;> rfl

/-- PUTS takes no input, begun or resumed, whatever the latches (R184). -/
theorem putsLoop_endCycle_input {s t : State} {n : Nat} {a : Word} {l : Latches}
    (h : endCycle s (putsLoop n a { s with latch := l }) = .next t) : t.console.input = s.console.input :=
  (congrArg Console.input (endCycle_console h)).trans (putsLoop_accessFrame n a { s with latch := l }).input

/-- A failed check of an instruction that has sent nothing leaves its record alone (R129, R208). -/
theorem exec_of_check_fails {i : Instr} {s : State} {a : Word} (hi : i ≠ .puts) (hc : i.ChecksAddress s a)
    (ha : ¬ s.InRange a) : exec i s = .next (takeFault s s a) := by
  cases i with
  | ld dr off =>
    obtain rfl : a = s.pcPlus off := hc
    exact exec_ld_of_not_inRange dr ha
  | ldr dr baseR off =>
    obtain rfl : a = s.basePlus baseR off := hc
    exact exec_ldr_of_not_inRange dr ha
  | ldi dr off =>
    obtain rfl | ⟨hp, rfl⟩ := hc
    · exact exec_ldi_of_pointer_not_inRange dr ha
    · exact exec_ldi_of_target_not_inRange dr hp ha
  | st sr off =>
    obtain rfl : a = s.pcPlus off := hc
    exact exec_st_of_not_inRange sr ha
  | str sr baseR off =>
    obtain rfl : a = s.basePlus baseR off := hc
    exact exec_str_of_not_inRange sr ha
  | sti sr off =>
    obtain rfl | ⟨hp, rfl⟩ := hc
    · exact exec_sti_of_pointer_not_inRange sr ha
    · exact exec_sti_of_target_not_inRange sr hp ha
  | push sr =>
    obtain rfl : a = s.reg 6 - 1 := hc
    exact exec_push_of_not_inRange sr ha
  | pop dr =>
    obtain rfl : a = s.reg 6 := hc
    exact exec_pop_of_not_inRange dr ha
  | puts => exact absurd rfl hi
  | _ => exact False.elim hc

theorem exec_fault_input {i : Instr} {s t : State} {a : Word} (hs : s.fault = none) (h : exec i s = .next t)
    (ht : t.fault = some (.outOfRange a)) : t.console.input = s.console.input := by
  by_cases hi : i = .puts
  · subst hi
    exact putsLoop_endCycle_input ((exec_puts s).symm.trans h)
  · obtain ⟨hc, ha⟩ := fault_of_exec hs h ht
    obtain rfl := Host.Outcome.next.inj ((exec_of_check_fails hi hc ha).symm.trans h)
    rfl

/-- A GETC that goes on takes a byte or waits, and has nothing to check (R182). -/
theorem resumePhases_getc_fault {s t : State} (h : s.resumePhases getcPhases = .next t) : t.fault = s.fault := by
  rw [getcPhases, resumePhases_trap] at h
  cases hin : s.console.input with
  | nil =>
    rw [getcService_of_nil (s := s.setPhase .execute) hin] at h
    obtain rfl := Host.Outcome.next.inj h
    rfl
  | cons b bs =>
    rw [getcService_of_cons (s := s.setPhase .execute) hin] at h
    obtain rfl := Host.Outcome.next.inj h
    rfl

theorem resumePhases_fault_input {s t : State} {ph : Phases} (hph : s.HeldPhases ph) (hs : s.fault = none)
    (h : s.resumePhases ph = .next t) (ht : t.fault ≠ none) : t.console.input = s.console.input := by
  obtain ⟨-, rfl⟩ | ⟨-, rfl⟩ := hph
  · exact absurd ((resumePhases_getc_fault h).trans hs) ht
  · rw [putsPhases, resumePhases_trap] at h
    exact putsLoop_endCycle_input h

/-- A step that takes a fault rolls its cycle back, and has taken no input (R208). -/
theorem step_eq_takeFault {s t : State} {f : FaultRecord} (hs : s.fault = none) (h : step s = .next t)
    (ht : t.fault = some f) :
    s.Running ∧ ∃ a u, f = .outOfRange a ∧ t = takeFault s u a ∧ u.console.input = s.console.input := by
  obtain ⟨-, rfl⟩ | ⟨hr, hp, hc⟩ | ⟨hr, hp, ph, u, hph, hu, hend⟩ := step_cases h
  · exact absurd (hs.symm.trans ht) (by simp)
  · refine ⟨hr, ?_⟩
    obtain ⟨-, rfl⟩ | ⟨ha, u, hu, ⟨a, hua, rfl⟩ | ⟨huf, rfl⟩⟩ := newCycle_cases hc
    · exact ⟨s.pc, s, (Option.some.inj ht).symm, rfl, rfl⟩
    · have hover : s.HandsOver s.fetched.latchDecode := .fetched hp ha
      have hin := exec_fault_input (hover.fault.trans hs) hu hua
      exact ⟨a, u, (Option.some.inj ht).symm, rfl, hin.trans (congrArg Console.input hover.console)⟩
    · exact absurd (ht.symm.trans ((accessFrame_endOfCycle u).fault.trans huf)) (by simp)
  · refine ⟨hr, ?_⟩
    obtain ⟨a, hua, rfl⟩ | ⟨huf, rfl⟩ := hend
    · exact ⟨a, u, (Option.some.inj ht).symm, rfl, resumePhases_fault_input hph hs hu (by simp [hua])⟩
    · exact absurd (ht.symm.trans ((accessFrame_endOfCycle u).fault.trans huf)) (by simp)

end Sys2Proof.Machine
end

section
/-! PROOFS. `run_until` (R217): what a test before a cycle returns, what a turn of the loop returns, and a run as the
steps that it makes. -/

namespace Sys2Proof.Machine

/-! ## Reports -/

/-- What `run_until` returns on a report: it goes on after Continue alone (R217). -/
def StepOutcome.ending : StepOutcome → Option RunOutcome
  | .continued => none
  | .halted => some .halted
  | .fault f => some (.fault f)
  | .noProgramLoaded => some .noProgramLoaded

theorem eq_continued_of_ending {o : StepOutcome} (h : o.ending = none) : o = .continued := by
  cases o with
  | continued => rfl
  | halted | fault f | noProgramLoaded => exact absurd h (by simp [StepOutcome.ending])

/-- A state in a cycle has nothing to report (R228). -/
theorem report_of_not_between {s : State} (h : ¬ s.BetweenCycles) : s.report = none :=
  Option.not_isSome_iff_eq_none.mp fun hs => h ((report_isSome_iff s).mp hs)

/-- A program is loaded where a cycle begins or goes on. -/
theorem loaded_of_ready_or_held {s : State} (h : s.Ready ∨ ¬ s.BetweenCycles) : s.loaded = true := by
  obtain hready | hheld := h
  · exact hready.loaded
  · exact Bool.eq_true_of_not_eq_false fun hl => hheld (.inl hl)

/-- What each report says of the status fields (R121). -/
theorem report_cases {s : State} {o : StepOutcome} (h : s.report = some o) :
    (o = .noProgramLoaded ∧ s.loaded = false) ∨ (∃ f, o = .fault f ∧ s.fault = some f) ∨
    (o = .halted ∧ s.fault = none ∧ s.halted = true) ∨ (o = .continued ∧ s.fault = none ∧ s.halted = false) := by
  unfold State.report at h
  split at h
  · next hl => exact .inl ⟨(Option.some.inj h).symm, hl⟩
  · split at h
    · next f hf => exact .inr (.inl ⟨f, (Option.some.inj h).symm, hf⟩)
    · next hf =>
      split at h
      · next hh => exact .inr (.inr (.inl ⟨(Option.some.inj h).symm, hf, hh⟩))
      · next hh =>
        split at h
        · exact .inr (.inr (.inr ⟨(Option.some.inj h).symm, hf, Bool.eq_false_of_not_eq_true hh⟩))
        · exact absurd h (by simp)

/-- What a result of `run_until` says of the state that it leaves (R217). -/
def RunOutcome.TrueOf (r : RunOutcome) (t : State) : Prop :=
  match r with
  | .noProgramLoaded => t.loaded = false
  | .halted => t.halted = true ∧ t.fault = none
  | .fault f => t.fault = some f
  | .endOfMemory => ¬ t.InRange t.pc ∧ t.fault = none ∧ t.halted = false
  | .breakpointHit a => t.pc = a ∧ a ∈ t.bp ∧ t.report = some .continued

theorem ending_trueOf {s : State} {o : StepOutcome} {r : RunOutcome} (h : s.report = some o) (ho : o.ending = some r) :
    r.TrueOf s ∧ ∀ a, r ≠ .breakpointHit a := by
  obtain ⟨rfl, hl⟩ | ⟨f, rfl, hf⟩ | ⟨rfl, hf, hh⟩ | ⟨rfl, -⟩ := report_cases h
  · obtain rfl := Option.some.inj ho
    exact ⟨hl, nofun⟩
  · obtain rfl := Option.some.inj ho
    exact ⟨hf, nofun⟩
  · obtain rfl := Option.some.inj ho
    exact ⟨⟨hh, hf⟩, nofun⟩
  · exact absurd ho (by simp [StepOutcome.ending])

/-! ## The tests before a cycle -/

theorem runUntil_of_ending {s : State} {o : StepOutcome} {r : RunOutcome} (h : s.report = some o)
    (ho : o.ending = some r) (n : Nat) : runUntil (n + 1) s = some (s, r) := by
  rw [runUntil, h]
  cases o with
  | continued => exact absurd ho (by simp [StepOutcome.ending])
  | halted | fault f | noProgramLoaded =>
    obtain rfl := Option.some.inj ho
    rfl

theorem runUntil_of_endOfMemory {s : State} (h : s.report = some .continued) (ha : ¬ s.InRange s.pc) (n : Nat) :
    runUntil (n + 1) s = some (s, .endOfMemory) := by
  rw [runUntil, h]
  exact if_neg ha

theorem runUntil_of_continued {s : State} (h : s.report = some .continued) (ha : s.InRange s.pc) (n : Nat) :
    runUntil (n + 1) s = s.runTurn (runUntil n) := by
  rw [runUntil, h]
  exact if_pos ha

theorem runUntil_of_held {s : State} (h : s.report = none) (n : Nat) :
    runUntil (n + 1) s = s.runTurn (runUntil n) := by
  rw [runUntil, h]

theorem runUntil_of_ready_or_held {s : State} (h : s.Ready ∨ ¬ s.BetweenCycles) (n : Nat) :
    runUntil (n + 1) s = s.runTurn (runUntil n) := by
  obtain hready | hheld := h
  · exact runUntil_of_continued (report_of_running hready.running hready.atFetch) hready.pcInRange n
  · exact runUntil_of_held (report_of_not_between hheld) n

/-- `run_until` returns at a test whatever its bound, or takes a turn of its loop whatever its bound. -/
theorem runUntil_succ_cases (s : State) :
    (∃ r : RunOutcome, r.TrueOf s ∧ (∀ a, r ≠ .breakpointHit a) ∧ ∀ n, runUntil (n + 1) s = some (s, r)) ∨
    ∀ n, runUntil (n + 1) s = s.runTurn (runUntil n) := by
  cases hs : s.report with
  | none => exact .inr (runUntil_of_held hs)
  | some o =>
    cases ho : o.ending with
    | some r =>
      obtain ⟨htrue, hbp⟩ := ending_trueOf hs ho
      exact .inl ⟨r, htrue, hbp, runUntil_of_ending hs ho⟩
    | none =>
      obtain rfl := eq_continued_of_ending ho
      by_cases ha : s.InRange s.pc
      · exact .inr (runUntil_of_continued hs ha)
      · obtain ⟨⟨⟩, -⟩ | ⟨f, ⟨⟩, -⟩ | ⟨⟨⟩, -⟩ | ⟨-, hf, hh⟩ := report_cases hs
        exact .inl ⟨.endOfMemory, ⟨ha, hf, hh⟩, nofun, runUntil_of_endOfMemory hs ha⟩

/-! ## A turn of the loop -/

section
variable {s t : State} {rest : State → Option (State × RunOutcome)} (h : step s = .next t)
include h

theorem runTurn_of_ending {o : StepOutcome} {r : RunOutcome} (hr : t.report = some o) (ho : o.ending = some r) :
    s.runTurn rest = some (t, r) := by
  rw [State.runTurn, h]
  dsimp only
  rw [hr]
  cases o with
  | continued => exact absurd ho (by simp [StepOutcome.ending])
  | halted | fault f | noProgramLoaded =>
    obtain rfl := Option.some.inj ho
    rfl

theorem runTurn_of_breakpoint (hr : t.report = some .continued) (hb : t.pc ∈ t.bp) :
    s.runTurn rest = some (t, .breakpointHit t.pc) := by
  rw [State.runTurn, h]
  dsimp only
  rw [hr]
  exact if_pos hb

theorem runTurn_of_continued (hr : t.report = some .continued) (hb : t.pc ∉ t.bp) : s.runTurn rest = rest t := by
  rw [State.runTurn, h]
  dsimp only
  rw [hr]
  exact if_neg hb

theorem runTurn_of_held (hr : t.report = none) : s.runTurn rest = rest t := by
  rw [State.runTurn, h]
  dsimp only
  rw [hr]

end

/-- Where the step of a turn leads, the turn returns whatever follows, or hands over to what follows. -/
theorem runTurn_cases {s u : State} (h : step s = .next u) :
    (∃ r : RunOutcome, r.TrueOf u ∧ ∀ rest, s.runTurn rest = some (u, r)) ∨
    ((u.report = some .continued → u.pc ∉ u.bp) ∧ ∀ rest, s.runTurn rest = rest u) := by
  cases hu : u.report with
  | none => exact .inr ⟨nofun, fun _ => runTurn_of_held h hu⟩
  | some o =>
    cases ho : o.ending with
    | some r => exact .inl ⟨r, (ending_trueOf hu ho).1, fun _ => runTurn_of_ending h hu ho⟩
    | none =>
      obtain rfl : o = .continued := eq_continued_of_ending ho
      by_cases hb : u.pc ∈ u.bp
      · exact .inl ⟨.breakpointHit u.pc, ⟨rfl, hb, hu⟩, fun _ => runTurn_of_breakpoint h hu hb⟩
      · exact .inr ⟨fun _ => hb, fun _ => runTurn_of_continued h hu hb⟩

/-- A turn that returns has stepped. -/
theorem step_isNext_of_runTurn {s : State} {rest : State → Option (State × RunOutcome)} {x : State × RunOutcome}
    (h : s.runTurn rest = some x) : ∃ u, step s = .next u := by
  unfold State.runTurn at h
  split at h
  · next u hu => exact ⟨u, hu⟩
  · exact absurd h (by simp)
  · exact absurd h (by simp)

/-- A turn returns the same where what follows it does. -/
theorem runTurn_mono {s : State} {rest more : State → Option (State × RunOutcome)} {x : State × RunOutcome}
    (hm : ∀ u, rest u = some x → more u = some x) (h : s.runTurn rest = some x) : s.runTurn more = some x := by
  obtain ⟨u, hu⟩ := step_isNext_of_runTurn h
  obtain ⟨r, -, hret⟩ | ⟨-, hrest⟩ := runTurn_cases hu
  · rw [hret more, ← hret rest]
    exact h
  · rw [hrest more]
    exact hm u ((hrest rest).symm.trans h)

/-- One step more does not change what a run has returned (log entry 12). -/
theorem runUntil_succ_of_some {n : Nat} {s : State} {x : State × RunOutcome} (h : runUntil n s = some x) :
    runUntil (n + 1) s = some x := by
  induction n generalizing s with
  | zero => exact absurd h nofun
  | succ n ih =>
    obtain ⟨r, -, -, hret⟩ | hturn := runUntil_succ_cases s
    · rw [hret (n + 1), ← hret n]
      exact h
    · rw [hturn (n + 1)]
      exact runTurn_mono (fun _ => ih) ((hturn n).symm.trans h)

/-! ## A run as its steps -/

/-- `run_until` returns `r` from `s` after `k` steps, which lead to `t`: at a test, at the end of a cycle, or after a
cycle that does not end at a breakpoint (R217). -/
inductive RunsTo : Nat → State → State → RunOutcome → Prop where
  | test {s : State} {r : RunOutcome} : r.TrueOf s → (∀ a, r ≠ .breakpointHit a) → RunsTo 0 s s r
  | last {s t : State} {r : RunOutcome} : step s = .next t → r.TrueOf t → RunsTo 1 s t r
  | turn {k : Nat} {s u t : State} {r : RunOutcome} : step s = .next u →
      (u.report = some .continued → u.pc ∉ u.bp) → RunsTo k u t r → RunsTo (k + 1) s t r

theorem runsTo_of_runUntil {n : Nat} {s t : State} {r : RunOutcome} (h : runUntil n s = some (t, r)) :
    ∃ k ≤ n, RunsTo k s t r := by
  induction n generalizing s with
  | zero => exact absurd h nofun
  | succ n ih =>
    obtain ⟨q, htrue, hbp, hret⟩ | hturn := runUntil_succ_cases s
    · obtain ⟨rfl, rfl⟩ := Prod.mk.inj (Option.some.inj ((hret n).symm.trans h))
      exact ⟨0, Nat.zero_le _, .test htrue hbp⟩
    · have h := (hturn n).symm.trans h
      obtain ⟨u, hu⟩ := step_isNext_of_runTurn h
      obtain ⟨q, htrue, hret⟩ | ⟨hb, hrest⟩ := runTurn_cases hu
      · obtain ⟨rfl, rfl⟩ := Prod.mk.inj (Option.some.inj ((hret _).symm.trans h))
        exact ⟨1, Nat.succ_le_succ (Nat.zero_le n), .last hu htrue⟩
      · obtain ⟨k, hk, hrun⟩ := ih ((hrest _).symm.trans h)
        exact ⟨k + 1, Nat.succ_le_succ hk, .turn hu hb hrun⟩

theorem run_succ_of_step {s u : State} (h : step s = .next u) (k : Nat) : core.run (k + 1) s = core.run k u := by
  have hcore : core.step s = .next u := h
  simp only [Host.Core.run, hcore]

namespace RunsTo

variable {k : Nat} {s t : State} {r : RunOutcome}

theorem trueOf (h : RunsTo k s t r) : r.TrueOf t := by
  induction h with
  | test htrue => exact htrue
  | last _ htrue => exact htrue
  | turn _ _ _ ih => exact ih

theorem run_eq (h : RunsTo k s t r) : core.run k s = .next t := by
  induction h with
  | test => rfl
  | last hstep => exact run_succ_of_step hstep 0
  | turn hstep _ _ ih => exact (run_succ_of_step hstep _).trans ih

/-- No test returns a breakpoint: it is hit after a step (R217). -/
theorem pos_of_breakpointHit {a : Word} (h : RunsTo k s t (.breakpointHit a)) : 0 < k := by
  cases h with
  | test _ hbp => exact absurd rfl (hbp a)
  | last => exact Nat.one_pos
  | turn => exact Nat.succ_pos _

theorem not_breakpoint_before (h : RunsTo k s t r) {j : Nat} {u : State} (h0 : 0 < j) (hj : j < k)
    (hu : core.run j s = .next u) (hc : u.report = some .continued) : u.pc ∉ u.bp := by
  induction h generalizing j with
  | test => exact absurd hj (Nat.not_lt_zero j)
  | last => omega
  | turn hstep hb _ ih =>
    obtain ⟨i, rfl⟩ : ∃ i, j = i + 1 := Nat.exists_eq_succ_of_ne_zero h0.ne'
    rw [run_succ_of_step hstep] at hu
    obtain rfl | hi := Nat.eq_zero_or_pos i
    · obtain rfl := Host.Outcome.next.inj hu
      exact hb hc
    · exact ih hi (Nat.lt_of_succ_lt_succ hj) hu

end RunsTo

end Sys2Proof.Machine
end

section
/-! PROOFS. The host's calls on memory and breakpoints (R205 to R207, R218 to R221): each between cycles, as the value
that it answers. -/

namespace Sys2Proof.Machine

section
variable {s : State} (h : s.BetweenCycles) (a w : Word)
include h

theorem load_of_too_large {words : List Word} (hw : s.cfg.memWords < words.length) :
    s.load words a = some (s, .imageTooLarge) := by
  rw [State.load, hostCall_of_between h, if_pos hw]

theorem peek_of_inRange (hl : s.loaded = true) (ha : s.InRange a) : s.peek a = some (.word (s.memRead a)) := by
  rw [State.peek, hostCall_of_between h, if_neg (by simp [hl]), if_pos ha]

theorem peek_of_not_inRange (hl : s.loaded = true) (ha : ¬ s.InRange a) : s.peek a = some (.outOfRange a) := by
  rw [State.peek, hostCall_of_between h, if_neg (by simp [hl]), if_neg ha]

theorem poke_of_inRange (hl : s.loaded = true) (ha : s.InRange a) : s.poke a w = some (s.memWrite a w, .ok) := by
  rw [State.poke, hostCall_of_between h, if_neg (by simp [hl]), if_pos ha]

theorem poke_of_not_inRange (hl : s.loaded = true) (ha : ¬ s.InRange a) : s.poke a w = some (s, .outOfRange a) := by
  rw [State.poke, hostCall_of_between h, if_neg (by simp [hl]), if_neg ha]

theorem setBreakpoint_of_mem (ha : a ∈ s.bp) : s.setBreakpoint a = some (s, .alreadySet) := by
  rw [State.setBreakpoint, hostCall_of_between h, if_pos ha]

theorem setBreakpoint_of_full (ha : a ∉ s.bp) (hl : s.bp.length = 4) :
    s.setBreakpoint a = some (s, .breakpointTableFull) := by
  rw [State.setBreakpoint, hostCall_of_between h, if_neg ha, if_pos hl]

theorem setBreakpoint_of_not_mem (ha : a ∉ s.bp) (hl : s.bp.length ≠ 4) :
    s.setBreakpoint a = some ({ s with bp := insertBreakpoint a s.bp }, .ok) := by
  rw [State.setBreakpoint, hostCall_of_between h, if_neg ha, if_neg hl]

theorem clearBreakpoint_of_mem (ha : a ∈ s.bp) :
    s.clearBreakpoint a = some ({ s with bp := s.bp.filter (· ≠ a) }, .ok) := by
  rw [State.clearBreakpoint, hostCall_of_between h, if_pos ha]

theorem clearBreakpoint_of_not_mem (ha : a ∉ s.bp) : s.clearBreakpoint a = some (s, .notFound) := by
  rw [State.clearBreakpoint, hostCall_of_between h, if_neg ha]

end

theorem peek_of_not_loaded {s : State} (hl : s.loaded = false) (a : Word) : s.peek a = some .noProgramLoaded := by
  rw [State.peek, hostCall_of_between (.inl hl), if_pos hl]

theorem poke_of_not_loaded {s : State} (hl : s.loaded = false) (a w : Word) :
    s.poke a w = some (s, .noProgramLoaded) := by
  rw [State.poke, hostCall_of_between (.inl hl), if_pos hl]

theorem length_save (s : State) (first last : Word) : (s.save first last).length = (last - first).toNat + 1 := by
  rw [State.save, List.length_map, List.length_range]

theorem getElem?_save (s : State) {first last : Word} {k : Nat} (hk : k ≤ (last - first).toNat) :
    (s.save first last)[k]? = some (s.peek (first + BitVec.ofNat 16 k)) := by
  rw [State.save, List.getElem?_map, List.getElem?_range (Nat.lt_succ_of_le hk), Option.map_some]

end Sys2Proof.Machine
end

section
/-! PROOFS. The statements settled: O13, O18, O57, O58, O59, O10 and O56. -/

namespace Sys2Proof.Proofs

open Machine

/-- Settles O13: the invariant leaves a running state no phase but FETCH and an EXECUTE that GETC or PUTS holds. -/
theorem stepAlwaysAnswersANextState : Obligations.StepAlwaysAnswersANextState := by
  unfold Obligations.StepAlwaysAnswersANextState
  exact fun _ => step_isNext

/-- Settles O18: a fault rolls the cycle back to its start, the cycle has taken no input, and the fault then stops every
step before it begins. -/
theorem faultsArePrecise : Obligations.FaultsArePrecise := by
  unfold Obligations.FaultsArePrecise
  intro s t f hs h ht
  have hgrow := (step_advances h).output
  obtain ⟨hr, a, u, rfl, rfl, hin⟩ := step_eq_takeFault hs h ht
  have hreport : (takeFault s u a).report = some (.fault (.outOfRange a)) := report_of_fault hr.loaded ht
  have hstops : ¬ (takeFault s u a).Running := fun hrun => absurd (hrun.noFault.symm.trans ht) (by simp)
  have hconsole : u.console = { s.console with output := u.console.output } :=
    congrArg (fun i => { input := i, output := u.console.output : Console }) hin
  exact ⟨congrArg (fun c => { s with fault := some (.outOfRange a), console := c }) hconsole, hgrow,
    hostStep_of_step h hreport, hostStep_of_not_running hstops hreport, runUntil_of_ending hreport rfl⟩

/-- Settles O57: the value of each call, and the members of the list that it leaves. -/
theorem breakpointsAreASet : Obligations.BreakpointsAreASet := by
  unfold Obligations.BreakpointsAreASet
  refine fun s a h => ⟨fun ha => ?_, clearBreakpoint_of_not_mem h a, setBreakpoint_of_full h a, fun ha hl => ?_⟩
  · refine ⟨setBreakpoint_of_mem h a ha, _, clearBreakpoint_of_mem h a ha, fun b => ?_, rfl⟩
    rw [List.mem_filter, decide_eq_true_iff]
  · exact ⟨_, setBreakpoint_of_not_mem h a ha hl, fun b => mem_insertBreakpoint, length_insertBreakpoint a s.bp, rfl⟩

/-- Settles O58: the tests and the turn of the loop by their equations, and the result by the steps of the run
(`RunsTo`). -/
theorem runUntilStopsWhereItSays : Obligations.RunUntilStopsWhereItSays := by
  unfold Obligations.RunUntilStopsWhereItSays
  refine ⟨fun n s => ⟨fun hl => ?_, fun f hl hf => ?_, fun hl hf hh => ?_, fun hl hf hh hp ha => ?_,
    fun t hs h => ?_⟩, fun n s t r h => ?_⟩
  · exact runUntil_of_ending (report_of_not_loaded hl) rfl n
  · exact runUntil_of_ending (report_of_fault hl hf) rfl n
  · exact runUntil_of_ending (report_of_halted hl hf hh) rfl n
  · exact runUntil_of_endOfMemory (report_of_running ⟨hl, hf, hh⟩ hp) ha n
  · have hadv := step_advances h
    have hl : t.loaded = true := hadv.loaded.trans (loaded_of_ready_or_held hs)
    rw [runUntil_of_ready_or_held hs n, ← hadv.bp]
    refine ⟨fun f hf => ?_, fun hf hh => ?_, fun hf hh hp => ⟨fun hb => ?_, fun hb => ?_⟩, fun hheld => ?_⟩
    · exact runTurn_of_ending h (report_of_fault hl hf) rfl
    · exact runTurn_of_ending h (report_of_halted hl hf hh) rfl
    · exact runTurn_of_breakpoint h (report_of_running ⟨hl, hf, hh⟩ hp) hb
    · exact runTurn_of_continued h (report_of_running ⟨hl, hf, hh⟩ hp) hb
    · exact runTurn_of_held h (report_of_not_between hheld)
  · obtain ⟨k, hk, hrun⟩ := runsTo_of_runUntil h
    have htrue := hrun.trueOf
    refine ⟨?_, ?_, ?_, ?_, ?_, k, hk, hrun.run_eq, ?_, fun j u => hrun.not_breakpoint_before⟩
    · rintro rfl; exact htrue
    · rintro rfl; exact htrue
    · rintro f rfl; exact htrue
    · rintro rfl; exact htrue
    · rintro a rfl; exact htrue
    · rintro a rfl; exact hrun.pos_of_breakpointHit

/-- Settles O59, by induction on the additional steps: one step more keeps a result (`runUntil_succ_of_some`). -/
theorem runUntilNeedsNoMoreSteps : Obligations.RunUntilNeedsNoMoreSteps := by
  unfold Obligations.RunUntilNeedsNoMoreSteps
  intro n m s t r hle h
  induction hle with
  | refl => exact h
  | step _ ih => exact runUntil_succ_of_some ih

/-- Settles O10, by the size test that comes before the load (R232). -/
theorem tooLargeLoadChangesNothing : Obligations.TooLargeLoadChangesNothing := by
  unfold Obligations.TooLargeLoadChangesNothing
  exact fun s words start h => load_of_too_large h start

/-- Settles O56: the value of each call, and the raw path (R53) for what a poke leaves. -/
theorem peekAndPokeAreRaw : Obligations.PeekAndPokeAreRaw := by
  unfold Obligations.PeekAndPokeAreRaw
  refine fun s a w => ⟨fun hl => ?_, fun h hl ha => ?_, fun h hl ha => ?_, length_save s a w, fun k => getElem?_save s⟩
  · exact ⟨peek_of_not_loaded hl a, poke_of_not_loaded hl a w⟩
  · exact ⟨peek_of_not_inRange h a hl ha, poke_of_not_inRange h a w hl ha⟩
  · exact ⟨peek_of_inRange h a hl ha, _, poke_of_inRange h a w hl ha, memRead_memWrite_self s a w,
      fun _ hb => memRead_memWrite_of_ne s w hb, rfl⟩

end Sys2Proof.Proofs
end

section
/-! PROOFS. Reset (R230): the first load of a core that was just powered on. The statement settled: O11. -/

namespace Sys2Proof.Machine

theorem powerOn_betweenCycles (cfg : Config) : (State.powerOn cfg).BetweenCycles := .inl rfl

/-- The reset state is what a load of no words at 0x3000 leaves: memory and both caches are the empty lists, and the
load sets every field in which power-on and reset differ. -/
theorem loadImage_powerOn_eq_reset : (State.powerOn resetConfig).loadImage [] 0x3000#16 = State.reset := rfl

/-- No breakpoint is set at power-on, so the first load of an image that fits establishes the invariant. -/
theorem loadImage_powerOn_inv {cfg : Config} {words : List Word} (hw : words.length ≤ cfg.memWords) (start : Word) :
    ((State.powerOn cfg).loadImage words start).Inv := by
  have hbp : (State.powerOn cfg).bp.Pairwise (· < ·) ∧ (State.powerOn cfg).bp.length ≤ 4 :=
    ⟨List.Pairwise.nil, Nat.zero_le 4⟩
  exact loadImage_inv hbp hw start

end Sys2Proof.Machine

namespace Sys2Proof.Proofs

open Machine

/-- Settles O11: reset is the first load after power-on (R230, R231), and that load establishes the invariant. -/
theorem resetIsAnEmptyLoadAndMeetsInvariant : Obligations.ResetIsAnEmptyLoadAndMeetsInvariant := by
  unfold Obligations.ResetIsAnEmptyLoadAndMeetsInvariant
  have hfits : ([] : List Word).length ≤ resetConfig.memWords := Nat.zero_le _
  have hload := load_of_between (powerOn_betweenCycles resetConfig) hfits 0x3000#16
  have hinv := loadImage_powerOn_inv hfits 0x3000#16
  rw [loadImage_powerOn_eq_reset] at hload hinv
  exact ⟨hload, hinv⟩

end Sys2Proof.Proofs
end
